-- ==== Sys2Proof/Word.lean ====
section
/-! DEFINITION. The widths the spec counts in: the word size (R3), the instruction lengths (R130) and the
widths of a data access (R102). -/

namespace Sys2Proof

/-- The smallest addressable unit of memory (R101). -/
abbrev Byte := BitVec 8

/-- The word size `WLEN`: "all registers are word bits wide (either 32 or 64 bits)" (R3). -/
inductive WLen where
  | w32
  | w64
  deriving DecidableEq, Repr, Inhabited

/-- The word size in bits. -/
abbrev WLen.bits : WLen → Nat
  | .w32 => 32
  | .w64 => 64

/-- The word size in bytes. -/
abbrev WLen.bytes : WLen → Nat
  | .w32 => 4
  | .w64 => 8

/-- The four instruction lengths (R130). -/
inductive ILen where
  | l16
  | l32
  | l48
  | l64
  deriving DecidableEq, Repr, Inhabited

/-- An instruction length in bits. -/
abbrev ILen.bits : ILen → Nat
  | .l16 => 16
  | .l32 => 32
  | .l48 => 48
  | .l64 => 64

/-- An instruction length in bytes. -/
abbrev ILen.bytes : ILen → Nat
  | .l16 => 2
  | .l32 => 4
  | .l48 => 6
  | .l64 => 8

/-- The four widths of a data access (R102). -/
inductive Size where
  | b8
  | b16
  | b32
  | b64
  deriving DecidableEq, Repr, Inhabited

/-- An access width in bits. -/
abbrev Size.bits : Size → Nat
  | .b8 => 8
  | .b16 => 16
  | .b32 => 32
  | .b64 => 64

/-- An access width in bytes. -/
abbrev Size.bytes : Size → Nat
  | .b8 => 1
  | .b16 => 2
  | .b32 => 4
  | .b64 => 8

end Sys2Proof
end

