-- ==== Sys2Proof/Syntax.lean ====
section
/-! DEFINITION. The instructions as syntax. The source gives no mnemonic, no operand form and no encoding (R131, R135, R139):
an instruction is one of the ten rows of spec/opcode_table.json, or any other instruction of the `ISA` parameter, and says
what an effect record of R9 says: the registers it names, its data accesses, its flags, its next pc. -/

namespace Sys2Proof

/-- The seven flags of the flags section (R61). -/
inductive Flag where
  | covr
  | cund
  | ovfl
  | unfl
  | div0
  | zero
  | sign
  deriving DecidableEq, Repr, Inhabited

/-- One value of the flags section (R61 to R68), or a set of flags. The eighth entry of the section holds no state (R69). -/
structure Flags where
  covr : Bool := false
  cund : Bool := false
  ovfl : Bool := false
  unfl : Bool := false
  div0 : Bool := false
  zero : Bool := false
  sign : Bool := false
  deriving DecidableEq, Repr, Inhabited

/-- The flags an instruction generates: which ones, and their values (R9, `sflags` and each lane of `vflags`). -/
structure FlagGen where
  which : Flags
  val : Flags
  deriving DecidableEq, Repr, Inhabited

/-- The three register files (R2). -/
inductive RegFile where
  | f0
  | f1
  | f2
  deriving DecidableEq, Repr, Inhabited

/-- A register named as a source: its file and its number (R12, R133). -/
structure Reg where
  file : RegFile
  idx : Fin 32
  deriving DecidableEq, Repr, Inhabited

/-- A register named as an explicit destination, in file 0 or file 2 (R9, `rwrites`). -/
inductive Dest where
  /-- `x[i]` -/
  | x (i : Fin 32)
  /-- `sr[i]` -/
  | sr (i : Fin 32)
  deriving DecidableEq, Repr, Inhabited

/-- Where a scalar value of an instruction comes from. The operand forms are not in the source (R134, R139): these cover a
constant, a register of file 0 or 2, a value the same instruction loads, and any value the `ISA` parameter computes from
the registers it names (R140). -/
inductive Operand where
  /-- A constant. -/
  | const (v : Nat)
  /-- The content of `x[i]`. -/
  | x (i : Fin 32)
  /-- The content of `sr[i]`. -/
  | sr (i : Fin 32)
  /-- What the instruction's `k`-th data read delivers. -/
  | loaded (k : Nat)
  /-- The computation `id` of the `ISA` parameter over the registers named. -/
  | isa (id : Nat) (reads : List Reg)
  deriving DecidableEq, Repr, Inhabited

/-- Where a `VBITS`-bit result comes from. -/
inductive VSrc where
  | const (v : Nat)
  | v (i : Fin 32)
  | isa (id : Nat) (reads : List Reg)
  deriving DecidableEq, Repr, Inhabited

/-- Where generated scalar flags come from: which flags an operation generates belongs to the `ISA` parameter (R61). -/
inductive FlagSrc where
  | fixed (g : FlagGen)
  | isa (id : Nat) (reads : List Reg)
  deriving DecidableEq, Repr, Inhabited

/-- Where the flags of the lanes come from, lane 0 first (R174). -/
inductive LaneFlagSrc where
  | fixed (gs : List FlagGen)
  | isa (id : Nat) (reads : List Reg)
  deriving DecidableEq, Repr, Inhabited

/-- A destination in file 1 (R9, `vwrites`): the lane width is `8 * laneBytes` bits. -/
structure VWrite where
  d : Fin 32
  laneBytes : Nat
  res : VSrc
  deriving DecidableEq, Repr, Inhabited

/-- Vector flags (R9, `vflags`). -/
structure VFlagsForm where
  laneBytes : Nat
  src : LaneFlagSrc
  deriving DecidableEq, Repr, Inhabited

/-- A data read (R9, `dreads`). -/
structure DRead where
  addr : Operand
  size : Size
  deriving DecidableEq, Repr, Inhabited

/-- A data write (R9, `dwrites`). -/
structure DWrite where
  addr : Operand
  size : Size
  val : Operand
  deriving DecidableEq, Repr, Inhabited

/-- The special operations of 42_system_operations.md (R9, R180). -/
inductive Special where
  | none
  | eventReturn
  | stateDump (addr : Operand)
  | stateRestore (addr : Operand)
  | setVmsk (val : Operand)
  deriving DecidableEq, Repr, Inhabited

/-- The effect record of R9, before its operands have values. `next = none` means the next instruction in memory. The record's
`ilen` and `ibits` are the instruction's `IWord`, and its `compressed` flag, which no rule reads (R132), is which of the
constructors `compressed` and `general` of `Instr` carries it. -/
structure Record where
  reads : List Reg := []
  writes : List (Dest × Operand) := []
  vwrites : List VWrite := []
  dreads : List DRead := []
  dwrites : List DWrite := []
  sflags : Option FlagSrc := none
  vflags : Option VFlagsForm := none
  next : Option Operand := none
  special : Special := .none
  deriving DecidableEq, Repr, Inhabited

/-- What an instruction that has no row of its own does: a record written out, or what the `ISA` parameter answers under the
name `id` in the current state, from the registers it names and the data reads it makes, of which those listed here come first (R9,
R140). -/
inductive Body where
  | fixed (r : Record)
  | isa (id : Nat) (reads : List Reg) (dreads : List DRead)
  deriving DecidableEq, Repr, Inhabited

/-- What the `ISA` parameter does next: it makes a data read, or it answers. R9 gives it the current state and R140 has every data
access of an instruction listed, so what it learns of the memory it learns by the reads it makes. -/
inductive IsaAsk (α : Type) where
  | read (d : DRead)
  | answer (a : α)
  deriving DecidableEq, Repr, Inhabited

/-- The instruction word: `ilen` and `ibits` of R9, the bits right-aligned. -/
structure IWord where
  len : ILen
  bits : BitVec 64
  deriving DecidableEq, Repr, Inhabited

/-- The instructions. The first argument of each is its word. -/
inductive Instr where
  /-- `EVENT_RETURN` (R181). -/
  | eventReturn (w : IWord)
  /-- `STATE_DUMP addr` (R183). -/
  | stateDump (w : IWord) (addr : Operand)
  /-- `STATE_RESTORE addr` (R184). -/
  | stateRestore (w : IWord) (addr : Operand)
  /-- `SET_VMSK val`, one form per operand form (R185: "dedicated instructions"). -/
  | setVmsk (w : IWord) (val : Operand)
  /-- `SR_READ i` into `x[d]` (R186). -/
  | srRead (w : IWord) (d i : Fin 32)
  /-- `SR_WRITE i, val` (R187). -/
  | srWrite (w : IWord) (i : Fin 32) (val : Operand)
  /-- `VECTOR_OP`, the class of vector instructions (R170): destination `v[d]`, lanes of `laneBytes` bytes, vector sources
  `srcs`, the result and the flags of the lanes as the `ISA` parameter has them. -/
  | vectorOp (w : IWord) (d : Fin 32) (laneBytes : Nat) (srcs : List (Fin 32)) (res : VSrc) (flags : Option LaneFlagSrc)
  /-- `CALL target` (R161). -/
  | call (w : IWord) (target : Operand)
  /-- `RETURN` (R161). -/
  | ret (w : IWord)
  /-- `COMPRESSED`, the class of compressed instructions (R132). -/
  | compressed (w : IWord) (b : Body)
  /-- Every other instruction, the class R132 sets the compressed ones against ("All instructions, except compressed"):
  whatever effect record of R9 the `ISA` parameter gives it. -/
  | general (w : IWord) (b : Body)
  deriving DecidableEq, Repr, Inhabited

/-- An instruction that also makes the data reads that settled which one it is (R140), before its own; those that have a row of their
own list none. -/
def Instr.withReads (ds : List DRead) : Instr → Option Instr
  | .compressed w (.fixed r) => some (.compressed w (.fixed { r with dreads := ds ++ r.dreads }))
  | .compressed w (.isa id rs ds') => some (.compressed w (.isa id rs (ds ++ ds')))
  | .general w (.fixed r) => some (.general w (.fixed { r with dreads := ds ++ r.dreads }))
  | .general w (.isa id rs ds') => some (.general w (.isa id rs (ds ++ ds')))
  | i => if ds.isEmpty then some i else none

/-- The instruction's word. -/
def Instr.word : Instr → IWord
  | .eventReturn w => w
  | .stateDump w _ => w
  | .stateRestore w _ => w
  | .setVmsk w _ => w
  | .srRead w _ _ => w
  | .srWrite w _ _ => w
  | .vectorOp w _ _ _ _ _ => w
  | .call w _ => w
  | .ret w => w
  | .compressed w _ => w
  | .general w _ => w

end Sys2Proof
end

