-- ==== Sys2Proof/Config.lean ====
section
/-! DEFINITION. The parameters of R5, as plain data, and the values the spec leaves open, as constants with no body
(those that are applied to a core stand in Machine/State.lean).
A parameter with two readings in the spec, one "reference" and one open, is a choice between the two: the open reading is an
opaque constant, so that nothing can be proved of it but what the spec's own rules say. -/

namespace Sys2Proof

/-- The parameters the widths of registers depend on: `WLEN` (R3), `NL8 = VBITS / 8` (R4) and `CSR_BITS` (R60). `VBITS` is a
multiple of 8 by construction. -/
structure Shape where
  wlen : WLen
  nl8 : Nat
  csrBits : Nat
  deriving DecidableEq, Repr, Inhabited

/-- `WLEN`. -/
abbrev Shape.W (sh : Shape) : Nat := sh.wlen.bits

/-- `VBITS` (R4). -/
abbrev Shape.vbits (sh : Shape) : Nat := 8 * sh.nl8

/-- The width of `UEB_1` and `SEB_1` (R47, R87). -/
abbrev Shape.bufBits (sh : Shape) : Nat := max sh.wlen.bits sh.csrBits

/-- The width of the VMSK register (R50). -/
abbrev Shape.vmskBits (sh : Shape) : Nat := max sh.wlen.bits sh.nl8

/-- The legal values (R4, R34, R60): a positive number of lanes, at least 38 CSR bits. -/
def Shape.wf (sh : Shape) : Bool := decide (1 ≤ sh.nl8) && decide (38 ≤ sh.csrBits)

/-- The control and status register as a record of named fields (R60 to R84). -/
structure Csr where
  flags : Flags := {}
  len : BitVec 2 := 0#2
  vlen : BitVec 6 := 0#6
  imod : BitVec 3 := 0#3
  rmd : BitVec 2 := 0#2
  trd : BitVec 8 := 0#8
  sup : Bool := false
  boot : Bool := false
  con : Bool := false
  pag : Bool := false
  exc : Bool := false
  uint : Bool := false
  sint : Bool := false
  evt : Bool := false
  hlt : Bool := false
  deriving DecidableEq, Repr, Inhabited

/-- The names of the CSR's fields, in the order the source lists them (R85). -/
inductive CsrField where
  | covr | cund | ovfl | unfl | div0 | zero | sign
  | len | vlen | imod | rmd
  | trd
  | sup | boot | con | pag | exc | uint | sint | evt | hlt
  deriving DecidableEq, Repr, Inhabited

/-- `CSR_LAYOUT`: the lowest bit of each field in the CSR image (R85). -/
structure CsrLayout where
  covr : Nat
  cund : Nat
  ovfl : Nat
  unfl : Nat
  div0 : Nat
  zero : Nat
  sign : Nat
  len : Nat
  vlen : Nat
  imod : Nat
  rmd : Nat
  trd : Nat
  sup : Nat
  boot : Nat
  con : Nat
  pag : Nat
  exc : Nat
  uint : Nat
  sint : Nat
  evt : Nat
  hlt : Nat
  deriving DecidableEq, Repr, Inhabited

/-- The privilege of an event (R202). -/
inductive EventClass where
  | user
  | supervisor
  deriving DecidableEq, Repr, Inhabited

/-- The breakpoint modes of R44, with the reading of R221 to R225. `flag` stands for the five modes 10 to 14 only. -/
inductive BrkMode where
  | disabled
  | instrAddr
  | dataRead (s : Size)
  | dataWrite (s : Size)
  | flag (f : Flag)
  | instrWord (l : ILen)
  deriving DecidableEq, Repr, Inhabited

/-- The kinds of interrupt (R234 to R236). -/
inductive IrqKind where
  | user
  | supervisor
  | waking
  deriving DecidableEq, Repr, Inhabited

/-- An interrupt identity with its fixed kind (R235). -/
structure Irq where
  id : Nat
  kind : IrqKind
  deriving DecidableEq, Repr, Inhabited

/-- The events that are entered (R201). A page event and an illegal instruction are not among them: the model faults first
(R108, R136). -/
inductive Event where
  /-- All matches of one step, each the register's number and its mode (R226). -/
  | breakpoint (hits : List (Fin 6 × BrkMode))
  /-- The exception of a flag, raised by `CSR.EXC` (R227); of DIV0, "DIV0 exception" (R228). -/
  | flagException (f : Flag)
  | privilegeViolation
  | interrupt (i : Irq)
  deriving DecidableEq, Repr, Inhabited

/-- Which address an event saves (R207). -/
inductive SavedPc where
  | thisInstr
  | nextInstr
  deriving DecidableEq, Repr, Inhabited

/-- Why memory is accessed (R108, `kind`). -/
inductive AccessKind where
  | fetch
  | read
  | write
  deriving DecidableEq, Repr, Inhabited

/-- `ENDIAN` (R104). -/
inductive Endian where
  | little
  | big
  deriving DecidableEq, Repr, Inhabited

/-- `MISALIGNED` (R105). -/
inductive Misaligned where
  | fault
  | split
  | any
  deriving DecidableEq, Repr, Inhabited

/-- An open function parameter: the spec's reference instantiation, or any function at all. -/
inductive Choice where
  | reference
  | free
  deriving DecidableEq, Repr, Inhabited

/-- `TRANSLATE` (R108): any function at all, or a finite map from logical to physical byte addresses, where an address it
does not list is a page event. -/
inductive Translation where
  | free
  | table (rows : List (Nat × Nat))
  deriving DecidableEq, Repr, Inhabited

/-- When a breakpoint event is taken (R221 to R225). -/
inductive When where
  | before
  | after
  deriving DecidableEq, Repr, Inhabited

/-- `BRK_TIMING`, per mode group (R5). -/
structure BrkTiming where
  instrAddr : When := .before
  data : When := .after
  flag : When := .after
  instrWord : When := .before
  deriving DecidableEq, Repr, Inhabited

/-- `LANE_MASK_RULE` (R172): the lane's lowest bit (the reference rule), masked when any of its bits is 1, masked when all
are, or any set of mask bits that an open function gives the lane. -/
inductive LaneMaskRule where
  | lowest
  | any
  | all
  | free
  deriving DecidableEq, Repr, Inhabited

/-- `LANE_FLAG_RULE` (R174): a lane writes the group of its lowest smallest lane (the reference rule), all its groups, or
whichever groups of VFLG an open function gives it. -/
inductive LaneFlagRule where
  | lowest
  | all
  | free
  deriving DecidableEq, Repr, Inhabited

/-- The writes the hardware makes on its own, each by what makes it (R57): the pc of the next instruction, PC and CSR in a
return from an event, PC, CSR and the event buffers in the entry of one, PID in a promoting event, generated flags, HLT cleared
by a waking interrupt (R236), and the file usage registers themselves. -/
inductive HwWrite where
  | pcNext
  | pcReturn
  | pcEvent
  | ueb0
  | ueb1
  | vflg
  | fu0
  | fu1
  | fu2
  | pid
  | csrFlags
  | csrReturn
  | csrEvent
  | csrWake
  | seb0
  | seb1
  deriving DecidableEq, Repr, Inhabited

/-- A `DUMP_FORMAT` that puts each register at a place of its own, as offsets from the image's address. With `holdsFu` the image
begins with FU0, FU1, FU2 and a zero word of 4 bytes each and holds the registers whose bit is 1; without, it holds every
register and no FU word. `slots` are the FILE 2 slots the format has room for, `sBytes` the bytes of such a slot. -/
structure DumpLayout where
  holdsFu : Bool
  xOff : Nat
  xStride : Nat
  vOff : Nat
  vStride : Nat
  sOff : Nat
  sStride : Nat
  sBytes : Nat
  slots : BitVec 32
  deriving DecidableEq, Repr, Inhabited

/-- `DUMP_FORMAT` (R183): a layout, or any format at all. -/
inductive DumpFormat where
  | layout (d : DumpLayout)
  | free
  deriving DecidableEq, Repr, Inhabited

/-- The parameters of R5 that no width depends on. `FU_IMPLICIT` is the writes of `fuSet`, which set a file usage bit, and those
of `fuFree`, of which it is left open whether they do (R57, U17). -/
structure Params where
  csrLayout : CsrLayout
  kernelPid : BitVec 32
  ncores : Nat
  bootCore : Nat
  endian : Endian
  misaligned : Misaligned
  translate : Translation
  eventClass : Choice
  eventVector : Choice
  eventEntryCsr : Choice
  eventSavedPc : Choice
  brkTiming : BrkTiming
  laneMask : LaneMaskRule
  laneFlag : LaneFlagRule
  fuSet : List HwWrite
  fuFree : List HwWrite
  resetPc : Nat
  wakePc : List Nat
  autoExc : Flags
  dump : DumpFormat
  deriving DecidableEq, Repr, Inhabited

/-- What the environment does at one step (R6, R234): which core moves, which interrupts it presents to it, and which of them,
by its place, it lets the core take. -/
structure EnvMove where
  core : Nat
  pending : List Irq
  take : Option Nat
  deriving DecidableEq, Repr, Inhabited

/-- What an arbitrary value is drawn for (00_scope.md section 5.3, `draw`): each use of one step has a tag of its own. -/
inductive DrawTag where
  /-- The unused bits of a FILE 2 slot and the open bits of FU2, at the use with this number (U2, U4, U6, U7, U17). -/
  | unusedBits (use : Nat) (slot : Fin 32)
  /-- The flag group `k` of a masked lane, or an extra group of a wide lane (R174, R175). -/
  | laneGroup (k : Nat)
  /-- Whether masked lane `j` counts toward the one trap (R175). -/
  | laneTrap (j : Nat)
  /-- Which of several events that are due is entered (R176, R214). -/
  | pickEvent
  /-- Whether an instruction address breakpoint leaves the choice of event to the instruction it stands at (R214). -/
  | laterEvent
  /-- What the `k`-th data read would deliver, where it faults (R94). -/
  | unread (k : Nat)
  /-- Whether a misaligned access at this address faults (R105, `any`). -/
  | misaligned (addr : Nat)
  /-- A saved pc the next instruction of which is not known (R207). -/
  | savedPc
  /-- A file usage register after a restore whose image does not hold it (R184). -/
  | fileUsage (f : Nat)
  /-- Where the `k`-th from the end of an instruction's store events is put among those after it (R106); with `event` not 0, the same of
  the bytes of one event. -/
  | storeOrder (event k : Nat)
  /-- Whether a store that may be several events has a cut at this place (R106). -/
  | storeSplit (chunk k : Nat)
  deriving DecidableEq, Repr, Inhabited

/-- The arbitrary value of a use, at a given count of steps (00_scope.md section 5.3: under no law). FREE VALUE. -/
opaque Config.draw : Nat → DrawTag → Nat

/-- `TRANSLATE(PTP, PID, vaddr, kind, SUP, memory)`: a physical address, or none for a page event (R108). FREE VALUE. -/
opaque Config.translate : Nat → BitVec 32 → Nat → AccessKind → Bool → List Host.Cell → Option Nat

/-- `EVENT_ENTRY_CSR(CSR, class, event)`, before the three constraints of R206 are laid on it. FREE VALUE. -/
opaque Config.eventEntryCsr : Csr → EventClass → Event → Csr

/-- `EVENT_SAVED_PC(event)` (R207). FREE VALUE. -/
opaque Config.eventSavedPc : Event → SavedPc

/-- The event number of a ZERO or SIGN exception, for which 95_test_vectors.md section 0.2 gives none. FREE VALUE. -/
opaque Config.flagEventNumber : Flag → Nat

/-- Whether VMSK bit `k` is consulted for lane `j` of width `w`, under a free `LANE_MASK_RULE(w, j)` (R172). FREE VALUE. -/
opaque Config.laneMaskSet : Nat → Nat → Nat → Bool

/-- Whether lane `j` of width `w` is masked when the bits consulted for it, in order, are not all alike. FREE VALUE. -/
opaque Config.laneMaskMix : Nat → Nat → List Bool → Bool

/-- Whether lane `j` of width `w` writes flag group `k`, under a free `LANE_FLAG_RULE(w, j)` (R174). FREE VALUE. -/
opaque Config.laneFlagGroup : Nat → Nat → Nat → Bool

/-- The image a free `DUMP_FORMAT` makes of the 96 registers, file by file: pieces of data, each with its offset (R183).
FREE VALUE. -/
opaque Config.dumpEncode : Shape → List Nat → List (Nat × Size × Nat)

/-- Which piece of an image a restore under a free `DUMP_FORMAT` reads next, after what it has read; none at the end (R184).
FREE VALUE. -/
opaque Config.dumpNext : Shape → List Nat → Option (Nat × Size)

/-- How many pieces such a restore reads at most. FREE VALUE. -/
opaque Config.dumpReads : Shape → Nat

/-- The registers the pieces read hold, with their values (R184). FREE VALUE. -/
opaque Config.dumpDecode : Shape → List Nat → List (Reg × Nat)

/-- The reference layout of the CSR image (R85): the fields in the order the source lists them, the first at bit 0. -/
def CsrLayout.reference : CsrLayout where
  covr := 0
  cund := 1
  ovfl := 2
  unfl := 3
  div0 := 4
  zero := 5
  sign := 6
  len := 8
  vlen := 10
  imod := 16
  rmd := 19
  trd := 21
  sup := 29
  boot := 30
  con := 31
  pag := 32
  exc := 33
  uint := 34
  sint := 35
  evt := 36
  hlt := 37

/-- The reference `DUMP_FORMAT` (95_test_vectors.md section 0.4): room for every slot but the empty one. -/
def DumpLayout.reference (sh : Shape) : DumpLayout where
  holdsFu := true
  xOff := 16
  xStride := sh.wlen.bytes
  vOff := 16 + 32 * sh.wlen.bytes
  vStride := sh.nl8
  sOff := 16 + 32 * sh.wlen.bytes + 32 * sh.nl8
  sStride := sh.nl8
  sBytes := sh.nl8
  slots := 0xFFFDFFFF#32

/-- The reference instantiation of every parameter (95_test_vectors.md section 0). -/
def Params.reference (sh : Shape) : Params where
  csrLayout := CsrLayout.reference
  kernelPid := 0#32
  ncores := 1
  bootCore := 0
  endian := .little
  misaligned := .fault
  translate := .free
  eventClass := .reference
  eventVector := .reference
  eventEntryCsr := .reference
  eventSavedPc := .reference
  brkTiming := {}
  laneMask := .lowest
  laneFlag := .lowest
  fuSet := []
  fuFree := []
  resetPc := 0
  wakePc := []
  autoExc := { div0 := true }
  dump := .layout (DumpLayout.reference sh)

/-- The sizes the spec calls REF-A: a 32 bit machine with 64-bit vectors (95_test_vectors.md section 0.1). -/
def Shape.refA : Shape := ⟨.w32, 8, 38⟩

/-- The sizes the spec calls REF-B: a 64 bit machine with 128-bit vectors. -/
def Shape.refB : Shape := ⟨.w64, 16, 38⟩

/-- The sizes the spec calls REF-C: a 64 bit machine with 512-bit vectors. -/
def Shape.refC : Shape := ⟨.w64, 64, 38⟩

end Sys2Proof
end

