-- ==== Sys2Proof/WellFormed.lean ====
section
/-! DEFINITION. Well-formed instructions: the word fits its length (R130), every lane is 8 bits or wider (R33), and a value
taken from a data read names one the instruction has made. -/

namespace Sys2Proof

/-- The bits of the word lie below its length (R130). -/
def IWord.wf (w : IWord) : Bool := decide (w.bits.toNat < 2 ^ w.len.bits)

/-- The operand takes a loaded value only from the first `n` data reads. -/
def Operand.wf (n : Nat) : Operand → Bool
  | .loaded k => decide (k < n)
  | _ => true

/-- The address of the `k`-th data read uses only earlier ones. -/
def dreadsWf : Nat → List DRead → Bool
  | _, [] => true
  | n, r :: rs => r.addr.wf n && dreadsWf (n + 1) rs

/-- The special operation's own operand is well formed. -/
def Special.wf (n : Nat) : Special → Bool
  | .none => true
  | .eventReturn => true
  | .stateDump a => a.wf n
  | .stateRestore a => a.wf n
  | .setVmsk v => v.wf n

/-- How many data reads the record makes: none beside a special operation, which stands in their place (R180). -/
def Record.loads (r : Record) : Nat := if r.special == .none then r.dreads.length else 0

/-- The record is one R9 allows. -/
def Record.wf (r : Record) : Bool :=
  dreadsWf 0 r.dreads &&
  r.writes.all (fun p => p.2.wf r.loads) &&
  r.dwrites.all (fun d => d.addr.wf r.loads && d.val.wf r.loads) &&
  r.vwrites.all (fun v => decide (1 ≤ v.laneBytes)) &&
  (match r.vflags with | none => true | some f => decide (1 ≤ f.laneBytes)) &&
  (match r.next with | none => true | some o => o.wf r.loads) &&
  r.special.wf r.loads

/-- A body written out is a well-formed record; of one the `ISA` parameter answers, the data reads it names are well formed, and
the record is checked when it is answered. -/
def Body.wf : Body → Bool
  | .fixed r => r.wf
  | .isa _ _ ds => dreadsWf 0 ds

/-- A well-formed instruction. -/
def Instr.wf : Instr → Bool
  | .eventReturn w => w.wf
  | .stateDump w a => w.wf && a.wf 0
  | .stateRestore w a => w.wf && a.wf 0
  | .setVmsk w v => w.wf && v.wf 0
  | .srRead w _ _ => w.wf
  | .srWrite w _ v => w.wf && v.wf 0
  | .vectorOp w _ lb _ _ _ => w.wf && decide (1 ≤ lb)
  | .call w t => w.wf && t.wf 0
  | .ret w => w.wf
  | .compressed w b => w.wf && b.wf
  | .general w b => w.wf && b.wf

end Sys2Proof
end

