-- ==== Sys2Proof/Decode.lean ====
section
/-! DEFINITION. Decoding. "The model's decode is the `ISA` parameter and is total" (R140), and the source gives no encoding
("A decoder cannot be written from the source", R131): so the decoder takes the instruction set as data, the list of the words
in force and what each means, and is total on any bytes. The encoder beside it gives a word's bytes in memory. -/

namespace Sys2Proof

/-- The `n` bytes of a value, the least significant first. -/
def bytesLittle : Nat → Nat → List Byte
  | 0, _ => []
  | n + 1, v => BitVec.ofNat 8 v :: bytesLittle n (v / 256)

/-- The value of some bytes, the first the least significant. -/
def valLittle : List Byte → Nat
  | [] => 0
  | b :: bs => b.toNat + 256 * valLittle bs

/-- The `n` bytes of a value as memory holds them, lowest address first (R104). -/
def toBytes (e : Endian) (n v : Nat) : List Byte :=
  match e with
  | .little => bytesLittle n v
  | .big => (bytesLittle n v).reverse

/-- The value of bytes read from memory, lowest address first (R104). -/
def ofBytes (e : Endian) (bs : List Byte) : Nat :=
  match e with
  | .little => valLittle bs
  | .big => valLittle bs.reverse

/-- How an instruction set lays a word in memory: the order of its 16-bit parcels, and that of the two bytes of each. -/
structure WordOrder where
  parcels : Endian
  bytes : Endian
  deriving DecidableEq, Repr, Inhabited

/-- The least significant byte first. -/
def WordOrder.little : WordOrder := ⟨.little, .little⟩

/-- The most significant byte first. -/
def WordOrder.big : WordOrder := ⟨.big, .big⟩

/-- The bytes two by two, each pair turned round. -/
def swapPairs : List Byte → List Byte
  | a :: b :: bs => b :: a :: swapPairs bs
  | bs => bs

/-- The bytes of an instruction as memory holds them: its `ilen / 8` bytes (R130), in the order of its instruction set. R104 keeps
`ENDIAN` to `MemRead` and `MemWrite`, and R9 hands the `ISA` parameter bytes: how they form `ibits` is that parameter's own affair, in
one of the orders of `WordOrder` (DESIGN CHOICE, log entry 36). -/
def encode (o : WordOrder) (i : Instr) : List Byte :=
  let little := bytesLittle i.word.len.bytes i.word.bits.toNat
  let bs := if o.bytes == o.parcels then little else swapPairs little
  match o.parcels with
  | .little => bs
  | .big => bs.reverse

/-- Why bytes do not decode. -/
inductive DecodeError where
  /-- No word of the instruction set starts with these bytes or is started by them (R136). -/
  | illegal
  /-- The bytes are the beginning of a longer word. -/
  | truncated
  deriving DecidableEq, Repr, Inhabited

/-- The instruction the bytes begin with, in an instruction set (R140). -/
def decode (o : WordOrder) (isa : List Instr) (bytes : List Byte) : Except DecodeError Instr :=
  match isa.find? (fun i => (encode o i).isPrefixOf bytes) with
  | some i => .ok i
  | none => if isa.any (fun i => bytes.isPrefixOf (encode o i)) then .error .truncated else .error .illegal

/-- Neither word begins the other. -/
def apart (o : WordOrder) (i j : Instr) : Bool :=
  !(encode o i).isPrefixOf (encode o j) && !(encode o j).isPrefixOf (encode o i)

/-- Every instruction of the set is well formed. -/
def isaAllWf (isa : List Instr) : Bool := isa.all Instr.wf

/-- No two words of the set begin alike, so that each has one meaning. -/
def isaApart (o : WordOrder) : List Instr → Bool
  | [] => true
  | i :: is => is.all (apart o i) && isaApart o is

/-- An instruction set the decoder can tell apart. -/
def isaWf (o : WordOrder) (isa : List Instr) : Bool := isaAllWf isa && isaApart o isa

/-- A word of an instruction set, in force while the CSR fields named hold the values given: R9 lets the current state, such as
CSR.IMOD (R72), make bytes illegal or give them another meaning or length. -/
structure IsaRow where
  instr : Instr
  guard : List (CsrField × Nat) := []
  deriving DecidableEq, Repr, Inhabited

/-- The `ISA` parameter (R9): a list of words, or any decoder at all; and the order in which it lays a word in memory (log entry 36). -/
inductive Isa where
  | table (order : WordOrder) (rows : List IsaRow)
  | free (order : WordOrder)
  deriving DecidableEq, Repr, Inhabited

/-- The order in which an instruction set lays a word in memory. -/
def Isa.order : Isa → WordOrder
  | .table o _ => o
  | .free o => o

/-- The instruction set of some words that are always in force, the least significant byte first. -/
def Isa.ofWords (is : List Instr) : Isa := .table .little (is.map fun i => ⟨i, []⟩)

/-- A 32-bit word of the sample set. -/
def sampleWord (n : Nat) : IWord := ⟨.l32, BitVec.ofNat 64 n⟩

/-- `x[24] <- x[6]`, as program P1 of 95_test_vectors.md has it. -/
def sampleMove : Record := { writes := [(.x 24, .x 6)] }

/-- `MemWrite(x[29], 32, x[6])`. -/
def sampleStore : Record := { dwrites := [⟨.x 29, .b32, .x 6⟩] }

/-- `x[6] <- MemRead(x[29], 32)`. -/
def sampleLoad : Record := { dreads := [⟨.x 29, .b32⟩], writes := [(.x 6, .loaded 0)] }

/-- An addition whose result and flags the `ISA` parameter gives. -/
def sampleAdd : Record :=
  { writes := [(.x 4, .isa 0 [⟨.f0, 0⟩, ⟨.f0, 1⟩])], sflags := some (.isa 0 [⟨.f0, 0⟩, ⟨.f0, 1⟩]) }

/-- A sample instruction set: one word and more for each row of the opcode table. The words are the model's own invention
(log entry 1, DESIGN CHOICE): no claim about FabRISC may rest on one. -/
def sampleIsa : List Instr :=
  [.eventReturn (sampleWord 0x01),
   .stateDump ⟨.l64, 0x02#64⟩ (.x 10),
   .stateRestore ⟨.l64, 0x03#64⟩ (.x 10),
   .setVmsk (sampleWord 0x04) (.const 0x000F),
   .setVmsk (sampleWord 0x05) (.x 5),
   .srRead (sampleWord 0x06) 24 12,
   .srWrite (sampleWord 0x07) 10 (.const 0),
   .srWrite (sampleWord 0x08) 24 (.x 5)] ++
  [.vectorOp (sampleWord 0x09) 2 1 [] (.const 0x0F0E0D0C0B0A09080706050403020100) none,
   .vectorOp ⟨.l48, 0x0A#64⟩ 3 1 [1, 2] (.isa 0 [⟨.f1, 1⟩, ⟨.f1, 2⟩]) (some (.isa 0 [⟨.f1, 1⟩, ⟨.f1, 2⟩])),
   .call (sampleWord 0x0B) (.const 0x2000),
   .ret (sampleWord 0x0C),
   .compressed ⟨.l16, 0x0D#64⟩ (.fixed sampleMove),
   .general (sampleWord 0x0E) (.fixed sampleStore),
   .general (sampleWord 0x0F) (.fixed sampleLoad),
   .general (sampleWord 0x10) (.fixed sampleAdd),
   .general (sampleWord 0x11) (.isa 0 [⟨.f0, 0⟩] [⟨.x 0, .b32⟩])]

/-- The instruction the decoder reads from a word of the sample set, numbered as spec/opcode_table.json numbers bits: bit 0 is
the least significant bit of the first byte; the bits above `nbits` are zero. -/
def decodeTableWord (nbits w : Nat) : Option Instr :=
  match decode .little sampleIsa (bytesLittle 8 (w % 2 ^ nbits)) with
  | .ok i => some i
  | .error _ => none

end Sys2Proof
end

