-- ==== Sys2Proof/Machine/State.lean ====
section
/-! DEFINITION. The state (10_state.md), the reasons a step can stop, and the state after reset (R95).
The registers of a core have the widths of its `Shape`; `Mach` is a machine of a given shape and `State` a machine of any. -/

namespace Sys2Proof.Machine

open Sys2Proof

/-- The memory (R101): the bytes that hold a value, by address, addresses strictly rising. An address that is not listed holds
no value, and reading it faults (R94). -/
abbrev Memory := List Host.Cell

/-- Why a run ends in a fault, in the spec's sense of the word (R11). -/
inductive Fault where
  /-- Raised by the fetch, or by an instruction whose record the `ISA` parameter is asked for, when the parameter answers `illegal`
  (R136, U15). Safe: the event a chip raises is not named. -/
  | illegalInstruction
  /-- Raised by a data access, a fetch or an event table lookup at an address that is no multiple of its size, under
  `MISALIGNED = fault` (R105, U25) or where `any` draws a fault. Safe. -/
  | misaligned (addr : Nat)
  /-- Raised by a read of a byte of memory that nothing has written (R94, U14). Safe. -/
  | unwrittenByte (addr : Nat)
  /-- Raised by the translation of a fetch, a data access or an event table lookup that answers `page_event` (R108, U10). Safe. -/
  | pageEvent (addr : Nat)
  deriving DecidableEq, Repr, Inhabited

/-- One core: FILE 0, FILE 1 and FILE 2 (R2, R96). The unused bits of BM, VFLG, VMSK and CSR hold no state (R45, R49, R50, R69). -/
structure Core (sh : Shape) where
  /-- FILE 0, `x[0]` to `x[31]` (R20). -/
  x : Vector (BitVec sh.W) 32
  /-- FILE 1, `v[0]` to `v[31]` (R30). -/
  v : Vector (BitVec sh.vbits) 32
  /-- `%00` to `%03`, VR_04 to VR_07 (R40). -/
  vr : Vector (BitVec sh.W) 4
  /-- `%04` to `%09`, BR_00 to BR_05 (R41). -/
  br : Vector (BitVec sh.W) 6
  /-- `%10`, BM: the six mode codes, `BM[29:0]` (R42, R43). -/
  bm : BitVec 30
  /-- `%11`, the program counter (R46). -/
  pc : BitVec sh.W
  /-- `%12` (R47). -/
  ueb0 : BitVec sh.W
  /-- `%13` (R47). -/
  ueb1 : BitVec sh.bufBits
  /-- `%14`, VFLG: one flag group per smallest lane (R48, R49). -/
  vflg : Vector Flags sh.nl8
  /-- `%15`, VMSK: its `NL8` significant bits (R50). -/
  vmsk : BitVec sh.nl8
  /-- `%16`, SMSK (R52). -/
  smsk : BitVec sh.W
  /-- `%18`, UETP (R54). -/
  uetp : BitVec sh.W
  /-- `%19`, file usage of FILE 0 (R55). -/
  fu0 : BitVec 32
  /-- `%20`, file usage of FILE 1 (R55). -/
  fu1 : BitVec 32
  /-- `%21`, file usage of FILE 2 (R55). -/
  fu2 : BitVec 32
  /-- The model's own: the bits of FU2 of which it is open whether a write by the hardware has set them (R57, U17). -/
  fuOpen : BitVec 32
  /-- `%22`, PID (R59). -/
  pid : BitVec 32
  /-- `%23`, CSR (R60). -/
  csr : Csr
  /-- `%24` (R87). -/
  seb0 : BitVec sh.W
  /-- `%25` (R87). -/
  seb1 : BitVec sh.bufBits
  /-- `%26`, SETP (R88). -/
  setp : BitVec sh.W
  /-- `%27`, PTP (R89). -/
  ptp : BitVec sh.W
  /-- `%28` to `%31`, KR_0 to KR_3 (R90). -/
  kr : Vector (BitVec sh.W) 4
  deriving DecidableEq, Repr, Inhabited

/-- The configuration and the current state but for the memory: the core that runs with its index, and the other cores with theirs. The
shape is part of the type. -/
structure Cores (sh : Shape) where
  cfg : Params
  coreId : Nat
  core : Core sh
  parked : List (Nat × Core sh)
  deriving DecidableEq, Repr, Inhabited

/-- What a function parameter of R5 is given where the spec hands it the state: the configuration and the current state. -/
structure Now (sh : Shape) extends Cores sh where
  mem : Memory
  deriving DecidableEq, Repr, Inhabited

/-- What the `ISA` parameter computes from (R9): the configuration and the current state, of which it sees the memory through the data
reads it makes, since R140 has every data access listed; and what the registers the instruction names and those reads deliver. -/
structure IsaView (sh : Shape) extends Cores sh where
  reads : List Nat
  loaded : List Nat
  deriving DecidableEq, Repr, Inhabited

end Sys2Proof.Machine

namespace Sys2Proof

/-- `EVENT_CLASS(event, state)` under the open choice (R202): which state is meant is not said, so it is given the configuration and
the whole current state. DESIGN CHOICE, log entry 37. FREE VALUE. -/
opaque Config.eventClass {sh : Shape} : Event → Machine.Now sh → EventClass

/-- `EVENT_VECTOR(table pointer, event, memory)` under the open choice (R205): the handler's address, or the fault its reads of
the table meet. Whether those are translated is its affair (R117), so it sees the configuration and the core too. FREE VALUE. -/
opaque Config.eventVector {sh : Shape} : Params → Machine.Core sh → Nat → Event → Machine.Memory → Except Machine.Fault Nat

/-- What a free `ISA` does next for the bytes at the program counter (R9, R140). FREE VALUE. -/
opaque Config.isaDecode {sh : Shape} : List Byte → Machine.IsaView sh → IsaAsk (Except DecodeError Instr)

/-- A number of data reads that is enough for any answer of `isaDecode` (log entry 19). FREE VALUE. -/
opaque Config.isaDecodeReads {sh : Shape} : List Byte → Machine.IsaView sh → Nat

/-- A scalar value the `ISA` parameter computes (R9). FREE VALUE. -/
opaque Config.isaValue {sh : Shape} : Nat → Machine.IsaView sh → Nat

/-- A vector result the `ISA` parameter computes (R9, U29). FREE VALUE. -/
opaque Config.isaVector {sh : Shape} : Nat → Machine.IsaView sh → Nat

/-- The scalar flags an instruction generates (R61). FREE VALUE. -/
opaque Config.isaFlags {sh : Shape} : Nat → Machine.IsaView sh → FlagGen

/-- The flags each lane generates (R174). FREE VALUE. -/
opaque Config.isaLaneFlags {sh : Shape} : Nat → Machine.IsaView sh → List FlagGen

/-- What the `ISA` parameter does next on the way to an effect record, or to none for `illegal` (R9, R140). FREE VALUE. -/
opaque Config.isaRecord {sh : Shape} : Nat → Machine.IsaView sh → IsaAsk (Option Record)

/-- A number of data reads that is enough for any answer of `isaRecord` (log entry 19). FREE VALUE. -/
opaque Config.isaRecordReads {sh : Shape} : Nat → Machine.IsaView sh → Nat

end Sys2Proof

namespace Sys2Proof.Machine

open Sys2Proof

/-- A machine whose cores have the given shape. -/
structure Mach (sh : Shape) where
  /-- The parameters of R5 (fixed: no step writes them). -/
  cfg : Params
  /-- The `ISA` parameter: its words and what they mean (R9; fixed). -/
  isa : Isa
  /-- The one memory (R101). -/
  mem : Memory
  /-- The model's own counter of steps, which free values are drawn by (00_scope.md section 5.3). -/
  draws : Nat
  /-- What the environment will do at the next steps (R6); when it is empty the same core goes on and no interrupt is presented. -/
  env : List EnvMove
  /-- The index of the core whose step is next. -/
  coreId : Nat
  /-- That core. -/
  core : Core sh
  /-- The other cores, each with its index (R96). -/
  parked : List (Nat × Core sh)
  deriving DecidableEq, Repr, Inhabited

/-- The state: the parameters that fix the widths, and the machine. -/
structure State where
  shape : Shape
  m : Mach shape
  deriving DecidableEq, Repr, Inhabited

/-- Why a step has no meaning in the model, in the spec's sense of "refuse" (R11). -/
inductive Refusal where
  /-- Raised by `exec` for an instruction that has no meaning yet. Safe. -/
  | notModelled (mnemonic : String)
  /-- Raised by the breakpoint check of a step when a mode field holds a reserved code, 19 to 31 (R45, U1). Safe. -/
  | reservedBreakpointMode
  /-- Raised by the same check for mode 17 or 18 on a 32 bit machine (R225, U16). Safe. -/
  | breakpointModeTooWide
  /-- Raised by an explicit read or write of slot `%17` (R53, U3). Safe. -/
  | emptySlot
  /-- Raised by an explicit write to `%11`, PC (R189, U5). Safe. -/
  | pcWrite
  /-- Raised by the entry of a user event while `SUP = 1` (R202, U9). Safe. -/
  | userEventInSupervisorMode
  /-- Raised by an effect record that breaks the form of R9: the `ISA` parameter's own fault (R140). Safe. -/
  | illFormedRecord
  deriving DecidableEq, Repr, Inhabited

/-- Why a computation of the model stops. -/
inductive Stop where
  | fault (f : Fault)
  | refuse (r : Refusal)
  deriving DecidableEq, Repr, Inhabited

/-- The result of an operation that may stop. -/
abbrev Res (α : Type) := Except Stop α

/-- Every register at zero: what the model takes for "unspecified" (R95). DESIGN CHOICE, log entry 3. -/
def Core.zero (sh : Shape) : Core sh where
  x := Vector.replicate 32 0#_
  v := Vector.replicate 32 0#_
  vr := Vector.replicate 4 0#_
  br := Vector.replicate 6 0#_
  bm := 0#30
  pc := 0#_
  ueb0 := 0#_
  ueb1 := 0#_
  vflg := Vector.replicate sh.nl8 {}
  vmsk := 0#_
  smsk := 0#_
  uetp := 0#_
  fu0 := 0#32
  fu1 := 0#32
  fu2 := 0#32
  fuOpen := 0#32
  pid := 0#32
  csr := {}
  seb0 := 0#_
  seb1 := 0#_
  setp := 0#_
  ptp := 0#_
  kr := Vector.replicate 4 0#_

/-- The boot core at reset: running, in boot mode, in supervisor mode, paging off, at `RESET_PC` (R95, R261). -/
def Core.resetBoot (sh : Shape) (cfg : Params) : Core sh :=
  { Core.zero sh with
    pc := BitVec.ofNat _ cfg.resetPc
    csr := { sup := true, boot := true, pag := false, hlt := false } }

/-- Core `i`, not the boot core, at reset: halted, not in boot mode, its pc the parameter `WAKE_PC` (R83, R95, R268). -/
def Core.resetOther (sh : Shape) (cfg : Params) (i : Nat) : Core sh :=
  { Core.zero sh with
    pc := BitVec.ofNat _ (cfg.wakePc.getD i 0)
    csr := { hlt := true, boot := false } }

/-- The machine after reset, for any parameters (R95): no memory byte holds a value and no interrupt is presented. -/
def Mach.resetWith (sh : Shape) (cfg : Params) (isa : Isa) : Mach sh where
  cfg := cfg
  isa := isa
  mem := []
  draws := 0
  env := []
  coreId := cfg.bootCore
  core := Core.resetBoot sh cfg
  parked := ((List.range cfg.ncores).filter (· != cfg.bootCore)).map (fun i => (i, Core.resetOther sh cfg i))

/-- The state right after reset: the machine of R95 under the reference instantiation of the parameters (log entry 2), sizes
REF-B, with the model's sample words in the place of the `ISA` parameter (log entry 1). -/
def State.reset : State :=
  ⟨Shape.refB, Mach.resetWith Shape.refB (Params.reference Shape.refB) (.ofWords sampleIsa)⟩

end Sys2Proof.Machine
end

