-- ==== Sys2Proof/Machine/Memory.lean ====
section
/-! DEFINITION. The memory: bytes by address in one canonical form, translation, alignment and byte order, reads and writes of
several bytes (20_memory.md). -/

namespace Sys2Proof.Machine

open Sys2Proof

/-- The byte at an address, if it holds a value (R94, R101). -/
def Memory.get? : Memory → Nat → Option Byte
  | [], _ => none
  | (k, b) :: t, a => if a = k then some b else if a < k then none else Memory.get? t a

/-- The memory with a byte at an address, in the canonical form. -/
def Memory.set : Memory → Nat → Byte → Memory
  | [], a, b => [(a, b)]
  | (k, c) :: t, a, b =>
    if a < k then (a, b) :: (k, c) :: t
    else if a = k then (a, b) :: t
    else (k, c) :: Memory.set t a b

/-- The addresses rise strictly and none is below `lo`. -/
def Memory.risesFrom : Nat → Memory → Bool
  | _, [] => true
  | lo, (a, _) :: t => decide (lo ≤ a) && Memory.risesFrom (a + 1) t

/-- The canonical form: strictly rising addresses. -/
def Memory.wf (mem : Memory) : Bool := Memory.risesFrom 0 mem

/-- The memory after a list of bytes is written, in order: of two bytes at one address the later one stays. -/
def Memory.setAll (mem : Memory) (cells : List Host.Cell) : Memory :=
  cells.foldl (fun m c => Memory.set m c.1 c.2) mem

/-- Address arithmetic is modulo `2^WLEN` (R46, R100). -/
def wrapAddr (sh : Shape) (a : Nat) : Nat := a % 2 ^ sh.W

/-- An arbitrary value for one use of this step (00_scope.md section 5.3). -/
def Mach.draw {sh : Shape} (m : Mach sh) (t : DrawTag) : Nat := Config.draw m.draws t

/-- An arbitrary truth value for one use of this step. -/
def Mach.drawBool {sh : Shape} (m : Mach sh) (t : DrawTag) : Bool := m.draw t % 2 == 1

/-- What `TRANSLATE` answers for a logical byte address (R108). -/
def Mach.translation {sh : Shape} (m : Mach sh) (k : AccessKind) (a : Nat) : Option Nat :=
  match m.cfg.translate with
  | .table rows => List.lookup a rows
  | .free => Config.translate m.core.ptp.toNat m.core.pid a k m.core.csr.sup m.mem

/-- The physical address of a logical byte address: the same with paging off (R107), what `TRANSLATE` answers with paging on
(R108), where a page event faults. -/
def Mach.translate {sh : Shape} (m : Mach sh) (k : AccessKind) (a : Nat) : Res Nat :=
  if m.core.csr.pag then
    match m.translation k a with
    | some p => .ok (wrapAddr sh p)
    | none => .error (.fault (.pageEvent a))
  else .ok a

/-- The byte at a physical address; one that holds no value faults (R94). -/
def Mach.physByte {sh : Shape} (m : Mach sh) (p : Nat) : Res Byte :=
  match Memory.get? m.mem p with
  | some b => .ok b
  | none => .error (.fault (.unwrittenByte p))

/-- The byte at a logical address. -/
def Mach.readByte {sh : Shape} (m : Mach sh) (k : AccessKind) (a : Nat) : Res Byte :=
  match m.translate k a with
  | .ok p => m.physByte p
  | .error e => .error e

/-- The alignment rule: an access of `n` bytes at an address that is no multiple of `n` faults, is split, or either (R105). -/
def Mach.checkAlign {sh : Shape} (m : Mach sh) (a n : Nat) : Res Unit :=
  if a % n = 0 then .ok ()
  else match m.cfg.misaligned with
    | .fault => .error (.fault (.misaligned a))
    | .split => .ok ()
    | .any => if m.drawBool (.misaligned a) then .error (.fault (.misaligned a)) else .ok ()

/-- The results of `n` computations, the first that stops stopping all. -/
def collect {α : Type} (f : Nat → Res α) : Nat → Nat → Res (List α)
  | _, 0 => .ok []
  | k, n + 1 =>
    match f k with
    | .error e => .error e
    | .ok x =>
      match collect f (k + 1) n with
      | .error e => .error e
      | .ok xs => .ok (x :: xs)

/-- The `n` bytes from a logical address on. -/
def Mach.readBytes {sh : Shape} (m : Mach sh) (k : AccessKind) (a n : Nat) : Res (List Byte) :=
  collect (fun j => m.readByte k (wrapAddr sh (a + j))) 0 n

/-- `MemRead(addr, n)` (R104, 00_scope.md section 5.3). -/
def Mach.memRead {sh : Shape} (m : Mach sh) (k : AccessKind) (a n : Nat) : Res Nat :=
  match m.checkAlign a n with
  | .error e => .error e
  | .ok () =>
    match m.readBytes k a n with
    | .error e => .error e
    | .ok bs => .ok (ofBytes m.cfg.endian bs)

/-- A piece of data to be stored: `size` bytes at `addr`, made of accesses of `unit` bytes. -/
structure Chunk where
  addr : Nat
  unit : Nat
  size : Nat
  val : Nat
  deriving DecidableEq, Repr

/-- The logical addresses of the bytes of a chunk, lowest first, modulo `2^WLEN` (R100, R104). -/
def chunkPlaces (sh : Shape) (c : Chunk) : List Nat := (List.range c.size).map fun j => wrapAddr sh (c.addr + j)

/-- The bytes a chunk stores and where, with no address translated (R104, R107). -/
def plainCells (sh : Shape) (e : Endian) (c : Chunk) : List Host.Cell := (chunkPlaces sh c).zip (toBytes e c.size c.val)

/-- The memory addresses a list of stores writes to. -/
def storedAt (cells : List Host.Cell) : List Nat := cells.map (·.1)

/-- No two numbers of a list are equal. -/
def distinct : List Nat → Bool
  | [] => true
  | a :: as => as.all (fun b => !(a == b)) && distinct as

/-- A list in any order: `pick k` says where the entry that has `k` entries after it is put among those. -/
def shuffle {α : Type} (pick : Nat → Nat) : List α → List α
  | [] => []
  | x :: xs => (shuffle pick xs).insertIdx (pick xs.length % (xs.length + 1)) x

/-- A list cut into pieces: `cut k` says whether there is a cut after the entry that has `k` entries after it. -/
def pieces {α : Type} (cut : Nat → Bool) : List α → List (List α)
  | [] => []
  | x :: xs =>
    match pieces cut xs with
    | [] => [[x]]
    | p :: ps => if cut xs.length then [x] :: p :: ps else (x :: p) :: ps

/-- The memory events that store the chunk with number `k`, each the bytes it stores and their logical addresses (R106): one, for a
naturally aligned access of at most `WLEN` bits; one or any number for any other, and for `wide` traffic, a dump's or a vector
instruction's (U12; log entry 32). -/
def Mach.chunkEvents {sh : Shape} (m : Mach sh) (wide : Bool) (k : Nat) (c : Chunk) : List (List Host.Cell) :=
  let cells := plainCells sh m.cfg.endian c
  if !wide && c.size == c.unit && c.addr % c.unit == 0 && decide (8 * c.unit ≤ sh.W) then [cells]
  else pieces (fun j => m.drawBool (.storeSplit k j)) cells

/-- The events that store several chunks. -/
def Mach.storeEvents {sh : Shape} (m : Mach sh) (wide : Bool) : List Chunk → List (List Host.Cell)
  | [] => []
  | c :: cs => m.chunkEvents wide cs.length c ++ m.storeEvents wide cs

/-- The alignment rule for each of several chunks (R105). -/
def Mach.checkChunks {sh : Shape} (m : Mach sh) : List Chunk → Res Unit
  | [] => .ok ()
  | c :: cs =>
    match m.checkAlign c.addr c.unit with
    | .error e => .error e
    | .ok () => m.checkChunks cs

/-- The bytes of an event at their physical addresses, as memory translates them now (R108). -/
def Mach.translateCells {sh : Shape} (m : Mach sh) : List Host.Cell → Res (List Host.Cell)
  | [] => .ok []
  | c :: cs =>
    match m.translate .write c.1 with
    | .error e => .error e
    | .ok p =>
      match m.translateCells cs with
      | .error e => .error e
      | .ok xs => .ok ((p, c.2) :: xs)

/-- The bytes that the event with number `k` writes, in an arbitrary order where two of them fall on one physical byte (log entry
32). -/
def Mach.eventCells {sh : Shape} (m : Mach sh) (k : Nat) (event : List Host.Cell) : Res (List Host.Cell) :=
  match m.translateCells event with
  | .error e => .error e
  | .ok cells =>
    .ok (if distinct (storedAt cells) then cells else shuffle (fun j => m.draw (.storeOrder (k + 1) j)) cells)

/-- The bytes that several events write, in order, each translated over the memory that those before it have left: "`TRANSLATE`
reads the page table in memory at every access" (R109). -/
def Mach.storeCells {sh : Shape} (m : Mach sh) : List (List Host.Cell) → Res (List Host.Cell)
  | [] => .ok []
  | ev :: evs =>
    match m.eventCells evs.length ev with
    | .error e => .error e
    | .ok cells =>
      match ({ m with mem := Memory.setAll m.mem cells } : Mach sh).storeCells evs with
      | .error e => .error e
      | .ok rest => .ok (cells ++ rest)

/-- `MemWrite(addr, n, val)` of several chunks as the bytes they write and where, in the order they are written, worked out before any
is written (R104, R209): the events happen in any order (R106, U12, "in any order"; log entry 32). With paging off and no two bytes at
one address neither the order nor the split can show, and the list's own order stands for every other. -/
def Mach.cellsOf {sh : Shape} (m : Mach sh) (wide : Bool) (cs : List Chunk) : Res (List Host.Cell) :=
  match m.checkChunks cs with
  | .error e => .error e
  | .ok () =>
    let cells := cs.flatMap (plainCells sh m.cfg.endian)
    if !m.core.csr.pag && distinct (storedAt cells) then .ok cells
    else m.storeCells (shuffle (fun k => m.draw (.storeOrder 0 k)) (m.storeEvents wide cs))

end Sys2Proof.Machine
end

