-- ==== Sys2Proof/Machine/Flags.lean ====
section
/-! DEFINITION. Flags and lanes: the flag group as a byte (R49), generated flags laid over old ones, the mask rule of a lane
(R171, R172), the masked write (R173), the flag groups of VFLG after a vector instruction (R174, R175). -/

namespace Sys2Proof.Machine

open Sys2Proof

/-- All seven flags, in the order of R61. -/
def allFlags : List Flag := [.covr, .cund, .ovfl, .unfl, .div0, .zero, .sign]

/-- One flag of a flags section. -/
def flagOf (fs : Flags) : Flag → Bool
  | .covr => fs.covr
  | .cund => fs.cund
  | .ovfl => fs.ovfl
  | .unfl => fs.unfl
  | .div0 => fs.div0
  | .zero => fs.zero
  | .sign => fs.sign

/-- The flags section a function of the flag gives. -/
def flagsBy (f : Flag → Bool) : Flags where
  covr := f .covr
  cund := f .cund
  ovfl := f .ovfl
  unfl := f .unfl
  div0 := f .div0
  zero := f .zero
  sign := f .sign

/-- The flags after some are generated: a flag not generated keeps its value (R61; the `ISA` parameter says which are). -/
def mergeFlags (g : FlagGen) (old : Flags) : Flags :=
  flagsBy fun f => if flagOf g.which f then flagOf g.val f else flagOf old f

/-- The flags generated as 1. -/
def generatedFlags (g : FlagGen) : Flags :=
  flagsBy fun f => flagOf g.which f && flagOf g.val f

/-- The flags in either of two sets. -/
def unionFlags (a b : Flags) : Flags := flagsBy fun f => flagOf a f || flagOf b f

/-- A flag group as a number below 128: COVR in bit 0 up to SIGN in bit 6 (R49). -/
def flagsToNat (fs : Flags) : Nat :=
  fs.covr.toNat + 2 * fs.cund.toNat + 4 * fs.ovfl.toNat + 8 * fs.unfl.toNat + 16 * fs.div0.toNat +
    32 * fs.zero.toNat + 64 * fs.sign.toNat

/-- The flag group in the low bits of a number; bit 7 is ignored (R49, U7). -/
def flagsOfNat (n : Nat) : Flags where
  covr := n.testBit 0
  cund := n.testBit 1
  ovfl := n.testBit 2
  unfl := n.testBit 3
  div0 := n.testBit 4
  zero := n.testBit 5
  sign := n.testBit 6

/-- The number whose lane `k`, bits `8k` to `8k + 7`, is the byte `f k`, for the first `n` lanes (R33). -/
def lanesToNat (f : Nat → Nat) : Nat → Nat
  | 0 => 0
  | n + 1 => lanesToNat f n + f n % 256 * 256 ^ n

/-- `lane8(r, k)` of a number (R33). -/
def lane8 (r k : Nat) : Nat := r / 256 ^ k % 256

/-- The lane a smallest lane lies in, for lanes of `lb` bytes (R172). -/
def laneOf (lb k : Nat) : Nat := k / lb

/-- The bits of an `n`-bit VMSK that a free rule consults for lane `j`, of `lb` bytes: the lane's own bit for 8-bit lanes (R51),
any set for wider ones (R172). -/
def laneMaskBits (lb n j : Nat) : List Nat :=
  if lb = 1 then [j] else (List.range n).filter (Config.laneMaskSet (8 * lb) j)

/-- Whether lane `j`, of `lb` bytes, is masked: for 8-bit lanes bit `j` of VMSK (R51, R171), for wider ones by
`LANE_MASK_RULE` (R172). A bit at or above `NL8` is not consulted. Under a free rule a lane is masked if every bit consulted is
1, not masked if none is, and either way otherwise (log entry 16). -/
def laneMasked (rule : LaneMaskRule) {n : Nat} (vmsk : BitVec n) (lb j : Nat) : Bool :=
  match rule with
  | .lowest => vmsk.getLsbD (j * lb)
  | .any => (List.range lb).any fun o => vmsk.getLsbD (j * lb + o)
  | .all => (List.range lb).all fun o => vmsk.getLsbD (j * lb + o)
  | .free =>
    let bits := (laneMaskBits lb n j).map vmsk.getLsbD
    bits.any id && (bits.all id || Config.laneMaskMix (8 * lb) j bits)

/-- The masked write of R171 and R172: a masked lane keeps its old bytes (R173), another takes the result's. -/
def maskedWrite (rule : LaneMaskRule) {n : Nat} (vmsk : BitVec n) (lb : Nat) (old res : BitVec (8 * n)) : BitVec (8 * n) :=
  BitVec.ofNat _ (lanesToNat (fun k =>
    if laneMasked rule vmsk lb (laneOf lb k) then lane8 old.toNat k else lane8 res.toNat k) n)

/-- The lanes of `lb` bytes that write flag group `k`, of `n` (R174): for 8-bit lanes the group's own lane, for wider ones by
`LANE_FLAG_RULE`, which may give one group to several lanes. -/
def laneWriters (rule : LaneFlagRule) (lb n k : Nat) : List Nat :=
  if lb = 1 then [k]
  else match rule with
    | .lowest => if k % lb = 0 then [k / lb] else []
    | .all => [k / lb]
    | .free => (List.range n).filter fun j => decide (j * lb < n) && Config.laneFlagGroup (8 * lb) j k

/-- What lane `j` generates: nothing, where the instruction lists no flags for it, so that such a lane, if it is allowed, keeps
its group (DESIGN CHOICE, log entry 34: the spec says nothing of a lane outside the lanes a record reports; unsafe for a claim
about its group). -/
def laneGen (gens : List FlagGen) (j : Nat) : FlagGen := gens.getD j ⟨{}, {}⟩

/-- Flag group `k` after a vector instruction with flags: what the lanes that write it generate, laid over the old flags in the
order of the lanes; an arbitrary value where one of them is masked (R175) or where no lane writes it (R174). Both hold of lanes
the instruction lists no flags for, too (DESIGN CHOICE, log entry 34). -/
def Mach.newGroup {sh : Shape} (m : Mach sh) (lb : Nat) (gens : List FlagGen) (k : Nat) (old : Flags) : Flags :=
  let js := laneWriters m.cfg.laneFlag lb sh.nl8 k
  if !js.isEmpty && js.all (fun j => !laneMasked m.cfg.laneMask m.core.vmsk lb j) then
    js.foldl (fun fs j => mergeFlags (laneGen gens j) fs) old
  else flagsOfNat (m.draw (.laneGroup k))

/-- VFLG after a vector instruction with flags (R174, R175). -/
def Mach.newVflg {sh : Shape} (m : Mach sh) (lb : Nat) (gens : List FlagGen) (old : Vector Flags sh.nl8) :
    Vector Flags sh.nl8 :=
  Vector.ofFn fun k : Fin sh.nl8 => m.newGroup lb gens k.val old[k]

/-- The flags lane `j` generates as 1 that count toward an event: a masked lane may or may not count (R175). -/
def Mach.laneCounted {sh : Shape} (m : Mach sh) (lb : Nat) (gens : List FlagGen) (j : Nat) : Flags :=
  flagsBy fun f => flagOf (generatedFlags (laneGen gens j)) f &&
    (!laneMasked m.cfg.laneMask m.core.vmsk lb j || m.drawBool (.laneTrap j))

/-- The flags some lane generates as 1 (R224). -/
def Mach.lanesCounted {sh : Shape} (m : Mach sh) (lb : Nat) (gens : List FlagGen) : Flags :=
  (List.range sh.nl8).foldl
    (fun acc k => if k % lb = 0 then unionFlags acc (m.laneCounted lb gens (laneOf lb k)) else acc) {}

end Sys2Proof.Machine
end

