-- ==== Sys2Proof/Machine/Registers.lean ====
section
/-! DEFINITION. Reading and writing registers: the slots of FILE 2 (R37), the CSR image (R85), moves between widths (R38), the
unused bits (R45, R50, R69), privilege marks (R39, R86) and the file usage bits (R57, R58). -/

namespace Sys2Proof.Machine

open Sys2Proof

/-- The registers of FILE 2 (R37). -/
inductive Slot where
  | vr (n : Fin 4)
  | br (n : Fin 6)
  | bm
  | pc
  | ueb0
  | ueb1
  | vflg
  | vmsk
  | smsk
  | uetp
  | fu0
  | fu1
  | fu2
  | pid
  | csr
  | seb0
  | seb1
  | setp
  | ptp
  | kr (n : Fin 4)
  deriving DecidableEq, Repr

/-- The register at each number of FILE 2; slot `%17` is empty (R37, R53). -/
def slotAt (i : Fin 32) : Option Slot :=
  match i.val with
  | 0 => some (.vr 0)
  | 1 => some (.vr 1)
  | 2 => some (.vr 2)
  | 3 => some (.vr 3)
  | 4 => some (.br 0)
  | 5 => some (.br 1)
  | 6 => some (.br 2)
  | 7 => some (.br 3)
  | 8 => some (.br 4)
  | 9 => some (.br 5)
  | 10 => some .bm
  | 11 => some .pc
  | 12 => some .ueb0
  | 13 => some .ueb1
  | 14 => some .vflg
  | 15 => some .vmsk
  | 16 => some .smsk
  | 18 => some .uetp
  | 19 => some .fu0
  | 20 => some .fu1
  | 21 => some .fu2
  | 22 => some .pid
  | 23 => some .csr
  | 24 => some .seb0
  | 25 => some .seb1
  | 26 => some .setp
  | 27 => some .ptp
  | 28 => some (.kr 0)
  | 29 => some (.kr 1)
  | 30 => some (.kr 2)
  | 31 => some (.kr 3)
  | _ => none

/-- The slots marked `*`: `%19` to `%31` (R39). -/
def starred (i : Fin 32) : Bool := decide (19 ≤ i.val)

/-- The CSR's fields in the order of R85. -/
def csrFields : List CsrField :=
  [.covr, .cund, .ovfl, .unfl, .div0, .zero, .sign, .len, .vlen, .imod, .rmd, .trd, .sup, .boot, .con, .pag, .exc, .uint,
   .sint, .evt, .hlt]

/-- The width of a field (R62 to R83). -/
def csrFieldWidth : CsrField → Nat
  | .len => 2
  | .vlen => 6
  | .imod => 3
  | .rmd => 2
  | .trd => 8
  | _ => 1

/-- Where the layout puts a field (R85). -/
def csrFieldLow (l : CsrLayout) : CsrField → Nat
  | .covr => l.covr
  | .cund => l.cund
  | .ovfl => l.ovfl
  | .unfl => l.unfl
  | .div0 => l.div0
  | .zero => l.zero
  | .sign => l.sign
  | .len => l.len
  | .vlen => l.vlen
  | .imod => l.imod
  | .rmd => l.rmd
  | .trd => l.trd
  | .sup => l.sup
  | .boot => l.boot
  | .con => l.con
  | .pag => l.pag
  | .exc => l.exc
  | .uint => l.uint
  | .sint => l.sint
  | .evt => l.evt
  | .hlt => l.hlt

/-- A field's content as a number. -/
def csrFieldVal (c : Csr) : CsrField → Nat
  | .covr => c.flags.covr.toNat
  | .cund => c.flags.cund.toNat
  | .ovfl => c.flags.ovfl.toNat
  | .unfl => c.flags.unfl.toNat
  | .div0 => c.flags.div0.toNat
  | .zero => c.flags.zero.toNat
  | .sign => c.flags.sign.toNat
  | .len => c.len.toNat
  | .vlen => c.vlen.toNat
  | .imod => c.imod.toNat
  | .rmd => c.rmd.toNat
  | .trd => c.trd.toNat
  | .sup => c.sup.toNat
  | .boot => c.boot.toNat
  | .con => c.con.toNat
  | .pag => c.pag.toNat
  | .exc => c.exc.toNat
  | .uint => c.uint.toNat
  | .sint => c.sint.toNat
  | .evt => c.evt.toNat
  | .hlt => c.hlt.toNat

/-- `CSR_LAYOUT` is legal: every field inside `CSR_BITS`, no two overlapping (R5, "injective map"). -/
def csrLayoutWf (l : CsrLayout) (bits : Nat) : Bool :=
  csrFields.all (fun f => decide (csrFieldLow l f + csrFieldWidth f ≤ bits)) &&
  csrFields.all (fun f => csrFields.all fun g =>
    f == g || decide (csrFieldLow l f + csrFieldWidth f ≤ csrFieldLow l g) ||
      decide (csrFieldLow l g + csrFieldWidth g ≤ csrFieldLow l f))

/-- The CSR image, its unused bits 0 (R85; log entry 14). -/
def csrImage (l : CsrLayout) (c : Csr) : Nat :=
  csrFields.foldl (fun acc f => acc ||| csrFieldVal c f <<< csrFieldLow l f) 0

/-- The bits of the image that belong to a field. -/
def csrFieldMask (l : CsrLayout) : Nat :=
  csrFields.foldl (fun acc f => acc ||| (2 ^ csrFieldWidth f - 1) <<< csrFieldLow l f) 0

/-- The CSR an image holds; its unused bits are ignored (R69, R84). -/
def csrOfImage (l : CsrLayout) (n : Nat) : Csr where
  flags := {
    covr := n.testBit l.covr
    cund := n.testBit l.cund
    ovfl := n.testBit l.ovfl
    unfl := n.testBit l.unfl
    div0 := n.testBit l.div0
    zero := n.testBit l.zero
    sign := n.testBit l.sign }
  len := BitVec.ofNat 2 (n >>> l.len)
  vlen := BitVec.ofNat 6 (n >>> l.vlen)
  imod := BitVec.ofNat 3 (n >>> l.imod)
  rmd := BitVec.ofNat 2 (n >>> l.rmd)
  trd := BitVec.ofNat 8 (n >>> l.trd)
  sup := n.testBit l.sup
  boot := n.testBit l.boot
  con := n.testBit l.con
  pag := n.testBit l.pag
  exc := n.testBit l.exc
  uint := n.testBit l.uint
  sint := n.testBit l.sint
  evt := n.testBit l.evt
  hlt := n.testBit l.hlt

/-- Two CSRs agree in the seven starred fields (R86). -/
def sameStarred (a b : Csr) : Bool :=
  a.sup == b.sup && a.boot == b.boot && a.con == b.con && a.pag == b.pag && a.uint == b.uint && a.evt == b.evt &&
    a.hlt == b.hlt

/-- The bits of `d` where `mask` has none, below `2^n`: what unused bits read as (R45, R50, R69). -/
def unusedPart (n mask d : Nat) : Nat := d % 2 ^ n &&& (2 ^ n - 1 - mask % 2 ^ n)

/-- FU2 as a read delivers it: a bit of which it is open whether a write by the hardware has set it reads as `d` has it, if it is
not 1 already (R57, R58, U17). -/
def Core.fu2Read {sh : Shape} (c : Core sh) (d : Nat) : BitVec 32 :=
  if c.fuOpen = 0#32 then c.fu2 else c.fu2 ||| (BitVec.ofNat 32 d &&& c.fuOpen)

/-- The content of a FILE 2 register, where `d` supplies its unused bits (R37, D36) and the open bits of FU2. -/
def slotContent {sh : Shape} (l : CsrLayout) (c : Core sh) (d : Nat) : Slot → Nat
  | .vr n => c.vr[n].toNat
  | .br n => c.br[n].toNat
  | .bm => c.bm.toNat ||| unusedPart 32 (2 ^ 30 - 1) d
  | .pc => c.pc.toNat
  | .ueb0 => c.ueb0.toNat
  | .ueb1 => c.ueb1.toNat
  | .vflg => lanesToNat (fun k => (c.vflg.toList[k]?.map flagsToNat).getD 0) sh.nl8 |||
      unusedPart sh.vbits (lanesToNat (fun _ => 127) sh.nl8) d
  | .vmsk => c.vmsk.toNat ||| unusedPart sh.vmskBits (2 ^ sh.nl8 - 1) d
  | .smsk => c.smsk.toNat
  | .uetp => c.uetp.toNat
  | .fu0 => c.fu0.toNat
  | .fu1 => c.fu1.toNat
  | .fu2 => (c.fu2Read d).toNat
  | .pid => c.pid.toNat
  | .csr => csrImage l c.csr ||| unusedPart sh.csrBits (csrFieldMask l) d
  | .seb0 => c.seb0.toNat
  | .seb1 => c.seb1.toNat
  | .setp => c.setp.toNat
  | .ptp => c.ptp.toNat
  | .kr n => c.kr[n].toNat

/-- The flag groups a value for VFLG holds. -/
def vflgOfNat (n v : Nat) : Vector Flags n := Vector.ofFn fun k : Fin n => flagsOfNat (lane8 v k.val)

/-- A FILE 2 register takes a value, truncated to its width (R38); its unused bits are ignored (D36). PC takes none (R189), and
FU2 has no open bit after a write (R58). -/
def writeSlot {sh : Shape} (l : CsrLayout) (c : Core sh) (v : Nat) : Slot → Core sh
  | .vr n => { c with vr := c.vr.set n (BitVec.ofNat _ v) }
  | .br n => { c with br := c.br.set n (BitVec.ofNat _ v) }
  | .bm => { c with bm := BitVec.ofNat 30 v }
  | .pc => c
  | .ueb0 => { c with ueb0 := BitVec.ofNat _ v }
  | .ueb1 => { c with ueb1 := BitVec.ofNat _ v }
  | .vflg => { c with vflg := vflgOfNat sh.nl8 v }
  | .vmsk => { c with vmsk := BitVec.ofNat _ v }
  | .smsk => { c with smsk := BitVec.ofNat _ v }
  | .uetp => { c with uetp := BitVec.ofNat _ v }
  | .fu0 => { c with fu0 := BitVec.ofNat 32 v }
  | .fu1 => { c with fu1 := BitVec.ofNat 32 v }
  | .fu2 => { c with fu2 := BitVec.ofNat 32 v, fuOpen := 0#32 }
  | .pid => { c with pid := BitVec.ofNat 32 v }
  | .csr => { c with csr := csrOfImage l (v % 2 ^ sh.csrBits) }
  | .seb0 => { c with seb0 := BitVec.ofNat _ v }
  | .seb1 => { c with seb1 := BitVec.ofNat _ v }
  | .setp => { c with setp := BitVec.ofNat _ v }
  | .ptp => { c with ptp := BitVec.ofNat _ v }
  | .kr n => { c with kr := c.kr.set n (BitVec.ofNat _ v) }

/-- The bit of a file usage register that stands for register `i` (R56). -/
def usageBit (i : Nat) : BitVec 32 := 1#32 <<< i

/-- The slot a write of the hardware's own falls on (R57). -/
def hwSlot : HwWrite → Nat
  | .pcNext => 11
  | .pcReturn => 11
  | .pcEvent => 11
  | .ueb0 => 12
  | .ueb1 => 13
  | .vflg => 14
  | .fu0 => 19
  | .fu1 => 20
  | .fu2 => 21
  | .pid => 22
  | .csrFlags => 23
  | .csrReturn => 23
  | .csrEvent => 23
  | .csrWake => 23
  | .seb0 => 24
  | .seb1 => 25

/-- The bits where a condition holds. -/
def bitsIf (b : Bool) (u : BitVec 32) : BitVec 32 := if b then u else 0#32

/-- The bits of FU2 that a write of the hardware's own sets under `FU_IMPLICIT`: that of its slot, and then, as FU2 itself is
written by that, FU2's own (R57). -/
def hwSets (cfg : Params) (k : HwWrite) : BitVec 32 :=
  bitsIf (cfg.fuSet.contains k) (usageBit (hwSlot k) ||| bitsIf (cfg.fuSet.contains .fu2) (usageBit 21))

/-- The bits of FU2 of which it is open whether that write sets them (R57, U17): that of its slot, if the write is one of those
left open, and FU2's own, if either is open. -/
def hwOpens (cfg : Params) (k : HwWrite) : BitVec 32 :=
  bitsIf (cfg.fuFree.contains k)
    (usageBit (hwSlot k) ||| bitsIf (cfg.fuSet.contains .fu2 || cfg.fuFree.contains .fu2) (usageBit 21)) |||
  bitsIf (cfg.fuSet.contains k && cfg.fuFree.contains .fu2) (usageBit 21)

/-- The bits of FU2 that several such writes set. -/
def implicitSet (cfg : Params) (ks : List HwWrite) : BitVec 32 := ks.foldl (fun acc k => acc ||| hwSets cfg k) 0#32

/-- The bits of FU2 that several such writes leave open. -/
def implicitOpen (cfg : Params) (ks : List HwWrite) : BitVec 32 := ks.foldl (fun acc k => acc ||| hwOpens cfg k) 0#32

/-- The hardware has made these writes by itself (R57, `FU_IMPLICIT`). -/
def Core.markImplicit {sh : Shape} (c : Core sh) (cfg : Params) (ks : List HwWrite) : Core sh :=
  { c with fu2 := c.fu2 ||| implicitSet cfg ks, fuOpen := c.fuOpen ||| implicitOpen cfg ks }

/-- The file usage bit of an explicit write to slot `i`: always set (R57), which is itself a write of FU2 by the hardware; but
FU0, FU1, FU2 store what is written, and their own bit is an implicit one (R58). -/
def Core.markWritten {sh : Shape} (c : Core sh) (cfg : Params) (i : Fin 32) : Core sh :=
  match i.val with
  | 19 => c.markImplicit cfg [.fu0]
  | 20 => c.markImplicit cfg [.fu1]
  | 21 => c.markImplicit cfg [.fu2]
  | k => { c with fu2 := c.fu2 ||| usageBit k }.markImplicit cfg [.fu2]

/-- `RegWrite(f, i, val)` in files 0 and 2, after its privilege check (00_scope.md section 5.3; R26, R38, R57). The bit set in
FU0 is a write of FU0 by the hardware. -/
def Core.regWrite {sh : Shape} (cfg : Params) (c : Core sh) (d : Dest) (v : Nat) : Core sh :=
  match d with
  | .x i => { c with x := c.x.set i (BitVec.ofNat _ v), fu0 := c.fu0 ||| usageBit i.val }.markImplicit cfg [.fu0]
  | .sr i =>
    match slotAt i with
    | none => c
    | some s => (writeSlot cfg.csrLayout c v s).markWritten cfg i

/-- Several explicit writes, in the order of the record's list: of two writes of one register the later one stays, and a write
of FU0, FU1 or FU2 also replaces the usage bits that earlier writes of the list set and keeps those of later ones (DESIGN CHOICE,
log entry 31: R9 and R57 give no order; unsafe for a claim about a record whose writes meet). -/
def Core.regWrites {sh : Shape} (cfg : Params) (c : Core sh) (ws : List (Dest × Nat)) : Core sh :=
  ws.foldl (fun c w => c.regWrite cfg w.1 w.2) c

/-- The content of FILE 2 register `i` as the use with number `use` reads it; slot `%17` is refused before (R53, R186). -/
def Mach.readSr {sh : Shape} (m : Mach sh) (use : Nat) (i : Fin 32) : Nat :=
  match slotAt i with
  | none => 0
  | some s => slotContent m.cfg.csrLayout m.core (m.draw (.unusedBits use i)) s

/-- The content of any register, zero-extended (00_scope.md section 5.3, `RegRead`). -/
def Mach.readReg {sh : Shape} (m : Mach sh) (use : Nat) (r : Reg) : Nat :=
  match r.file with
  | .f0 => m.core.x[r.idx].toNat
  | .f1 => m.core.v[r.idx].toNat
  | .f2 => m.readSr use r.idx

end Sys2Proof.Machine
end

