-- ==== Sys2Proof/Machine/Operands.lean ====
section
/-! DEFINITION. Operands: which registers an instruction names as sources (R140), the value of each operand form, and the data
an instruction reads (R9, `rreads`, `dreads`). -/

namespace Sys2Proof.Machine

open Sys2Proof

/-- The registers an operand names (R140). -/
def operandReads : Operand → List Reg
  | .const _ => []
  | .x i => [⟨.f0, i⟩]
  | .sr i => [⟨.f2, i⟩]
  | .loaded _ => []
  | .isa _ rs => rs

/-- The registers a vector source names. -/
def vsrcReads : VSrc → List Reg
  | .const _ => []
  | .v i => [⟨.f1, i⟩]
  | .isa _ rs => rs

/-- The registers a flag source names. -/
def flagSrcReads : FlagSrc → List Reg
  | .fixed _ => []
  | .isa _ rs => rs

/-- The registers a source of lane flags names. -/
def laneFlagSrcReads : LaneFlagSrc → List Reg
  | .fixed _ => []
  | .isa _ rs => rs

/-- The registers a special operation names. -/
def specialReads : Special → List Reg
  | .none => []
  | .eventReturn => []
  | .stateDump a => operandReads a
  | .stateRestore a => operandReads a
  | .setVmsk v => operandReads v

/-- Every register a record names as a source: those it lists, and those of its operands (R140). -/
def recordReads (r : Record) : List Reg :=
  r.reads ++ r.writes.flatMap (fun p => operandReads p.2) ++ r.vwrites.flatMap (fun v => vsrcReads v.res) ++
  r.dreads.flatMap (fun d => operandReads d.addr) ++
  r.dwrites.flatMap (fun d => operandReads d.addr ++ operandReads d.val) ++
  (match r.sflags with | none => [] | some s => flagSrcReads s) ++
  (match r.vflags with | none => [] | some f => laneFlagSrcReads f.src) ++
  (match r.next with | none => [] | some o => operandReads o) ++
  specialReads r.special

/-- A vector instruction: it names a register of FILE 1, as a source or a destination, or writes lane flags (R170). That this makes its
data accesses the "vector access" of R106 and U12 is the model's reading: DESIGN CHOICE, log entry 32. -/
def isVector (r : Record) : Bool :=
  (recordReads r).any (fun g => g.file == .f1) || !r.vwrites.isEmpty || r.vflags.isSome

/-- Each access of the instruction may be several memory events, an aligned one too: a dump's, or a vector instruction's (R106, U12). -/
def maySplit (r : Record) : Bool := r.special != .none || isVector r

/-- The number of each use of a value in one step, so that each draws its own arbitrary bits (00_scope.md section 5.3). -/
def useBody : Nat := 0
/-- The registers a dump reads. -/
def useDump : Nat := 8
/-- The operand of a special operation. -/
def useSpecial : Nat := 16
/-- The next pc. -/
def useNext : Nat := 24
/-- The scalar flags. -/
def useFlags : Nat := 32
/-- The flags of the lanes. -/
def useLaneFlags : Nat := 40
/-- The `k`-th vector result. -/
def useVector (k : Nat) : Nat := 8 * k + 1
/-- The address of the `k`-th data read. -/
def useRead (k : Nat) : Nat := 8 * k + 2
/-- The address of the `k`-th data write. -/
def useStoreAddr (k : Nat) : Nat := 8 * k + 3
/-- The value of the `k`-th data write. -/
def useStoreVal (k : Nat) : Nat := 8 * k + 4
/-- The value of the `k`-th explicit register write. -/
def useWrite (k : Nat) : Nat := 8 * k + 5

/-- The configuration and the cores, without the model's own fields. -/
def Mach.cores {sh : Shape} (m : Mach sh) : Cores sh := ⟨m.cfg, m.coreId, m.core, m.parked⟩

/-- The configuration and the current state, without the model's own fields. -/
def Mach.now {sh : Shape} (m : Mach sh) : Now sh := { m.cores with mem := m.mem }

/-- What a computation of the `ISA` parameter sees (R9, R140; log entry 19). -/
def Mach.view {sh : Shape} (m : Mach sh) (use : Nat) (rs : List Reg) (loaded : List Nat) : IsaView sh where
  toCores := m.cores
  reads := rs.map (m.readReg use)
  loaded := loaded

/-- The value of an operand, zero-extended (R38), at the use with number `use`. -/
def Mach.operand {sh : Shape} (m : Mach sh) (use : Nat) (loaded : List Nat) : Operand → Nat
  | .const v => v
  | .x i => m.core.x[i].toNat
  | .sr i => m.readSr use i
  | .loaded k => loaded.getD k 0
  | .isa id rs => Config.isaValue id (m.view use rs loaded)

/-- An operand as a logical address (R46, R100). -/
def Mach.address {sh : Shape} (m : Mach sh) (use : Nat) (loaded : List Nat) (o : Operand) : Nat :=
  wrapAddr sh (m.operand use loaded o)

/-- The value of a vector source. -/
def Mach.vsource {sh : Shape} (m : Mach sh) (use : Nat) (loaded : List Nat) : VSrc → BitVec sh.vbits
  | .const v => BitVec.ofNat _ v
  | .v i => m.core.v[i]
  | .isa id rs => BitVec.ofNat _ (Config.isaVector id (m.view use rs loaded))

/-- The scalar flags an instruction generates. -/
def Mach.flagGen {sh : Shape} (m : Mach sh) (use : Nat) (loaded : List Nat) : FlagSrc → FlagGen
  | .fixed g => g
  | .isa id rs => Config.isaFlags id (m.view use rs loaded)

/-- The flags the lanes generate. -/
def Mach.laneGens {sh : Shape} (m : Mach sh) (use : Nat) (loaded : List Nat) : LaneFlagSrc → List FlagGen
  | .fixed gs => gs
  | .isa id rs => Config.isaLaneFlags id (m.view use rs loaded)

/-- One data access, as the breakpoint check sees it: its logical address and its width in bits (R222). -/
structure Access where
  addr : Nat
  bits : Nat
  write : Bool
  deriving DecidableEq, Repr

/-- The data reads of a record, in order, each with the values of the earlier ones: what they deliver and where they were. -/
def Mach.loadAll {sh : Shape} (m : Mach sh) : List DRead → List Nat → Res (List Nat × List Access)
  | [], loaded => .ok (loaded, [])
  | r :: rs, loaded =>
    let a := m.address (useRead loaded.length) loaded r.addr
    match m.memRead .read a r.size.bytes with
    | .error e => .error e
    | .ok v =>
      match m.loadAll rs (loaded ++ [v]) with
      | .error e => .error e
      | .ok (vs, accs) => .ok (vs, ⟨a, r.size.bits, false⟩ :: accs)

/-- What the data reads of a record would deliver, in order, after what earlier ones have: an arbitrary value for one that would
fault. For checks that stand before the reads themselves (R240 step 5) and for the `ISA` parameter's answer (R9). -/
def Mach.peek {sh : Shape} (m : Mach sh) : List DRead → List Nat → List Nat
  | [], loaded => loaded
  | r :: rs, loaded =>
    let v := match m.memRead .read (m.address (useRead loaded.length) loaded r.addr) r.size.bytes with
      | .ok v => v
      | .error _ => m.draw (.unread loaded.length) % 2 ^ r.size.bits
    m.peek rs (loaded ++ [v])

/-- What the `ISA` parameter answers, with every data read it has made on the way to it: after the reads `ds` it makes at most `n`
more, each chosen by what those before it delivered. Its answer is so the same over any two memories that the reads listed cannot tell
apart, as R140 has it. -/
def Mach.ask {sh : Shape} {α : Type} (m : Mach sh) (isa : IsaView sh → IsaAsk α) (rs : List Reg) : Nat → List DRead → Option (α × List DRead)
  | n, ds =>
    match isa (m.view useBody rs (m.peek ds [])) with
    | .answer a => some (a, ds)
    | .read d =>
      match n with
      | 0 => none
      | n + 1 => m.ask isa rs n (ds ++ [d])

/-- The record of a body, or none where the `ISA` parameter answers `illegal` (R9, R136). One the parameter answers names the
registers the body names, and makes the data reads the answer came from before whatever others it lists (R140). -/
def Mach.record {sh : Shape} (m : Mach sh) : Body → Option Record
  | .fixed r => some r
  | .isa id rs ds =>
    match m.ask (Config.isaRecord id) rs (Config.isaRecordReads id (m.view useBody rs [])) ds with
    | some (some r, ds) => some { r with reads := rs ++ r.reads, dreads := ds ++ r.dreads }
    | _ => none

/-- The data a record writes, as chunks of one access each; `k` numbers them. -/
def Mach.storeChunks {sh : Shape} (m : Mach sh) (loaded : List Nat) : Nat → List DWrite → List Chunk
  | _, [] => []
  | k, d :: ds =>
    ⟨m.address (useStoreAddr k) loaded d.addr, d.size.bytes, d.size.bytes, m.operand (useStoreVal k) loaded d.val⟩ ::
      m.storeChunks loaded (k + 1) ds

/-- The explicit register writes of a record with their values; `k` numbers them. -/
def Mach.writeVals {sh : Shape} (m : Mach sh) (loaded : List Nat) : Nat → List (Dest × Operand) → List (Dest × Nat)
  | _, [] => []
  | k, (d, o) :: ws => (d, m.operand (useWrite k) loaded o) :: m.writeVals loaded (k + 1) ws

/-- The vector writes of a record with their results; `k` numbers them. -/
def Mach.vwriteVals {sh : Shape} (m : Mach sh) (loaded : List Nat) : Nat → List VWrite → List (Fin 32 × Nat × BitVec sh.vbits)
  | _, [] => []
  | k, v :: vs => (v.d, v.laneBytes, m.vsource (useVector k) loaded v.res) :: m.vwriteVals loaded (k + 1) vs

/-- The accesses that store a chunk. -/
def chunkAccesses (sh : Shape) (c : Chunk) : List Access :=
  (List.range (c.size / c.unit)).map fun k => ⟨wrapAddr sh (c.addr + k * c.unit), 8 * c.unit, true⟩

end Sys2Proof.Machine
end

