-- ==== Sys2Proof/Machine/Ops.lean ====
section
/-! DEFINITION. The shared operations of the event machinery: breakpoint matching (R220 to R226), privilege (R230 to R232), taking
an event (R204 to R208) and returning from one (R181, R182), the environment's part of a step (R6, R234 to R238). -/

namespace Sys2Proof.Machine

open Sys2Proof

/-- The 5-bit mode code of breakpoint register `n` (R43). -/
def brkCode (bm : BitVec 30) (n : Fin 6) : Nat := bm.toNat / 32 ^ n.val % 32

/-- The mode a code stands for; codes 19 to 31 are reserved (R44, R45). -/
def brkModeOf : Nat → Option BrkMode
  | 0 => some .disabled
  | 1 => some .instrAddr
  | 2 => some (.dataRead .b8)
  | 3 => some (.dataRead .b16)
  | 4 => some (.dataRead .b32)
  | 5 => some (.dataRead .b64)
  | 6 => some (.dataWrite .b8)
  | 7 => some (.dataWrite .b16)
  | 8 => some (.dataWrite .b32)
  | 9 => some (.dataWrite .b64)
  | 10 => some (.flag .covr)
  | 11 => some (.flag .cund)
  | 12 => some (.flag .ovfl)
  | 13 => some (.flag .unfl)
  | 14 => some (.flag .div0)
  | 15 => some (.instrWord .l16)
  | 16 => some (.instrWord .l32)
  | 17 => some (.instrWord .l48)
  | 18 => some (.instrWord .l64)
  | _ => none

/-- Mode 17 or 18 on a 32 bit machine (R225). -/
def modeTooWide (sh : Shape) (md : Option BrkMode) : Bool :=
  match md with
  | some (.instrWord l) => decide (sh.W < l.bits)
  | _ => false

/-- The breakpoint check refuses a reserved mode code (R45) and a pattern mode wider than the registers (R225). -/
def Core.checkModes {sh : Shape} (c : Core sh) : Res Unit :=
  let modes := (List.finRange 6).map fun n => brkModeOf (brkCode c.bm n)
  if modes.any (· == none) then .error (.refuse .reservedBreakpointMode)
  else if modes.any (modeTooWide sh) then .error (.refuse .breakpointModeTooWide)
  else .ok ()

/-- Whether a breakpoint register with mode `md` and content `br` matches, of an instruction with word `w` that makes the
accesses `accs` and generates the flags `gens` as 1: R221 to R225. -/
def brkMatch {sh : Shape} (c : Core sh) (w : IWord) (accs : List Access) (gens : Flags) (md : BrkMode) (br : BitVec sh.W) :
    Bool :=
  match md with
  | .disabled => false
  | .instrAddr => br == c.pc
  | .dataRead s => accs.any fun a => !a.write && a.bits == s.bits && a.addr == br.toNat
  | .dataWrite s => accs.any fun a => a.write && a.bits == s.bits && a.addr == br.toNat
  | .flag f => flagOf gens f
  | .instrWord l => w.len == l && w.bits.toNat % 2 ^ l.bits == br.toNat % 2 ^ l.bits

/-- When the event of a mode is taken (R5, `BRK_TIMING`). -/
def brkWhen (t : BrkTiming) : BrkMode → When
  | .disabled => .after
  | .instrAddr => t.instrAddr
  | .dataRead _ => t.data
  | .dataWrite _ => t.data
  | .flag _ => t.flag
  | .instrWord _ => t.instrWord

/-- The pairs of register and mode that match, among the modes `sel` selects (R220, R226). BM and BR are read as they are at
the start of the step. -/
def Core.brkHits {sh : Shape} (c : Core sh) (sel : BrkMode → Bool) (w : IWord) (accs : List Access) (gens : Flags) :
    List (Fin 6 × BrkMode) :=
  (List.finRange 6).filterMap fun n =>
    match brkModeOf (brkCode c.bm n) with
    | none => none
    | some md => if sel md && brkMatch c w accs gens md c.br[n] then some (n, md) else none

/-- The modes checked before the fetch (R240 step 2): instruction address, if its event is taken before. -/
def selFetch (t : BrkTiming) (md : BrkMode) : Bool := md == .instrAddr && brkWhen t md == .before

/-- The modes whose event is taken before the instruction (R240 steps 2 and 4; data and flag modes under a `BRK_TIMING` other
than the reference). -/
def selBefore (t : BrkTiming) (md : BrkMode) : Bool := brkWhen t md == .before

/-- Those of them that are known once the instruction word is (R240 steps 2 and 4): address and pattern modes. -/
def selEarly (t : BrkTiming) (md : BrkMode) : Bool :=
  match md with
  | .instrAddr => selBefore t md
  | .instrWord _ => selBefore t md
  | _ => false

/-- The modes whose event is taken after the instruction (R240 step 8). -/
def selAfter (t : BrkTiming) (md : BrkMode) : Bool := brkWhen t md == .after

/-- Slot `%17` is named as a source or a destination (R53, R240 step 5). -/
def namesEmptySlot (reads : List Reg) (dests : List Dest) : Bool :=
  reads.any (fun r => r.file == .f2 && r.idx == 17) || dests.any (· == .sr 17)

/-- PC is named as a destination (R189, R240 step 5). -/
def writesPc (dests : List Dest) : Bool := dests.any (· == .sr 11)

/-- A starred register is named as a source, the CSR as a whole among them, or as a destination other than the CSR (R232). -/
def touchesStarred (reads : List Reg) (dests : List Dest) : Bool :=
  reads.any (fun r => r.file == .f2 && starred r.idx) ||
  dests.any (fun d => match d with | .sr i => starred i && i != 23 | .x _ => false)

/-- A dump or a restore, which needs supervisor mode (R183, R184). -/
def needsSupervisor : Special → Bool
  | .stateDump _ => true
  | .stateRestore _ => true
  | _ => false

/-- The values an instruction would write to the CSR change a starred field (R86, R232). -/
def changesStarred (l : CsrLayout) (bits : Nat) (c : Csr) (ws : List (Dest × Nat)) : Bool :=
  ws.any fun w => match w.1 with
    | .sr i => i == 23 && !sameStarred (csrOfImage l (w.2 % 2 ^ bits)) c
    | .x _ => false

/-- `EVENT_CLASS` (R202): an interrupt by its kind (R234), any other event by the parameter; the reference instantiation takes
a privilege violation to the supervisor and the rest to the mode the core is in (95_test_vectors.md section 0.2), the ZERO and SIGN
exceptions too, for which its table has no row (DESIGN CHOICE, log entry 22). -/
def Mach.classOf {sh : Shape} (m : Mach sh) (e : Event) : EventClass :=
  match e with
  | .interrupt ⟨_, .user⟩ => .user
  | .interrupt _ => .supervisor
  | _ =>
    match m.cfg.eventClass with
    | .free => Config.eventClass e m.now
    | .reference =>
      match e with
      | .privilegeViolation => .supervisor
      | _ => if m.core.csr.sup then .supervisor else .user

/-- The event numbers of the reference `EVENT_VECTOR` (95_test_vectors.md section 0.2). -/
def eventNumber : Event → Nat
  | .breakpoint _ => 0
  | .flagException .div0 => 1
  | .privilegeViolation => 2
  | .flagException .covr => 5
  | .flagException .cund => 6
  | .flagException .ovfl => 7
  | .flagException .unfl => 8
  | .flagException f => Config.flagEventNumber f
  | .interrupt i => 16 + i.id

/-- A read the processor itself makes (R117): `MemRead`, translated with paging on, but under `SUP = 1`, since it is not subject to
the privilege of the interrupted code, and no data access to a breakpoint (R222). DESIGN CHOICE, log entry 11. -/
def Mach.ownRead {sh : Shape} (m : Mach sh) (a n : Nat) : Res Nat :=
  ({ m with core := { m.core with csr := { m.core.csr with sup := true } } } : Mach sh).memRead .read a n

/-- `EVENT_VECTOR` (R205): the reference instantiation reads the handler's address from the table. -/
def Mach.handler {sh : Shape} (m : Mach sh) (table : BitVec sh.W) (e : Event) : Res (BitVec sh.W) :=
  match m.cfg.eventVector with
  | .free =>
    match Config.eventVector m.cfg m.core table.toNat e m.mem with
    | .ok a => .ok (BitVec.ofNat _ a)
    | .error f => .error (.fault f)
  | .reference =>
    match m.ownRead (wrapAddr sh (table.toNat + eventNumber e * sh.wlen.bytes)) sh.wlen.bytes with
    | .ok v => .ok (BitVec.ofNat _ v)
    | .error s => .error s

/-- `EVENT_SAVED_PC` (R207): the reference instantiation saves the causing instruction's address for an event raised before
its effects and `next_pc` for one raised after; where an open choice asks for a `next_pc` that is not known, a free value. -/
def Mach.savedPc {sh : Shape} (m : Mach sh) (e : Event) (cause : BitVec sh.W) (next : Option (BitVec sh.W)) (after : Bool) :
    BitVec sh.W :=
  let want := match m.cfg.eventSavedPc with
    | .free => Config.eventSavedPc e
    | .reference => if after then .nextInstr else .thisInstr
  match want, next with
  | .thisInstr, _ => cause
  | .nextInstr, some n => n
  | .nextInstr, none => BitVec.ofNat _ (m.draw .savedPc)

/-- `EVENT_ENTRY_CSR` under its three constraints (R206): `SUP = 1` in a supervisor event, `SUP` unchanged in a user event,
`HLT = 0`. The reference instantiation also sets EVT and leaves the rest. -/
def entryCsr (ch : Choice) (c : Csr) (cls : EventClass) (e : Event) : Csr :=
  let base := match ch with
    | .reference => { c with evt := true }
    | .free => Config.eventEntryCsr c cls e
  { base with sup := cls == .supervisor || c.sup, hlt := false }

/-- The writes the hardware makes by itself when it enters an event (R57, `FU_IMPLICIT`). -/
def entryWrites (cls : EventClass) (promoting : Bool) : List HwWrite :=
  match cls with
  | .user => [.ueb0, .ueb1, .csrEvent, .pcEvent]
  | .supervisor => if promoting then [.seb0, .seb1, .pid, .csrEvent, .pcEvent] else [.seb0, .seb1, .csrEvent, .pcEvent]

/-- The core with an event of a class saved (R204), but for its new pc: PC and CSR into the pair of the class, PID to the kernel's
in a promoting event (R208), and the new CSR. -/
def Core.saving {sh : Shape} (c : Core sh) (cfg : Params) (e : Event) (cls : EventClass) (saved : BitVec sh.W) : Core sh :=
  let image : BitVec sh.bufBits := BitVec.ofNat _ (csrImage cfg.csrLayout c.csr)
  let c' : Core sh := match cls with
    | .user => { c with ueb0 := saved, ueb1 := image }
    | .supervisor =>
      { c with seb0 := saved, seb1 := image, pid := if c.csr.sup then c.pid else cfg.kernelPid }
  { c' with csr := entryCsr cfg.eventEntryCsr c.csr cls e }

/-- The core after an event of a class is entered (R204): saved, with the handler's address in PC. -/
def Core.entered {sh : Shape} (c : Core sh) (cfg : Params) (e : Event) (cls : EventClass) (saved h : BitVec sh.W) : Core sh :=
  { c.saving cfg e cls saved with pc := h }.markImplicit cfg (entryWrites cls (!c.csr.sup))

/-- The machine as the lookup of the handler finds it: R204 saves PC and CSR and sets PID and CSR before it calls `EVENT_VECTOR`. -/
def Mach.saving {sh : Shape} (m : Mach sh) (e : Event) (cls : EventClass) (saved : BitVec sh.W) : Mach sh :=
  { m with core := m.core.saving m.cfg e cls saved }

/-- Taking an event of a known class (R204): refused for a user event in supervisor mode (R202), a fault where the table
cannot be read. -/
def Mach.enterAs {sh : Shape} (m : Mach sh) (e : Event) (cls : EventClass) (saved : BitVec sh.W) : Res (Mach sh) :=
  if cls == .user && m.core.csr.sup then .error (.refuse .userEventInSupervisorMode)
  else
    match (m.saving e cls saved).handler (match cls with | .user => m.core.uetp | .supervisor => m.core.setp) e with
    | .error s => .error s
    | .ok h => .ok { m with draws := m.draws + 1, core := m.core.entered m.cfg e cls saved h }

/-- Taking an event (R204): caused by the instruction at `cause`, with `next` the pc that would follow if it is known, before or
after the instruction's effects. -/
def Mach.enter {sh : Shape} (m : Mach sh) (e : Event) (cause : BitVec sh.W) (next : Option (BitVec sh.W)) (after : Bool) :
    Res (Mach sh) :=
  m.enterAs e (m.classOf e) (m.savedPc e cause next after)

/-- The buffer pair a return uses (R182): the supervisor pair when `SUP = 1`, the user pair when `SUP = 0`. -/
def Core.returnPair {sh : Shape} (c : Core sh) : BitVec sh.W × BitVec sh.bufBits :=
  if c.csr.sup then (c.seb0, c.seb1) else (c.ueb0, c.ueb1)

/-- Returning from an event (R181), but for its pc: every field of the CSR from the low `CSR_BITS` bits of the buffer. -/
def Core.returned {sh : Shape} (c : Core sh) (cfg : Params) : Core sh :=
  { c with csr := csrOfImage cfg.csrLayout (c.returnPair.2.toNat % 2 ^ sh.csrBits) }.markImplicit cfg [.csrReturn]

/-- Which of several events that are due is entered: any one (R176, R214). -/
def Mach.pick {sh : Shape} (m : Mach sh) (e : Event) (es : List Event) : Event :=
  if es.isEmpty then e else (e :: es).getD (m.draw .pickEvent % (es.length + 1)) e

/-- One of the events that are due before the instruction's effects, or what follows where none is (R209, R214): caused by the
instruction at the pc, with `next` the pc that would follow it if that is known. -/
def Mach.takeOr {sh : Shape} (m : Mach sh) (es : List Event) (next : Option (BitVec sh.W)) (rest : Res (Mach sh)) :
    Res (Mach sh) :=
  match es with
  | [] => rest
  | e :: es => m.enter (m.pick e es) m.core.pc next false

/-- One breakpoint exception for all matches of a step, none for no match (R226). -/
def brkEvents (hits : List (Fin 6 × BrkMode)) : List Event :=
  if hits.isEmpty then [] else [.breakpoint hits]

/-- The move the environment makes at this step, and the machine without it (R6). -/
def Mach.nextMove {sh : Shape} (m : Mach sh) : EnvMove × Mach sh :=
  match m.env with
  | [] => (⟨m.coreId, [], none⟩, m)
  | e :: es => (e, { m with env := es })

/-- The machine with core `id` the one to step; unchanged where there is no such core (R96). -/
def Mach.select {sh : Shape} (m : Mach sh) (id : Nat) : Mach sh :=
  if id = m.coreId then m
  else
    match m.parked.lookup id with
    | none => m
    | some c =>
      { m with
        coreId := id
        core := c
        parked := m.parked.map fun p => if p.1 = id then (m.coreId, m.core) else p }

/-- An interrupt is enabled: a user one by UINT, a supervisor one by SINT (R234); a waking one is no interrupt to a running
core (R236). -/
def irqEnabled (c : Csr) (i : Irq) : Bool :=
  match i.kind with
  | .user => c.uint
  | .supervisor => c.sint
  | .waking => false

/-- The interrupt a running core takes at this step: the one the environment lets it take, if it is enabled (R234). -/
def takenIrq (c : Csr) (mv : EnvMove) : Option Irq :=
  match mv.take with
  | none => none
  | some k =>
    match mv.pending[k]? with
    | none => none
    | some i => if irqEnabled c i then some i else none

/-- A waking interrupt is presented (R236). -/
def wakes (mv : EnvMove) : Bool := mv.pending.any (fun i => i.kind == .waking)

/-- A halted core's step (R236, R238): a waking interrupt clears HLT, a write of CSR by the hardware (R57), and nothing else
changes. -/
def Mach.haltedStep {sh : Shape} (m : Mach sh) (mv : EnvMove) : Mach sh :=
  if wakes mv then
    { m with core := { m.core with csr := { m.core.csr with hlt := false } }.markImplicit m.cfg [.csrWake] }
  else m

end Sys2Proof.Machine
end

