-- ==== Sys2Proof/Machine/Perform.lean ====
section
/-! DEFINITION. Performing an effect record: steps 4 to 9 of R240. A record is first worked out, all its reads made and every
address and value known, and only then are its effects laid on the machine, so that an instruction that stops or is turned away
by a "before" event has no effect (R209), and every "before" event comes before every fault of an access. The images of State
dump and State restore are here too (R183, R184). -/

namespace Sys2Proof.Machine

open Sys2Proof

/-- What a special operation will do, its values known. -/
inductive Plan where
  | none
  | eventReturn
  | dump
  | restore (vals : List (Reg × Nat))
  | setVmsk (v : Nat)
  deriving DecidableEq, Repr

/-- An effect record (R9) with every value known. `cells` are the bytes its stores write and where, `accs` the data accesses
it makes, `gens` the flags it generates as 1 (R224, R227). -/
structure Effect (sh : Shape) where
  writes : List (Dest × Nat)
  vwrites : List (Fin 32 × Nat × BitVec sh.vbits)
  accs : List Access
  cells : List Host.Cell
  sflags : Option FlagGen
  vflags : Option (Nat × List FlagGen)
  gens : Flags
  next : BitVec sh.W
  plan : Plan
  deriving DecidableEq, Repr

/-- The registers of a file the image of a layout holds: those whose usage bit is 1, or all of them in a format without FU words;
of FILE 2 only the slots the format has room for, and no empty slot (R183; log entry 15). -/
def imageHolds (d : DumpLayout) (fu : Nat) (f : RegFile) (i : Fin 32) : Bool :=
  (!d.holdsFu || fu.testBit i.val) &&
  match f with
  | .f2 => d.slots.getLsbD i.val && i != 17
  | _ => true

/-- The registers of one file the image holds, in order. -/
def imageRegs (d : DumpLayout) (fu : Nat) (f : RegFile) : List Reg :=
  ((List.finRange 32).filter (imageHolds d fu f)).map fun i => ⟨f, i⟩

/-- The registers the image holds when the file usage registers hold these values. -/
def heldRegs (d : DumpLayout) (fu0 fu1 fu2 : Nat) : List Reg := imageRegs d fu0 .f0 ++ imageRegs d fu1 .f1 ++ imageRegs d fu2 .f2

/-- Where a layout puts a register, from the image's address. -/
def imageOff (d : DumpLayout) (r : Reg) : Nat :=
  match r.file with
  | .f0 => d.xOff + r.idx.val * d.xStride
  | .f1 => d.vOff + r.idx.val * d.vStride
  | .f2 => d.sOff + r.idx.val * d.sStride

/-- How many bytes a register has there. -/
def imageSize (sh : Shape) (d : DumpLayout) (r : Reg) : Nat :=
  match r.file with
  | .f0 => sh.wlen.bytes
  | .f1 => sh.nl8
  | .f2 => d.sBytes

/-- The image's place for a register, as the chunk that stores `v` there: a scalar register in one access, a vector register or
a FILE 2 slot byte by byte (R106; log entry 15). -/
def imageChunk (sh : Shape) (d : DumpLayout) (base : Nat) (r : Reg) (v : Nat) : Chunk where
  addr := wrapAddr sh (base + imageOff d r)
  unit := match r.file with
    | .f0 => sh.wlen.bytes
    | _ => 1
  size := imageSize sh d r
  val := v

/-- The file usage words at the head of an image (95_test_vectors.md section 0.4). -/
def fuChunks (sh : Shape) (base fu0 fu1 fu2 : Nat) : List Chunk :=
  [⟨wrapAddr sh base, 4, 4, fu0⟩, ⟨wrapAddr sh (base + 4), 4, 4, fu1⟩, ⟨wrapAddr sh (base + 8), 4, 4, fu2⟩,
   ⟨wrapAddr sh (base + 12), 4, 4, 0⟩]

/-- No two of some pieces, each an offset and a size, overlap. -/
def piecesApart : List (Nat × Nat) → Bool
  | [] => true
  | p :: ps => ps.all (fun q => decide (p.1 + p.2 ≤ q.1) || decide (q.1 + q.2 ≤ p.1)) && piecesApart ps

/-- The pieces an image of a layout may have: its usage words and a place for every register. -/
def layoutPieces (sh : Shape) (d : DumpLayout) : List (Nat × Nat) :=
  (if d.holdsFu then [(0, 16)] else []) ++
  (heldRegs { d with holdsFu := false } 0 0 0).map fun r => (imageOff d r, imageSize sh d r)

/-- A layout that has the law of `DUMP_FORMAT` (R183): it has room for every slot and for every bit of one, no two of its pieces
overlap, and they fit the address space. -/
def dumpLayoutWf (sh : Shape) (d : DumpLayout) : Bool :=
  d.slots ||| usageBit 17 == BitVec.allOnes 32 && decide (max sh.bufBits sh.vbits ≤ 8 * d.sBytes) &&
  (layoutPieces sh d).all (fun p => decide (p.1 + p.2 ≤ 2 ^ sh.W)) && piecesApart (layoutPieces sh d)

/-- All 96 registers, file by file, the empty slot among them. -/
def allRegs : List Reg := [RegFile.f0, .f1, .f2].flatMap fun f => (List.finRange 32).map fun i => ⟨f, i⟩

/-- The chunks `STATE_DUMP` writes at `base` (R183). FU2 is read once, with its open bits as that read has them. -/
def Mach.dumpChunks {sh : Shape} (m : Mach sh) (base : Nat) : List Chunk :=
  match m.cfg.dump with
  | .layout d =>
    let fu0 := m.readSr useDump 19
    let fu1 := m.readSr useDump 20
    let fu2 := m.readSr useDump 21
    (if d.holdsFu then fuChunks sh base fu0 fu1 fu2 else []) ++
    (heldRegs d fu0 fu1 fu2).map fun r => imageChunk sh d base r (m.readReg useDump r)
  | .free =>
    (Config.dumpEncode sh (allRegs.map (m.readReg useDump))).map fun p =>
      ⟨wrapAddr sh (base + p.1), p.2.1.bytes, p.2.1.bytes, p.2.2⟩

/-- Reading back what a chunk of the image holds: one access, or byte by byte. -/
def Mach.readChunk {sh : Shape} (m : Mach sh) (c : Chunk) : Res Nat :=
  match m.checkAlign c.addr c.unit with
  | .error e => .error e
  | .ok () =>
    match m.readBytes .read c.addr c.size with
    | .error e => .error e
    | .ok bs => .ok (ofBytes m.cfg.endian bs)

/-- The values of several chunks, in order. -/
def Mach.readChunks {sh : Shape} (m : Mach sh) : List Chunk → Res (List Nat)
  | [] => .ok []
  | c :: cs =>
    match m.readChunk c with
    | .error e => .error e
    | .ok v =>
      match m.readChunks cs with
      | .error e => .error e
      | .ok vs => .ok (v :: vs)

/-- The accesses that read some chunks of an image. -/
def readAccesses (sh : Shape) (cs : List Chunk) : List Access := (cs.flatMap (chunkAccesses sh)).map fun a => { a with write := false }

/-- What an image of a layout at `base` holds, and the accesses that read it: with usage words those say which registers it
holds, and FU0, FU1 and FU2 take them last (R184; log entry 15). -/
def Mach.layoutVals {sh : Shape} (m : Mach sh) (d : DumpLayout) (base : Nat) : Res (List (Reg × Nat) × List Access) :=
  let words := if d.holdsFu then (fuChunks sh base 0 0 0).take 3 else []
  match m.readChunks words with
  | .error e => .error e
  | .ok fus =>
    let regs := heldRegs d (fus.getD 0 0) (fus.getD 1 0) (fus.getD 2 0)
    let chunks := regs.map fun r => imageChunk sh d base r 0
    match m.readChunks chunks with
    | .error e => .error e
    | .ok vs =>
      .ok (regs.zip vs ++ [(⟨RegFile.f2, 19⟩ : Reg), ⟨.f2, 20⟩, ⟨.f2, 21⟩].zip fus, readAccesses sh (words ++ chunks))

/-- What a restore under a free format reads at `base`, piece by piece, at most `n` more. -/
def Mach.freePieces {sh : Shape} (m : Mach sh) (base : Nat) : Nat → List Nat → List Access → Res (List Nat × List Access)
  | 0, vs, accs => .ok (vs, accs)
  | n + 1, vs, accs =>
    match Config.dumpNext sh vs with
    | none => .ok (vs, accs)
    | some (off, size) =>
      let a := wrapAddr sh (base + off)
      match m.memRead .read a size.bytes with
      | .error e => .error e
      | .ok v => m.freePieces base n (vs ++ [v]) (accs ++ [⟨a, size.bits, false⟩])

/-- `STATE_RESTORE` worked out: the registers the image at `base` holds with their values, and the accesses that read it
(R184). -/
def Mach.planRestore {sh : Shape} (m : Mach sh) (base : Nat) : Res (List (Reg × Nat) × List Access) :=
  match m.cfg.dump with
  | .layout d => m.layoutVals d base
  | .free =>
    match m.freePieces base (Config.dumpReads sh) [] [] with
    | .error e => .error e
    | .ok (vs, accs) => .ok (Config.dumpDecode sh vs, accs)

/-- A restored register takes its saved value, truncated to its width (R184); PC is left to `Mach.nextPc`. -/
def Core.restoreReg {sh : Shape} (l : CsrLayout) (c : Core sh) (r : Reg) (v : Nat) : Core sh :=
  match r.file with
  | .f0 => { c with x := c.x.set r.idx (BitVec.ofNat _ v) }
  | .f1 => { c with v := c.v.set r.idx (BitVec.ofNat _ v) }
  | .f2 =>
    match slotAt r.idx with
    | none => c
    | some s => writeSlot l c v s

/-- The image holds a slot of FILE 2. -/
def holdsSlot (vals : List (Reg × Nat)) (i : Fin 32) : Bool := vals.any fun p => p.1 == ⟨.f2, i⟩

/-- The core after `STATE_RESTORE`: the registers the image holds, and those of FU0 to FU2 it does not hold arbitrary (R184,
U18). -/
def Mach.restored {sh : Shape} (m : Mach sh) (vals : List (Reg × Nat)) : Core sh :=
  let c := vals.foldl (fun c p => Core.restoreReg m.cfg.csrLayout c p.1 p.2) m.core
  { c with
    fu0 := if holdsSlot vals 19 then c.fu0 else BitVec.ofNat 32 (m.draw (.fileUsage 0))
    fu1 := if holdsSlot vals 20 then c.fu1 else BitVec.ofNat 32 (m.draw (.fileUsage 1))
    fu2 := if holdsSlot vals 21 then c.fu2 else BitVec.ofNat 32 (m.draw (.fileUsage 2))
    fuOpen := 0#32 }

/-- `SET_VMSK` (R185): the low `NL8` bits of the value, and the usage bit of slot `%15`. -/
def Core.setVmsk {sh : Shape} (c : Core sh) (cfg : Params) (v : Nat) : Core sh :=
  { c with vmsk := BitVec.ofNat _ v, fu2 := c.fu2 ||| usageBit 15 }.markImplicit cfg [.fu2]

/-- The special operation of a record worked out: its plan, what it stores, what else it reads. -/
def Mach.planSpecial {sh : Shape} (m : Mach sh) (loaded : List Nat) : Special → Res (Plan × List Chunk × List Access)
  | .none => .ok (.none, [], [])
  | .eventReturn => .ok (.eventReturn, [], [])
  | .stateDump a => .ok (.dump, m.dumpChunks (m.address useSpecial loaded a), [])
  | .stateRestore a =>
    match m.planRestore (m.address useSpecial loaded a) with
    | .error e => .error e
    | .ok (vals, accs) => .ok (.restore vals, [], accs)
  | .setVmsk v => .ok (.setVmsk (m.operand useSpecial loaded v), [], [])

/-- The pc after the instruction, if no event is taken (R9, `next_pc`): the return address in a return from an event (R181), the
saved pc in a restore whose image holds PC (log entry 15), what the record says, or the instruction after this one, modulo
`2^WLEN` (R46, R161). -/
def Mach.nextPc {sh : Shape} (m : Mach sh) (w : IWord) (loaded : List Nat) (r : Record) (plan : Plan) : BitVec sh.W :=
  let next := match r.next with
    | some o => BitVec.ofNat _ (m.operand useNext loaded o)
    | none => m.core.pc + BitVec.ofNat _ w.len.bytes
  match plan with
  | .eventReturn => m.core.returnPair.1
  | .restore vals =>
    match vals.reverse.lookup ⟨.f2, 11⟩ with
    | some v => BitVec.ofNat _ v
    | none => next
  | _ => next

/-- The flags generated as 1 by a scalar instruction or in some lane (R224, R227). -/
def Mach.generated {sh : Shape} (m : Mach sh) (sf : Option FlagGen) (vf : Option (Nat × List FlagGen)) : Flags :=
  unionFlags (match sf with | none => {} | some g => generatedFlags g)
    (match vf with | none => {} | some (lb, gens) => m.lanesCounted lb gens)

/-- A special operation stands in place of the record's generic register and memory effects (R180). The data reads a record lists beside
one are so not made, those too that the `ISA` parameter's answer came from: R222 sees none of them and none faults (DESIGN CHOICE, log
entry 38; unsafe for a chip that makes them). -/
def genericEffects (r : Record) : Record :=
  if r.special == .none then r else { r with writes := [], vwrites := [], dreads := [], dwrites := [] }

/-- A record worked out (R9, R240 steps 3 and 6): data reads first, then every value and the place of every store; no
data read beside a special operation (log entry 38). -/
def Mach.evaluate {sh : Shape} (m : Mach sh) (w : IWord) (rec : Record) : Res (Effect sh) :=
  let r := genericEffects rec
  match m.loadAll r.dreads [] with
  | .error e => .error e
  | .ok (loaded, raccs) =>
    match m.planSpecial loaded r.special with
    | .error e => .error e
    | .ok (plan, chunks, paccs) =>
      let stores := m.storeChunks loaded 0 r.dwrites ++ chunks
      match m.cellsOf (maySplit rec) stores with
      | .error e => .error e
      | .ok cells =>
        let sf := r.sflags.map (m.flagGen useFlags loaded)
        let vf := r.vflags.map fun f => (f.laneBytes, m.laneGens useLaneFlags loaded f.src)
        .ok {
          writes := m.writeVals loaded 0 r.writes
          vwrites := m.vwriteVals loaded 0 r.vwrites
          accs := raccs ++ paccs ++ stores.flatMap (chunkAccesses sh)
          cells := cells
          sflags := sf
          vflags := vf
          gens := m.generated sf vf
          next := m.nextPc w loaded r plan
          plan := plan }

/-- A masked vector write (R171, R172) and its usage bit (R179), a write of FU1 by the hardware, under the mask `vmsk`. -/
def Core.vectorWrite {sh : Shape} (c : Core sh) (cfg : Params) (vmsk : BitVec sh.nl8) (d : Fin 32) (lb : Nat)
    (res : BitVec sh.vbits) : Core sh :=
  { c with
    v := c.v.set d (maskedWrite cfg.laneMask vmsk lb c.v[d] res)
    fu1 := c.fu1 ||| usageBit d.val }.markImplicit cfg [.fu1]

/-- Several masked vector writes, in order. -/
def Core.vectorWrites {sh : Shape} (c : Core sh) (cfg : Params) (vmsk : BitVec sh.nl8)
    (ws : List (Fin 32 × Nat × BitVec sh.vbits)) : Core sh :=
  ws.foldl (fun c w => c.vectorWrite cfg vmsk w.1 w.2.1 w.2.2) c

/-- The registers after step 6 of R240: the special operation in place of the generic effects (R180), or the explicit writes
and then the vector writes. -/
def Mach.performed {sh : Shape} (m : Mach sh) (eff : Effect sh) : Core sh :=
  match eff.plan with
  | .none => (m.core.regWrites m.cfg eff.writes).vectorWrites m.cfg m.core.vmsk eff.vwrites
  | .eventReturn => m.core.returned m.cfg
  | .dump => m.core
  | .restore vals => m.restored vals
  | .setVmsk v => m.core.setVmsk m.cfg v

/-- Step 7 of R240: generated flags into the CSR and into VFLG (R61, R174). A record with `sflags` writes the CSR flags whatever else
it has, where R174 has a vector instruction write none: that the step's rule wins is DESIGN CHOICE, log entry 39. -/
def Mach.withFlags {sh : Shape} (m : Mach sh) (eff : Effect sh) (c : Core sh) : Core sh :=
  let c1 := match eff.sflags with
    | none => c
    | some g => { c with csr := { c.csr with flags := mergeFlags g c.csr.flags } }.markImplicit m.cfg [.csrFlags]
  match eff.vflags with
  | none => c1
  | some (lb, gens) => { c1 with vflg := m.newVflg lb gens c1.vflg }.markImplicit m.cfg [.vflg]

/-- Which write of PC by the hardware ends an instruction. -/
def pcWrite : Plan → HwWrite
  | .eventReturn => .pcReturn
  | _ => .pcNext

/-- The machine after steps 6, 7 and 9 of R240, without the step counted. -/
def Mach.committed {sh : Shape} (m : Mach sh) (eff : Effect sh) : Mach sh :=
  { m with
    mem := Memory.setAll m.mem eff.cells
    core := { m.withFlags eff (m.performed eff) with pc := eff.next }.markImplicit m.cfg [pcWrite eff.plan] }

/-- The flag exceptions due: one per flag generated as 1 that is in `AUTO_EXC_FLAGS`, while `EXC = 1` (R227). -/
def Mach.autoExceptions {sh : Shape} (m : Mach sh) (gens : Flags) : List Event :=
  if m.core.csr.exc then
    (allFlags.filter fun f => flagOf m.cfg.autoExc f && flagOf gens f).map .flagException
  else []

/-- The events due after the effects (R240 step 8). -/
def Mach.afterEvents {sh : Shape} (m : Mach sh) (w : IWord) (eff : Effect sh) : List Event :=
  brkEvents (m.core.brkHits (selAfter m.cfg.brkTiming) w eff.accs eff.gens) ++ m.autoExceptions eff.gens

/-- Steps 6 to 9 of R240: the effects, then one of the events due, or the next instruction. -/
def Mach.complete {sh : Shape} (m : Mach sh) (w : IWord) (eff : Effect sh) : Res (Mach sh) :=
  match m.afterEvents w eff with
  | [] => .ok { m.committed eff with draws := m.draws + 1 }
  | e :: es => (m.committed eff).enter (m.pick e es) m.core.pc (some eff.next) true

/-- The explicit destinations of a record in files 0 and 2 (R9, `rwrites`). -/
def destsOf (r : Record) : List Dest := r.writes.map (·.1)

/-- Slot `%17` is named, or PC as a destination: refused (R53, R189, R240 step 5), in a user-mode record that also names a starred
register too, so that the refusal comes before the privilege violation (DESIGN CHOICE, log entry 30: R240 step 5 gives the two no
order; safe, since the model stops). -/
def refusalOf (r : Record) : Option Refusal :=
  if namesEmptySlot (recordReads r) (destsOf r) then some .emptySlot
  else if writesPc (destsOf r) then some .pcWrite
  else none

/-- Every explicit register write a record lists, with the value it would write. -/
def Mach.listedWrites {sh : Shape} (m : Mach sh) (r : Record) : List (Dest × Nat) :=
  m.writeVals (m.peek (genericEffects r).dreads []) 0 r.writes

/-- In user mode a record names a starred register, is a dump or a restore, or lists a write of a value to the CSR that changes a
starred field: a privilege violation (R86, R183, R184, R232, R240 step 5). The write need not be made: R240 step 5 checks every
entry of `rwrites`, and of a record with a special operation R180 keeps them from being performed; the model checks the CSR's there
like any other starred register's (DESIGN CHOICE, log entry 35; unsafe for a claim about such a record). -/
def Mach.violates {sh : Shape} (m : Mach sh) (r : Record) : Bool :=
  !m.core.csr.sup &&
  (touchesStarred (recordReads r) (destsOf r) || needsSupervisor r.special ||
    changesStarred m.cfg.csrLayout sh.csrBits m.core.csr (m.listedWrites r))

/-- The pc that would follow the instruction, if it is known: it is not where an image that may hold PC cannot be read (R207). -/
def Mach.knownNext {sh : Shape} (m : Mach sh) (w : IWord) (rec : Record) : Option (BitVec sh.W) :=
  let r := genericEffects rec
  let loaded := m.peek r.dreads []
  match m.planSpecial loaded r.special with
  | .ok (plan, _, _) => some (m.nextPc w loaded r plan)
  | .error _ => none

/-- The breakpoint registers that match before the effects: address and pattern modes, and the data and flag modes taken before
where the accesses and flags are known (R220, R226). R176 and R224 have the flags written before a flag breakpoint is entered, and
under a `BRK_TIMING` that takes it before (R5) R209 has no effect made: the model follows R209, so that no flag is written (DESIGN
CHOICE, log entry 12; unsafe for a claim about such a flag). -/
def Mach.beforeHits {sh : Shape} (m : Mach sh) (w : IWord) : Res (Effect sh) → List (Fin 6 × BrkMode)
  | .ok eff => m.core.brkHits (selBefore m.cfg.brkTiming) w eff.accs eff.gens
  | .error _ => m.core.brkHits (selEarly m.cfg.brkTiming) w [] {}

/-- The events due before the effects (R240 steps 2, 4 and 5; log entry 12). -/
def Mach.beforeEvents {sh : Shape} (m : Mach sh) (w : IWord) (r : Record) : List Event :=
  brkEvents (m.beforeHits w (m.evaluate w r)) ++ if m.violates r then [.privilegeViolation] else []

/-- Steps 4 to 9 of R240 for an instruction with word `w` and record `r`: one of the events due before its effects (R214), its
refusal, or, where no event is due, the faults of its accesses and its effects. -/
def Mach.perform {sh : Shape} (m : Mach sh) (w : IWord) (r : Record) : Res (Mach sh) :=
  if r.wf then
    match refusalOf r with
    | some x =>
      m.takeOr (brkEvents (m.core.brkHits (selEarly m.cfg.brkTiming) w [] {})) (m.knownNext w r) (.error (.refuse x))
    | none =>
      m.takeOr (m.beforeEvents w r) (m.knownNext w r)
        (match m.evaluate w r with
          | .error e => .error e
          | .ok eff => m.complete w eff)
  else .error (.refuse .illFormedRecord)

/-- A result of the machine as an outcome of the host's interface. -/
def outcome {sh : Shape} : Res (Mach sh) → Host.Outcome State Fault Refusal
  | .ok m => .next ⟨sh, m⟩
  | .error (.fault f) => .fault f
  | .error (.refuse r) => .refused r

/-- Performing a record in a state (R240 steps 4 to 9). -/
def runRecord (w : IWord) (r : Record) (s : State) : Host.Outcome State Fault Refusal :=
  outcome (s.m.perform w r)

/-- Performing the record of a body; a fault where the `ISA` parameter answers `illegal` (R136). -/
def runBody (w : IWord) (b : Body) (s : State) : Host.Outcome State Fault Refusal :=
  match s.m.record b with
  | some r => runRecord w r s
  | none => .fault .illegalInstruction

end Sys2Proof.Machine
end

