-- ==== Sys2Proof/Machine/Control.lean ====
section
/-! DEFINITION. Call and return as the convention sees them (40_calling_convention.md). -/

namespace Sys2Proof.Machine

open Sys2Proof

/-- The record of `CALL target` at `pc` (R161): the address of the instruction after the call into `x[31]`, then to the target. -/
abbrev callRecord {sh : Shape} (pc : BitVec sh.W) (w : IWord) (target : Operand) : Record where
  writes := [(.x 31, .const (pc + BitVec.ofNat _ w.len.bytes).toNat)]
  next := some target

/-- The record of `RETURN` (R161): to the address in `x[31]`. -/
abbrev retRecord : Record := { next := some (.x 31) }

/-- `CALL target` (R161). -/
def execCall (w : IWord) (target : Operand) (s : State) : Host.Outcome State Fault Refusal :=
  runRecord w (callRecord s.m.core.pc w target) s

/-- `RETURN` (R161). -/
def execRet (w : IWord) (s : State) : Host.Outcome State Fault Refusal := runRecord w retRecord s

end Sys2Proof.Machine
end

