-- ==== Sys2Proof/Machine/General.lean ====
section
/-! DEFINITION. The instructions that have no row of their own: an effect record of R9, as the `ISA` parameter answers it. -/

namespace Sys2Proof.Machine

open Sys2Proof

/-- A compressed instruction (R24, R132): its effect record; which registers it can name is the `ISA` parameter's affair and
no rule reads the record's `compressed` flag. -/
def execCompressed (w : IWord) (b : Body) (s : State) : Host.Outcome State Fault Refusal := runBody w b s

/-- Any other instruction (R9, R132): its effect record, which may name any register of a file. -/
def execGeneral (w : IWord) (b : Body) (s : State) : Host.Outcome State Fault Refusal := runBody w b s

end Sys2Proof.Machine
end

