-- ==== Sys2Proof/Machine/System.lean ====
section
/-! DEFINITION. The system operations of 42_system_operations.md: the effect record of each (R9), and its meaning. -/

namespace Sys2Proof.Machine

open Sys2Proof

/-- The record of `EVENT_RETURN` (R181): PC and CSR from the pair R182 chooses. -/
abbrev eventReturnRecord : Record := { special := .eventReturn }

/-- The record of `STATE_DUMP addr` (R183). -/
abbrev stateDumpRecord (addr : Operand) : Record := { special := .stateDump addr }

/-- The record of `STATE_RESTORE addr` (R184). -/
abbrev stateRestoreRecord (addr : Operand) : Record := { special := .stateRestore addr }

/-- The record of `SET_VMSK val` (R185). -/
abbrev setVmskRecord (val : Operand) : Record := { special := .setVmsk val }

/-- The record of `SR_READ i` into `x[d]` (R186): slot `i` is the source, `x[d]` the destination. -/
abbrev srReadRecord (d i : Fin 32) : Record := { writes := [(.x d, .sr i)] }

/-- The record of `SR_WRITE i, val` (R187 to R189). -/
abbrev srWriteRecord (i : Fin 32) (val : Operand) : Record := { writes := [(.sr i, val)] }

/-- `EVENT_RETURN` (R181). -/
def execEventReturn (w : IWord) (s : State) : Host.Outcome State Fault Refusal := runRecord w eventReturnRecord s

/-- `STATE_DUMP addr` (R183). -/
def execStateDump (w : IWord) (addr : Operand) (s : State) : Host.Outcome State Fault Refusal :=
  runRecord w (stateDumpRecord addr) s

/-- `STATE_RESTORE addr` (R184). -/
def execStateRestore (w : IWord) (addr : Operand) (s : State) : Host.Outcome State Fault Refusal :=
  runRecord w (stateRestoreRecord addr) s

/-- `SET_VMSK val` (R185). -/
def execSetVmsk (w : IWord) (val : Operand) (s : State) : Host.Outcome State Fault Refusal :=
  runRecord w (setVmskRecord val) s

/-- `SR_READ i` into `x[d]` (R186). -/
def execSrRead (w : IWord) (d i : Fin 32) (s : State) : Host.Outcome State Fault Refusal :=
  runRecord w (srReadRecord d i) s

/-- `SR_WRITE i, val` (R187). -/
def execSrWrite (w : IWord) (i : Fin 32) (val : Operand) (s : State) : Host.Outcome State Fault Refusal :=
  runRecord w (srWriteRecord i val) s

end Sys2Proof.Machine
end

