-- ==== Sys2Proof/Machine/VectorOps.lean ====
section
/-! DEFINITION. Vector instructions as a class (41_vector_operations.md). -/

namespace Sys2Proof.Machine

open Sys2Proof

/-- The record of `VECTOR_OP` (R170 to R179): one masked destination, lanes of `lb` bytes, the lanes' flags into VFLG, at most
one event. -/
abbrev vectorOpRecord (d : Fin 32) (lb : Nat) (srcs : List (Fin 32)) (res : VSrc) (flags : Option LaneFlagSrc) : Record where
  reads := srcs.map fun i => ⟨.f1, i⟩
  vwrites := [⟨d, lb, res⟩]
  vflags := flags.map fun f => ⟨lb, f⟩

/-- `VECTOR_OP`. -/
def execVectorOp (w : IWord) (d : Fin 32) (lb : Nat) (srcs : List (Fin 32)) (res : VSrc) (flags : Option LaneFlagSrc)
    (s : State) : Host.Outcome State Fault Refusal :=
  runRecord w (vectorOpRecord d lb srcs res flags) s

end Sys2Proof.Machine
end

