-- ==== Sys2Proof/Machine/Dispatch.lean ====
section
/-! DEFINITION. What each instruction does: one arm per constructor, each one call of its meaning. -/

namespace Sys2Proof.Machine

open Sys2Proof

def exec (i : Instr) (s : State) : Host.Outcome State Fault Refusal :=
  match i with
  | .eventReturn w => Sys2Proof.Machine.execEventReturn w s
  | .stateDump w addr => Sys2Proof.Machine.execStateDump w addr s
  | .stateRestore w addr => Sys2Proof.Machine.execStateRestore w addr s
  | .setVmsk w val => Sys2Proof.Machine.execSetVmsk w val s
  | .srRead w d slot => Sys2Proof.Machine.execSrRead w d slot s
  | .srWrite w slot val => Sys2Proof.Machine.execSrWrite w slot val s
  | .vectorOp w d lb srcs res flags => Sys2Proof.Machine.execVectorOp w d lb srcs res flags s
  | .call w target => Sys2Proof.Machine.execCall w target s
  | .ret w => Sys2Proof.Machine.execRet w s
  | .compressed w b => Sys2Proof.Machine.execCompressed w b s
  | .general w b => Sys2Proof.Machine.execGeneral w b s

end Sys2Proof.Machine
end

