-- ==== Sys2Proof/Machine/Fetch.lean ====
section
/-! DEFINITION. What a step does before its instruction runs: steps 1 to 3 of R240, and placing an instruction where the next step
fetches it. -/

namespace Sys2Proof.Machine

open Sys2Proof

/-- The words of the instruction set that are in force (R9). -/
def Mach.words {sh : Shape} (m : Mach sh) : List Instr :=
  match m.isa with
  | .table _ rows => (rows.filter fun r => r.guard.all fun g => csrFieldVal m.core.csr g.1 == g.2).map (·.instr)
  | .free _ => []

/-- The instruction that bytes at the program counter begin with (R9, R140): by the words in force, or as a free `ISA` answers,
whose answer must have those bytes for its word, in the order of that `ISA` (log entry 36), and lists the data reads it came from. -/
def Mach.decoded {sh : Shape} (m : Mach sh) (bytes : List Byte) : Except DecodeError Instr :=
  match m.isa with
  | .table o _ => decode o m.words bytes
  | .free o =>
    match m.ask (Config.isaDecode bytes) [] (Config.isaDecodeReads bytes (m.view useBody [] [])) [] with
    | none => .error .illegal
    | some (.error e, _) => .error e
    | some (.ok i, ds) =>
      match i.withReads ds with
      | some j => if (encode o j).isPrefixOf bytes then .ok j else .error .illegal
      | none => .error .illegal

/-- The bytes that can be fetched from a logical address on, at most `n`. -/
def Mach.fetchable {sh : Shape} (m : Mach sh) : Nat → Nat → List Byte
  | 0, _ => []
  | n + 1, a =>
    match m.readByte .fetch (wrapAddr sh a) with
    | .ok b => b :: m.fetchable n (a + 1)
    | .error _ => []

/-- The instruction at the program counter (R240 step 3): the address aligned to 2 (R105), the bytes translated and read, and
the `ISA` parameter asked; `illegal` faults (R136). R140 and R240 do not say how many bytes are read, nor which of two faults
wins: the model reads up to 8 bytes and stops at the first it cannot read; a shorter word that is complete runs; bytes that
begin no word are illegal; only a word that goes on past them faults on the byte that cannot be read (DESIGN CHOICE, log entry
33; safe where it faults, unsafe for a claim that a fetch reads no byte past its word). R140 has the parameter answer a record or
`illegal`; a free one may also say that the bytes are cut short, and where it says so of 8 bytes that were all read, the ninth is
read too, and faults if it cannot be (DESIGN CHOICE, log entry 33; safe, a fault either way). -/
def Mach.fetch {sh : Shape} (m : Mach sh) : Res Instr :=
  match m.checkAlign m.core.pc.toNat 2 with
  | .error e => .error e
  | .ok () =>
    let bytes := m.fetchable 8 m.core.pc.toNat
    match m.decoded bytes with
    | .ok i => .ok i
    | .error .illegal => .error (.fault .illegalInstruction)
    | .error .truncated =>
      match m.readByte .fetch (wrapAddr sh (m.core.pc.toNat + bytes.length)) with
      | .error e => .error e
      | .ok _ => .error (.fault .illegalInstruction)

/-- The effect record of each instruction (R9), as its meaning performs it; an empty one where the `ISA` parameter answers
`illegal`. -/
def recordOf {sh : Shape} (i : Instr) (m : Mach sh) : Record :=
  match i with
  | .eventReturn _ => eventReturnRecord
  | .stateDump _ a => stateDumpRecord a
  | .stateRestore _ a => stateRestoreRecord a
  | .setVmsk _ v => setVmskRecord v
  | .srRead _ d i => srReadRecord d i
  | .srWrite _ i v => srWriteRecord i v
  | .vectorOp _ d lb srcs res flags => vectorOpRecord d lb srcs res flags
  | .call w t => callRecord m.core.pc w t
  | .ret _ => retRecord
  | .compressed _ b => (m.record b).getD {}
  | .general _ b => (m.record b).getD {}

/-- The body has a record: the `ISA` parameter does not answer `illegal` for it (R136). -/
def legal {sh : Shape} (i : Instr) (m : Mach sh) : Bool :=
  match i with
  | .compressed _ b => (m.record b).isSome
  | .general _ b => (m.record b).isSome
  | _ => true

/-- The instruction has a record, and one that R9 allows. -/
def answered {sh : Shape} (i : Instr) (m : Mach sh) : Bool := legal i m && (recordOf i m).wf

/-- What a step has come to before an instruction runs: it is over, or instruction `i` is to run. -/
inductive Before (sh : Shape) where
  | over (m : Mach sh)
  | run (i : Instr) (m : Mach sh)

/-- The step is over with this result. -/
def overWith {sh : Shape} : Res (Mach sh) → Res (Before sh)
  | .ok m => .ok (.over m)
  | .error e => .error e

/-- An instruction address breakpoint that is due (R221): it is entered at once, or the choice is left to the instruction that
stands there, where there is one, which enters one of all the events due before it (R214; log entry 12). -/
def Mach.addressBreak {sh : Shape} (m : Mach sh) (hits : List (Fin 6 × BrkMode)) : Res (Before sh) :=
  let now := overWith (m.enter (.breakpoint hits) m.core.pc none false)
  if m.drawBool .laterEvent then
    match m.fetch with
    | .ok i => if answered i m then .ok (.run i m) else now
    | .error _ => now
  else now

/-- Steps 2 and 3 of R240: the breakpoint modes (R45, R225), an instruction address breakpoint (R221), the fetch. -/
def Mach.beforeInstr {sh : Shape} (m : Mach sh) : Res (Before sh) :=
  match m.core.checkModes with
  | .error e => .error e
  | .ok () =>
    let hits := m.core.brkHits (selFetch m.cfg.brkTiming) ⟨.l16, 0#64⟩ [] {}
    if hits.isEmpty then
      match m.fetch with
      | .error e => .error e
      | .ok i => .ok (.run i m)
    else m.addressBreak hits

/-- Steps 1 to 3 of R240 on the core the environment's move selects, which that move has been taken from: a halted core waits
(R238), a running one takes an interrupt or goes on to its instruction. -/
def Mach.before {sh : Shape} (m : Mach sh) (mv : EnvMove) : Res (Before sh) :=
  if m.core.csr.hlt then .ok (.over (m.haltedStep mv))
  else
    match takenIrq m.core.csr mv with
    | some i => overWith (m.enter (.interrupt i) m.core.pc (some m.core.pc) true)
    | none => m.beforeInstr

/-- The core that steps now, with the environment's move taken off (R6, R96). -/
def Mach.ready {sh : Shape} (m : Mach sh) : Mach sh := m.nextMove.2.select m.nextMove.1.core

/-- Steps 1 to 3 of R240. -/
def Mach.untilInstr {sh : Shape} (m : Mach sh) : Res (Before sh) := m.ready.before m.nextMove.1

/-- The machine with an instruction of the sample set, its bits numbered from bit 0 of its first byte, at the pc of the core
that steps next; the environment presents nothing. -/
def Mach.withFetchWord {sh : Shape} (m : Mach sh) (nbits w : Nat) : Mach sh :=
  let bytes := bytesLittle 8 (w % 2 ^ nbits)
  let addrs := (List.range 8).map fun k => wrapAddr sh (m.core.pc.toNat + k)
  { m with isa := .ofWords sampleIsa, env := [], mem := Memory.setAll m.mem (addrs.zip bytes) }

end Sys2Proof.Machine
end

