-- ==== Sys2Proof/Machine/Step.lean ====
section
/-! DEFINITION. One step of a core (R240): what comes before the instruction, then the instruction. -/

namespace Sys2Proof.Machine

open Sys2Proof

/-- One step (R10, R240). -/
def step (s : State) : Host.Outcome State Fault Refusal :=
  match s.m.untilInstr with
  | .error (.fault f) => .fault f
  | .error (.refuse r) => .refused r
  | .ok (.over m) => .next ⟨s.shape, m⟩
  | .ok (.run i m) => exec i ⟨s.shape, m⟩

/-- The state with an instruction word where the next step fetches (log entry 26). -/
def State.withFetchWord (s : State) (nbits w : Nat) : State := ⟨s.shape, s.m.withFetchWord nbits w⟩

end Sys2Proof.Machine
end

