-- ==== Sys2Proof/Machine/Abi.lean ====
section
/-! DEFINITION. The register ABI: the names and roles of the registers (R22, R32, R37, R137) and the procedure-call convention as
predicates over the registers before and after a call (R150 to R165). Nothing here is part of a step: "the processor doesn't
actually care how registers are used" (R23, R150). -/

namespace Sys2Proof.Machine

open Sys2Proof

/-- What the ABI uses a FILE 0 register for (R22). -/
inductive Role where
  | parameter
  | returnValue
  | persistent
  | volatile
  | globalPointer
  | stackPointer
  | framePointer
  | returnAddress
  deriving DecidableEq, Repr

/-- The role of each FILE 0 register (R22). -/
def roleOf (i : Fin 32) : Role :=
  if i.val < 4 then .parameter
  else if i.val < 6 then .returnValue
  else if i.val < 24 then .persistent
  else if i.val < 28 then .volatile
  else if i.val = 28 then .globalPointer
  else if i.val = 29 then .stackPointer
  else if i.val = 30 then .framePointer
  else .returnAddress

/-- A number below 100 in two decimal digits (R12). -/
def twoDigits (n : Nat) : String := toString (n / 10) ++ toString (n % 10)

/-- The ABI name of a FILE 0 register (R22). -/
def file0Name (i : Fin 32) : String :=
  match roleOf i with
  | .parameter => "FP_" ++ twoDigits i.val
  | .returnValue => "FR_" ++ twoDigits (i.val - 4)
  | .persistent => "PR_" ++ twoDigits (i.val - 6)
  | .volatile => "VR_" ++ twoDigits (i.val - 24)
  | .globalPointer => "GP"
  | .stackPointer => "SP"
  | .framePointer => "FP"
  | .returnAddress => "RA"

/-- The name of a FILE 1 register (R32). -/
def file1Name (i : Fin 32) : String := "VGPR_" ++ twoDigits i.val

/-- The names of the FILE 2 registers; slot `%17` has none (R37, R53). -/
def file2Names : List (Option String) :=
  [some "VR_04", some "VR_05", some "VR_06", some "VR_07", some "BR_00", some "BR_01", some "BR_02", some "BR_03"] ++
  [some "BR_04", some "BR_05", some "BM", some "PC", some "UEB_0", some "UEB_1", some "VFLG", some "VMSK"] ++
  [some "SMSK", none, some "UETP", some "FU0", some "FU1", some "FU2", some "PID", some "CSR"] ++
  [some "SEB_0", some "SEB_1", some "SETP", some "PTP", some "KR_0", some "KR_1", some "KR_2", some "KR_3"]

/-- How a register is written: its sigil and its number (R12, R137). -/
def designator (r : Reg) : String :=
  (match r.file with | .f0 => "$" | .f1 => "&" | .f2 => "%") ++ twoDigits r.idx.val

/-- The kinds of parameter and result the source's functions have or might have (R151 to R153). -/
inductive AbiType where
  | word
  | wide
  | floating
  | vector
  | aggregate
  deriving DecidableEq, Repr

/-- What a function takes and gives. -/
structure Signature where
  params : List AbiType
  results : List AbiType
  variadic : Bool
  deriving DecidableEq, Repr

/-- The functions the convention covers: at most four parameters and two results, each a word; the predicates below refuse any
other (R153). -/
def Signature.covered (f : Signature) : Bool :=
  !f.variadic && decide (f.params.length ≤ 4) && decide (f.results.length ≤ 2) && (f.params ++ f.results).all (· == .word)

/-- Parameters 0 to 3 are in `x[0]` to `x[3]`, the first in `x[0]` (R151). -/
def PassesParams {sh : Shape} (s : Core sh) (ps : List (BitVec sh.W)) : Prop :=
  ∀ k : Fin 4, ∀ p, ps[k.val]? = some p → s.x[k.val] = p

/-- The results are in `x[4]` and `x[5]`, the first in `x[4]` (R152). -/
def LeavesResults {sh : Shape} (t : Core sh) (rs : List (BitVec sh.W)) : Prop :=
  ∀ k : Fin 2, ∀ r, rs[k.val]? = some r → t.x[4 + k.val] = r

/-- `x[28]` holds the address the program's global and static variables are addressed from, if it uses one (R157, R267). -/
def HoldsGlobalBase {sh : Shape} (base : Option (BitVec sh.W)) (c : Core sh) : Prop := ∀ g, base = some g → c.x[28] = g

/-- The contract of GP, "while ABI-conforming code runs" (R157): it holds in every state of a run of such code. -/
def KeepsGlobalBase {sh : Shape} (base : Option (BitVec sh.W)) (run : List (Core sh)) : Prop := ∀ c ∈ run, HoldsGlobalBase base c

/-- What a callee owes: `s` at its first instruction, `t` at the caller's instruction after the call (R164). The persistent
registers and the return are the source's (R154, R160); SP, FP and GP are the spec's own choice (R162). -/
def CalleeOwes {sh : Shape} (s t : Core sh) : Prop :=
  (∀ i : Fin 32, roleOf i = .persistent → t.x[i] = s.x[i]) ∧
  t.x[29] = s.x[29] ∧ t.x[30] = s.x[30] ∧ t.x[28] = s.x[28] ∧ t.pc = s.x[31]

/-- What a caller may assume, and nothing about any other register (R155, R156, R162, R163, R164). -/
def CallerMayAssume {sh : Shape} (s t : Core sh) : Prop := CalleeOwes s t

/-- A call of a function with signature `f`, parameters `ps` and results `rs`, in a program with the global base `base`, follows the
convention, from `s` at the callee's first instruction to `t` at the caller's instruction after the call (R151, R152, R157, R164); of
a function that is not covered no call does (R153). Between `s` and `t` R157 asks for `KeepsGlobalBase`; whether a callee may change GP
there and set it back is not stated, so nothing is asked here (DESIGN CHOICE, log entry 40). -/
def FollowsAbi {sh : Shape} (f : Signature) (base : Option (BitVec sh.W)) (ps rs : List (BitVec sh.W)) (s t : Core sh) : Prop :=
  f.covered = true ∧ ps.length = f.params.length ∧ rs.length = f.results.length ∧
  PassesParams s ps ∧ KeepsGlobalBase base [s, t] ∧ CalleeOwes s t ∧ LeavesResults t rs

end Sys2Proof.Machine
end

