-- ==== Sys2Proof/Safety.lean ====
section
/-! DEFINITION. The terms the statements use: when an instruction meets no event, the state it then leaves, legal parameters, and
the invariant of the machine. -/

namespace Sys2Proof.Machine

open Sys2Proof

/-- The destinations of a record in file 1 (R9, `vwrites`). -/
def vdestsOf (r : Record) : List (Fin 32) := r.vwrites.map (·.d)

/-- The special operation is a restore (R184). -/
def isRestore : Special → Bool
  | .stateRestore _ => true
  | _ => false

/-- The special operation is a dump (R183). -/
def isDump : Special → Bool
  | .stateDump _ => true
  | _ => false

/-- No breakpoint register is active (R220: a register is active exactly when its mode is not `00000`). -/
def NoBreakpoints {sh : Shape} (m : Mach sh) : Prop := m.core.bm = 0#30

/-- The registers named may be used as they are (R232, R240 step 5): neither slot `%17` nor a write to PC, and in user mode no
starred register. -/
def allowed {sh : Shape} (m : Mach sh) (reads : List Reg) (dests : List Dest) : Bool :=
  !namesEmptySlot reads dests && !writesPc dests && (m.core.csr.sup || !touchesStarred reads dests)

/-- Nothing the instruction does can enter an event: no breakpoint register is active, auto exceptions are off, and it is no
privilege violation (R220, R227, R232). -/
def undisturbed {sh : Shape} (i : Instr) (m : Mach sh) : Prop :=
  NoBreakpoints m ∧ m.core.csr.exc = false ∧ m.violates (recordOf i m) = false

/-- A CSR `b` keeps the seven starred fields of `a` (R86). -/
def KeepsStarred (a b : Csr) : Prop :=
  b.sup = a.sup ∧ b.boot = a.boot ∧ b.con = a.con ∧ b.pag = a.pag ∧ b.uint = a.uint ∧ b.evt = a.evt ∧ b.hlt = a.hlt

/-- What a read of a FILE 2 register delivers after `v` was written to it, where `d` supplies its unused bits (R38, R45, R49, R50,
R69). -/
def storedContent (sh : Shape) (cfg : Params) (v d : Nat) : Slot → Nat
  | .bm => v % 2 ^ 30 ||| unusedPart 32 (2 ^ 30 - 1) d
  | .vmsk => v % 2 ^ sh.nl8 ||| unusedPart sh.vmskBits (2 ^ sh.nl8 - 1) d
  | .vflg => lanesToNat (fun k => lane8 v k % 128) sh.nl8 ||| unusedPart sh.vbits (lanesToNat (fun _ => 127) sh.nl8) d
  | .csr => (v % 2 ^ sh.csrBits &&& csrFieldMask cfg.csrLayout) ||| unusedPart sh.csrBits (csrFieldMask cfg.csrLayout) d
  | .fu0 => v % 2 ^ 32
  | .fu1 => v % 2 ^ 32
  | .fu2 => v % 2 ^ 32
  | .pid => v % 2 ^ 32
  | .ueb1 => v % 2 ^ sh.bufBits
  | .seb1 => v % 2 ^ sh.bufBits
  | _ => v % 2 ^ sh.W

/-- A step of this machine comes to its instruction (R240 steps 1 and 2): the core that steps is not halted, takes no interrupt,
holds no breakpoint mode the model refuses, and no instruction address breakpoint taken before the fetch matches. -/
def atInstruction {sh : Shape} (m : Mach sh) : Prop :=
  m.ready.core.csr.hlt = false ∧ takenIrq m.ready.core.csr m.nextMove.1 = none ∧ m.ready.core.checkModes = .ok () ∧
    m.ready.core.brkHits (selFetch m.ready.cfg.brkTiming) ⟨.l16, 0#64⟩ [] {} = []

/-- The machine with the effects of an instruction done, which leaves the registers `c` and the memory `mem` and goes on at
`next`, before an event is entered or the step counted (R240 step 9). -/
def settled {sh : Shape} (m : Mach sh) (c : Core sh) (mem : Memory) (next : BitVec sh.W) : Mach sh :=
  { m with mem := mem, core := { c with pc := next }.markImplicit m.cfg [.pcNext] }

/-- The state after such an instruction. -/
def advanced {sh : Shape} (m : Mach sh) (c : Core sh) (mem : Memory) (next : BitVec sh.W) : State :=
  ⟨sh, { settled m c mem next with draws := m.draws + 1 }⟩

/-- The address of the instruction after one with word `w` (R161). -/
def afterPc {sh : Shape} (m : Mach sh) (w : IWord) : BitVec sh.W := m.core.pc + BitVec.ofNat _ w.len.bytes

/-- The indexes of the machine's cores. -/
def coreIds {sh : Shape} (m : Mach sh) : List Nat := m.coreId :: m.parked.map (·.1)

/-- The law of `DUMP_FORMAT` (R183): in what a restore reads of the image a dump has written, every register whose usage bit was
1 has a value that restores it. -/
def DumpLaw (sh : Shape) (cfg : Params) : Prop :=
  ∀ (m s : Mach sh) (base : Nat) (cells : List Host.Cell), m.cfg = cfg → s.cfg = cfg → m.core.csr.pag = false →
    s.core.csr.pag = false → m.cellsOf true (m.dumpChunks base) = .ok cells → s.mem = Memory.setAll m.mem cells →
    ∀ vals accs, s.planRestore base = .ok (vals, accs) → ∀ r : Reg, r ≠ ⟨.f2, 17⟩ →
      (m.readSr useDump (match r.file with | .f0 => 19 | .f1 => 20 | .f2 => 21)).testBit r.idx.val = true →
      ∃ v, vals.reverse.lookup r = some v ∧ (r = ⟨.f2, 11⟩ → BitVec.ofNat sh.W v = m.core.pc) ∧
        ∀ c : Core sh, c.restoreReg cfg.csrLayout r v = c.restoreReg cfg.csrLayout r (m.readReg useDump r)

/-- Legal parameters (R4, R5, R60, R85, R183): the table of R5 and the laws it names. -/
def legalParams (sh : Shape) (cfg : Params) : Prop :=
  sh.wf = true ∧ csrLayoutWf cfg.csrLayout sh.csrBits = true ∧ cfg.bootCore < cfg.ncores ∧
  match cfg.dump with
  | .layout d => dumpLayoutWf sh d = true
  | .free => DumpLaw sh cfg

/-- The invariant of the machine: the memory is in its canonical form, every byte of it has an address of `WLEN` bits (R100),
and no two cores have one index (R96). -/
def Inv (s : State) : Prop :=
  Memory.wf s.m.mem = true ∧ (∀ c ∈ s.m.mem, c.1 < 2 ^ s.shape.W) ∧ (coreIds s.m).Nodup

/-- Every usage bit of `a` is also one of `b`. -/
def usageGrows (a b : BitVec 32) : Prop := a &&& b = a

end Sys2Proof.Machine
end

