-- ==== Sys2Proof/Certificates/Slice0/Obligations.lean ====
section
/-! DEFINITION. The statements for the provers. Each says which rule of spec/ it formalises or rests on. -/

section

open Sys2Proof Sys2Proof.Machine

/-! ### Encoding -/

/-- R140: in an instruction set whose words are told apart, the bytes of each instruction, whatever follows them, decode to it.
The words are the `ISA` parameter's (the spec's decision D1, log entry 1). -/
def Obligations.DecodeEncodeAgree : Prop :=
  ∀ (o : WordOrder) (isa : List Instr) (i : Instr) (rest : List Byte),
    isaWf o isa = true → i ∈ isa → decode o isa (encode o i ++ rest) = .ok i

/-- A few words of the sample set, written out. The words are the model's own (log entry 1). -/
def Obligations.SampleWordsDecode : Prop :=
  decode .little sampleIsa [0x01, 0x00, 0x00, 0x00] = .ok (.eventReturn (sampleWord 1)) ∧
  decode .little sampleIsa [0x06, 0x00, 0x00, 0x00] = .ok (.srRead (sampleWord 6) 24 12) ∧
  decode .little sampleIsa [0x0C, 0x00, 0x00, 0x00] = .ok (.ret (sampleWord 12)) ∧
  decode .little sampleIsa [0x0D, 0x00, 0x55] = .ok (.compressed ⟨.l16, 0x0D#64⟩ (.fixed sampleMove)) ∧
  decode .little sampleIsa [0x0F, 0x00, 0x00, 0x00] = .ok (.general (sampleWord 15) (.fixed sampleLoad)) ∧
  decode .little sampleIsa [0x00, 0x01, 0x00, 0x00] = .error .illegal

/-! ### The step -/

/-- R240: a step that comes to its instruction, whose bytes at a pc that may be fetched from decode to `i`, is `exec` of `i`. The
order of a step is the spec's decision D23. That the bytes are those that can be fetched, at most 8, is the model's choice (log
entry 33), and so is that an empty list of moves leaves the machine as it is, with the same core to step (log entry 7). -/
def Obligations.StepRunsDecodedInstruction : Prop :=
  ∀ (sh : Shape) (m : Mach sh) (i : Instr), atInstruction m → m.ready.checkAlign m.ready.core.pc.toNat 2 = .ok () →
    m.ready.decoded (m.ready.fetchable 8 m.ready.core.pc.toNat) = .ok i →
    step ⟨sh, m⟩ = exec i ⟨sh, m.ready⟩ ∧ (m.env = [] → m.ready = m)

/-- R101, R107, R240 step 3: with paging off, the instruction in force whose bytes memory holds at an even pc is the one fetched.
Which words are in force the CSR may say (R9). Rests on the spec's decisions D1, D27 and D28, and on the model's choices of log entries 33 and 36: that up
to 8 bytes are read, and that the bytes of a word stand in the order that the instruction set has, whatever `ENDIAN` is. -/
def Obligations.FetchReadsBytesAtPc : Prop :=
  ∀ (sh : Shape) (m : Mach sh) (i : Instr), m.core.csr.pag = false → m.core.pc.toNat % 2 = 0 →
    isaWf m.isa.order m.words = true → i ∈ m.words →
    (∀ k (hk : k < (encode m.isa.order i).length),
      Memory.get? m.mem ((m.core.pc.toNat + k) % 2 ^ sh.W) = some (encode m.isa.order i)[k]) →
    m.fetch = .ok i

/-- R136, U15: bytes the `ISA` parameter does not know, or answers `illegal` for in the current state, fault, and nothing is
entered. The spec's decision D1. That bytes that stop at one that cannot be read, and begin no word, fault as illegal and not as
unreadable is the model's choice (log entry 33). The second clause is what a free `ISA` answers for a body, a free value, so that no
concrete state shows it (log entry 19). -/
def Obligations.IllegalInstructionFaults : Prop :=
  (∀ (sh : Shape) (m : Mach sh), atInstruction m → m.ready.checkAlign m.ready.core.pc.toNat 2 = .ok () →
    m.ready.decoded (m.ready.fetchable 8 m.ready.core.pc.toNat) = .error .illegal →
    step ⟨sh, m⟩ = .fault .illegalInstruction) ∧
  ∀ (sh : Shape) (m : Mach sh) (i : Instr), legal i m = false → exec i ⟨sh, m⟩ = .fault .illegalInstruction

/-- R43, R45, R225: the code of breakpoint register `n` is `BM[5n+4 : 5n]`, and codes 19 to 31 stand for no mode; a running core
with such a code, or with mode 17 or 18 on a 32 bit machine, is refused its step, unless it takes an interrupt first. The spec's
decisions D6, D7 and D22. -/
def Obligations.RefusedBreakpointModes : Prop :=
  (∀ (bm : BitVec 30) (n : Fin 6), brkCode bm n = (bm.extractLsb' (5 * n.val) 5).toNat) ∧
  (∀ k, 19 ≤ k → k ≤ 31 → brkModeOf k = none) ∧
  ∀ (sh : Shape) (m : Mach sh), m.ready.core.csr.hlt = false → takenIrq m.ready.core.csr m.nextMove.1 = none →
    ((∃ n, 19 ≤ brkCode m.ready.core.bm n) → step ⟨sh, m⟩ = .refused .reservedBreakpointMode) ∧
    ((∀ n, brkCode m.ready.core.bm n ≤ 18) →
      ((sh.wlen = .w32 ∧ ∃ n, 17 ≤ brkCode m.ready.core.bm n) → step ⟨sh, m⟩ = .refused .breakpointModeTooWide) ∧
      ((sh.wlen = .w64 ∨ ∀ n, brkCode m.ready.core.bm n ≤ 16) → m.ready.core.checkModes = .ok ()))

/-- R221, R226: a running core whose PC equals `BR[n]`, with `BMF(n) = 00001`, takes an event before the instruction at that
address executes (reference `BRK_TIMING`): a breakpoint exception with exactly the registers that match, or, where an
instruction stands there, any one of the events due before it (R214), among which is a breakpoint exception that takes in those
registers. With no instruction there it is the first. "Before" is the spec's decision D23, all matches handed on in one exception
its D43; that either may be entered is log entry 12. -/
def Obligations.AddressBreakpointTaken : Prop :=
  ∀ (sh : Shape) (m : Mach sh) (n : Fin 6), m.ready.core.csr.hlt = false → takenIrq m.ready.core.csr m.nextMove.1 = none →
    m.ready.core.checkModes = .ok () → m.ready.cfg.brkTiming.instrAddr = .before →
    brkCode m.ready.core.bm n = 1 → m.ready.core.br[n] = m.ready.core.pc →
    ∃ hits, (∀ p, p ∈ hits ↔ p.2 = .instrAddr ∧ brkCode m.ready.core.bm p.1 = 1 ∧ m.ready.core.br[p.1] = m.ready.core.pc) ∧
      (step ⟨sh, m⟩ = outcome (m.ready.enter (.breakpoint hits) m.ready.core.pc none false) ∨
        ∃ i e, m.ready.fetch = .ok i ∧ answered i m.ready = true ∧
          ((e = .privilegeViolation ∧ m.ready.violates (recordOf i m.ready) = true) ∨
            ∃ hits', e = .breakpoint hits' ∧ ∀ p ∈ hits, p ∈ hits') ∧
          step ⟨sh, m⟩ = outcome (m.ready.enter e m.ready.core.pc (m.ready.knownNext i.word (recordOf i m.ready)) false)) ∧
      ((∀ i, m.ready.fetch ≠ .ok i) →
        step ⟨sh, m⟩ = outcome (m.ready.enter (.breakpoint hits) m.ready.core.pc none false))

/-- R234: the environment may let a running core take an interrupt it presents: an enabled one is entered, between
instructions; a disabled one is not, and the step goes on as if none were presented. How the environment presents interrupts is
the model's choice (log entries 7 and 21). -/
def Obligations.InterruptTakenWhenEnabled : Prop :=
  ∀ (sh : Shape) (m : Mach sh) (k : Nat) (i : Irq), m.ready.core.csr.hlt = false → m.nextMove.1.take = some k →
    m.nextMove.1.pending[k]? = some i →
    ((i.kind = .user ∧ m.ready.core.csr.uint = true) ∨ (i.kind = .supervisor ∧ m.ready.core.csr.sint = true) →
      step ⟨sh, m⟩ = outcome (m.ready.enter (.interrupt i) m.ready.core.pc (some m.ready.core.pc) true)) ∧
    (¬ ((i.kind = .user ∧ m.ready.core.csr.uint = true) ∨ (i.kind = .supervisor ∧ m.ready.core.csr.sint = true)) →
      m.untilInstr = m.ready.beforeInstr)

/-- R238, R236: a halted core fetches and executes nothing; a waking interrupt, and nothing else, ends the halted state, and
changes nothing else, but that its write of CSR is the hardware's own (R57, `FU_IMPLICIT`). The spec's decision D34. That the step
of a halted core, of which R10 says it has none, answers a next state in which only the environment's list has moved on is the
model's choice (log entries 25 and 7), and so is that the clear of HLT counts as such a write (log entry 17). -/
def Obligations.HaltedCoreWaits : Prop :=
  ∀ (sh : Shape) (m : Mach sh), m.ready.core.csr.hlt = true →
    ((∀ i ∈ m.nextMove.1.pending, i.kind ≠ .waking) → step ⟨sh, m⟩ = .next ⟨sh, m.ready⟩) ∧
    ((∃ i ∈ m.nextMove.1.pending, i.kind = .waking) →
      step ⟨sh, m⟩ = .next ⟨sh, { m.ready with
        core := { m.ready.core with csr := { m.ready.core.csr with hlt := false } }.markImplicit m.ready.cfg [.csrWake] }⟩)

/-! ### What each instruction does -/

/-- R181, R182, R210, R211: EVENT_RETURN moves the supervisor pair, in supervisor mode, or the user pair, in user mode, back into
PC and CSR, every field, and changes nothing else; PID and the buffers keep their contents. Which pair is the spec's decision D20,
that every field is loaded its D44. -/
def Obligations.EventReturnRestores : Prop :=
  ∀ (sh : Shape) (m : Mach sh) (w : IWord), NoBreakpoints m →
    exec (.eventReturn w) ⟨sh, m⟩ = .next ⟨sh, { m with
      draws := m.draws + 1
      core := { m.core with
        pc := if m.core.csr.sup then m.core.seb0 else m.core.ueb0
        csr := csrOfImage m.cfg.csrLayout
          ((if m.core.csr.sup then m.core.seb1 else m.core.ueb1).toNat % 2 ^ sh.csrBits) }.markImplicit m.cfg
            [.csrReturn, .pcReturn] }⟩

/-- R185: SET_VMSK writes the low `NL8` bits of its value to VMSK and sets `FU2[15]`; it needs no privilege. -/
def Obligations.SetVmskWrites : Prop :=
  ∀ (sh : Shape) (m : Mach sh) (w : IWord) (val : Operand), NoBreakpoints m → val.wf 0 = true →
    allowed m (operandReads val) [] = true →
    exec (.setVmsk w val) ⟨sh, m⟩ = .next (advanced m
      ({ m.core with
        vmsk := BitVec.ofNat sh.nl8 (m.operand useSpecial [] val)
        fu2 := m.core.fu2 ||| usageBit 15 }.markImplicit m.cfg [.fu2]) m.mem (afterPc m w))

/-- R186, R26: SR_READ of a slot that exists, a starred one in supervisor mode, writes the register's content to `x[d]`,
truncated to a word, sets `FU0[d]`, and changes nothing else but PC; a read of `%11` delivers the address of the reading
instruction. Widths are the spec's decision D37, privilege D15; unused bits log entry 28. -/
def Obligations.SrReadCompletes : Prop :=
  ∀ (sh : Shape) (m : Mach sh) (w : IWord) (d i : Fin 32), NoBreakpoints m → i ≠ 17 →
    (starred i = true → m.core.csr.sup = true) →
    exec (.srRead w d i) ⟨sh, m⟩ = .next (advanced m
      ({ m.core with
        x := m.core.x.set d (BitVec.ofNat sh.W (m.readSr (useWrite 0) i))
        fu0 := m.core.fu0 ||| usageBit d.val }.markImplicit m.cfg [.fu0]) m.mem (afterPc m w)) ∧
    BitVec.ofNat sh.W (m.readSr (useWrite 0) 11) = m.core.pc

/-- R187, R38: SR_WRITE completes for every slot but `%17` and `%11`, a starred one in supervisor mode; the register takes the
value truncated to its width, and its usage bit is set, except that a write of FU0, FU1 or FU2 stores what is written (R58). A
read of the register in the next step delivers that, unused bits apart; of FU2 it has every bit that was written as 1, and exactly
the value where no write of the hardware's own is counted. Widths are the spec's decision D37, privilege D15, implicit usage bits
log entry 17. -/
def Obligations.SrWriteCompletes : Prop :=
  ∀ (sh : Shape) (m : Mach sh) (w : IWord) (i : Fin 32) (s : Slot) (val : Operand), NoBreakpoints m → val.wf 0 = true →
    allowed m (operandReads val) [] = true → slotAt i = some s → s ≠ .pc → (starred i = true → m.core.csr.sup = true) →
    let v := m.operand (useWrite 0) [] val
    exec (.srWrite w i val) ⟨sh, m⟩ =
      .next (advanced m ((writeSlot m.cfg.csrLayout m.core v s).markWritten m.cfg i) m.mem (afterPc m w)) ∧
    ∀ t : Mach sh, exec (.srWrite w i val) ⟨sh, m⟩ = .next ⟨sh, t⟩ →
      (s ≠ .fu0 → s ≠ .fu1 → s ≠ .fu2 → t.core.fu2.getLsbD i.val = true) ∧
      ∀ u, ((s ≠ .fu2 ∨ (m.cfg.fuSet = [] ∧ m.cfg.fuFree = [])) →
          ∃ d, t.readSr u i = storedContent sh m.cfg v d s) ∧
        (s = .fu2 → ∀ j < 32, v.testBit j = true → (t.readSr u i).testBit j = true)

/-- R86, R232: in user mode a write of the CSR, whatever operand its value comes from, that leaves SUP, BOOT, CON, PAG, UINT, EVT
and HLT as they are is performed, one that changes any of them is a privilege violation, and so is a read of the CSR as a whole.
The same of every record that names the CSR as a destination and has no special operation, once its reads are made: a value that
changes a starred field is a violation, also where a store of the record would fault; where none does, the instruction completes.
The spec's decision D15; that the check comes before the stores its D23. -/
def Obligations.UserCsrAccess : Prop :=
  ∀ (sh : Shape) (m : Mach sh), NoBreakpoints m → m.core.csr.sup = false →
    let new (v : Nat) : Csr := csrOfImage m.cfg.csrLayout (v % 2 ^ sh.csrBits)
    (∀ (w : IWord) (val : Operand), val.wf 0 = true → allowed m (operandReads val) [] = true →
      let v := m.operand (useWrite 0) [] val
      (KeepsStarred m.core.csr (new v) → exec (.srWrite w 23 val) ⟨sh, m⟩ = .next (advanced m
        ({ m.core with csr := new v, fu2 := m.core.fu2 ||| usageBit 23 }.markImplicit m.cfg [.fu2]) m.mem (afterPc m w))) ∧
      (¬ KeepsStarred m.core.csr (new v) → exec (.srWrite w 23 val) ⟨sh, m⟩ =
        outcome (m.enter .privilegeViolation m.core.pc (some (afterPc m w)) false))) ∧
    (∀ (w : IWord) (d : Fin 32), exec (.srRead w d 23) ⟨sh, m⟩ =
      outcome (m.enter .privilegeViolation m.core.pc (some (afterPc m w)) false)) ∧
    ∀ (i : Instr) (loaded : List Nat) (accs : List Access), answered i m = true → (recordOf i m).special = .none →
      allowed m (recordReads (recordOf i m)) (destsOf (recordOf i m)) = true →
      m.loadAll (recordOf i m).dreads [] = .ok (loaded, accs) →
      ((∃ v, (.sr 23, v) ∈ m.writeVals loaded 0 (recordOf i m).writes ∧ ¬ KeepsStarred m.core.csr (new v)) →
        exec i ⟨sh, m⟩ = outcome (m.enter .privilegeViolation m.core.pc (m.knownNext i.word (recordOf i m)) false)) ∧
      ((∀ v, (.sr 23, v) ∈ m.writeVals loaded 0 (recordOf i m).writes → KeepsStarred m.core.csr (new v)) →
        m.core.csr.exc = false → ∀ eff, m.evaluate i.word (recordOf i m) = .ok eff →
        exec i ⟨sh, m⟩ = .next ⟨sh, { m.committed eff with draws := m.draws + 1 }⟩)

/-- R188: a supervisor write that sets HLT, whatever operand its value comes from, stops the core after the writing
instruction: the write completes, and the core's next step, with no waking interrupt, executes nothing. R188 is the spec's
inference from R83. That the step of a halted core answers the state it began in, and that an empty list presents no interrupt, is
the model's choice (log entries 25 and 7). -/
def Obligations.HaltByWrite : Prop :=
  ∀ (sh : Shape) (m : Mach sh) (w : IWord) (val : Operand), NoBreakpoints m → m.core.csr.sup = true → m.env = [] →
    val.wf 0 = true → allowed m (operandReads val) [] = true →
    (m.operand (useWrite 0) [] val % 2 ^ sh.csrBits).testBit m.cfg.csrLayout.hlt = true →
    ∃ t : Mach sh, exec (.srWrite w 23 val) ⟨sh, m⟩ = .next ⟨sh, t⟩ ∧ t.core.pc = afterPc m w ∧
      t.core.csr = csrOfImage m.cfg.csrLayout (m.operand (useWrite 0) [] val % 2 ^ sh.csrBits) ∧
      t.core.csr.hlt = true ∧ step ⟨sh, t⟩ = .next ⟨sh, t⟩

/-- R183: in supervisor mode, with paging off and every place of the image aligned, STATE_DUMP writes the image at its address,
byte for byte, whatever the format, and changes no register but PC and, where `FU_IMPLICIT` counts that write of PC, FU2 (log entry
17); FU0 and FU1 are unchanged. The image is the spec's decision D38 and log entry 15; where pieces of a free format overlap, the
order of their bytes is left open (R106, log entry 32). -/
def Obligations.StateDumpCompletes : Prop :=
  ∀ (sh : Shape) (m : Mach sh) (w : IWord) (addr : Operand), NoBreakpoints m → m.core.csr.sup = true →
    m.core.csr.pag = false → addr.wf 0 = true → allowed m (operandReads addr) [] = true →
    let chunks := m.dumpChunks (m.operand useSpecial [] addr % 2 ^ sh.W)
    let image := chunks.flatMap (plainCells sh m.cfg.endian)
    (∀ c ∈ chunks, c.addr % c.unit = 0) →
    ∃ cells, cells.Perm image ∧ ((storedAt image).Nodup → cells = image) ∧
      exec (.stateDump w addr) ⟨sh, m⟩ = .next (advanced m m.core (Memory.setAll m.mem cells) (afterPc m w))

/-- R184: in supervisor mode STATE_RESTORE of an image it can read writes every register the image holds with its saved value, PC
among them; those of FU0, FU1 and FU2 it does not hold are arbitrary (U18, free values). In a layout with file usage words those
say which registers it holds, and FU0, FU1, FU2 take them; one without holds every register of the layout. The image is the
spec's decision D38 and log entry 15. -/
def Obligations.StateRestoreCompletes : Prop :=
  ∀ (sh : Shape) (m : Mach sh), m.core.csr.sup = true →
    (∀ (w : IWord) (addr : Operand) (vals : List (Reg × Nat)) (accs : List Access), NoBreakpoints m → addr.wf 0 = true →
      allowed m (operandReads addr) [] = true → m.planRestore (m.operand useSpecial [] addr % 2 ^ sh.W) = .ok (vals, accs) →
      let c := vals.foldl (fun c p => Core.restoreReg m.cfg.csrLayout c p.1 p.2) m.core
      ∃ u0 u1 u2 : BitVec 32, (holdsSlot vals 19 = true → u0 = c.fu0) ∧ (holdsSlot vals 20 = true → u1 = c.fu1) ∧
        (holdsSlot vals 21 = true → u2 = c.fu2) ∧
        exec (.stateRestore w addr) ⟨sh, m⟩ = .next (advanced m { c with fu0 := u0, fu1 := u1, fu2 := u2, fuOpen := 0#32 } m.mem
          (match vals.reverse.lookup ⟨.f2, 11⟩ with
            | some v => BitVec.ofNat sh.W v
            | none => afterPc m w))) ∧
    ∀ (base : Nat) (d : DumpLayout) (f0 f1 f2 : Nat) (vs : List Nat), m.cfg.dump = .layout d →
      let a := base % 2 ^ sh.W
      let regs := heldRegs d f0 f1 f2
      (d.holdsFu = true → m.memRead .read a 4 = .ok f0 ∧ m.memRead .read (wrapAddr sh (a + 4)) 4 = .ok f1 ∧
        m.memRead .read (wrapAddr sh (a + 8)) 4 = .ok f2) →
      m.readChunks (regs.map fun r => imageChunk sh d a r 0) = .ok vs →
      ∃ accs, m.planRestore a = .ok (regs.zip vs ++
        (if d.holdsFu then [(⟨.f2, 19⟩, f0), (⟨.f2, 20⟩, f1), (⟨.f2, 21⟩, f2)] else []), accs)

/-- R183, R184, the law of `DUMP_FORMAT`: in any legal layout STATE_RESTORE of what STATE_DUMP wrote gives back every register whose
usage bit was 1, PC among them, whatever the registers hold by then; a layout without usage words gives back every register. The
other registers of FILE 0 and FILE 1 are left alone, and FU0, FU1 and FU2 are the saved ones, FU2 as the dump read it and with what
the restore's own write of PC marks. The image is the spec's decision D38 and log entry 15. -/
def Obligations.DumpThenRestore : Prop :=
  ∀ (sh : Shape) (m t s : Mach sh) (w w' : IWord) (base : Nat) (d : DumpLayout), NoBreakpoints s → s.core.csr.sup = true →
    m.core.csr.pag = false → s.core.csr.pag = false → m.cfg.dump = .layout d → dumpLayoutWf sh d = true →
    csrLayoutWf m.cfg.csrLayout sh.csrBits = true → (∀ c ∈ m.dumpChunks (base % 2 ^ sh.W), c.addr % c.unit = 0) →
    NoBreakpoints m → m.core.csr.sup = true → exec (.stateDump w (.const base)) ⟨sh, m⟩ = .next ⟨sh, t⟩ →
    s.cfg = m.cfg → s.mem = t.mem →
    let held (fu : Nat) (j : Fin 32) : Bool := !d.holdsFu || fu.testBit j.val
    ∃ u : Mach sh, exec (.stateRestore w' (.const base)) ⟨sh, s⟩ = .next ⟨sh, u⟩ ∧
      (∀ j : Fin 32, u.core.x[j] = if held m.core.fu0.toNat j then m.core.x[j] else s.core.x[j]) ∧
      (∀ j : Fin 32, u.core.v[j] = if held m.core.fu1.toNat j then m.core.v[j] else s.core.v[j]) ∧
      (∀ (j : Fin 32) (sl : Slot), slotAt j = some sl → sl ≠ .pc → sl ≠ .fu2 → held (m.readSr useDump 21) j = true →
        slotContent m.cfg.csrLayout u.core 0 sl = slotContent m.cfg.csrLayout m.core 0 sl) ∧
      (u.core.pc = if held (m.readSr useDump 21) 11 then m.core.pc else afterPc s w') ∧
      u.core.fu0 = m.core.fu0 ∧ u.core.fu1 = m.core.fu1 ∧
      u.core.fu2 = BitVec.ofNat 32 (m.readSr useDump 21) ||| implicitSet m.cfg [.pcNext]

/-- R171, R179: a vector instruction with 8-bit lanes, with or without flags (while auto exceptions are off, if it has any), writes
lane `k` of its destination where `VMSK[k] = 0` and leaves it where `VMSK[k] = 1`, sets `FU1[d]` whatever the mask, and changes
nothing else but VFLG and PC; its writes of FU1 and VFLG are the hardware's own (`FU_IMPLICIT`). Which bit masks which lane is the
spec's decision D8, that `FU1[d]` is set whatever the mask its D13. -/
def Obligations.VectorMaskedWrite : Prop :=
  ∀ (sh : Shape) (m : Mach sh) (w : IWord) (d : Fin 32) (srcs : List (Fin 32)) (res : VSrc) (flags : Option LaneFlagSrc),
    NoBreakpoints m → (flags = none ∨ m.core.csr.exc = false) →
    allowed m (vsrcReads res) [] = true → (∀ f, flags = some f → allowed m (laneFlagSrcReads f) [] = true) →
    ∃ val : BitVec sh.vbits,
      (∀ k < sh.nl8, lane8 val.toNat k =
        if m.core.vmsk.getLsbD k then lane8 m.core.v[d].toNat k else lane8 (m.vsource (useVector 0) [] res).toNat k) ∧
      exec (.vectorOp w d 1 srcs res flags) ⟨sh, m⟩ = .next (advanced m
        ({ m.core with
          v := m.core.v.set d val
          vflg := match flags with
            | none => m.core.vflg
            | some f => m.newVflg 1 (m.laneGens useLaneFlags [] f) m.core.vflg
          fu1 := m.core.fu1 ||| usageBit d.val }.markImplicit m.cfg (if flags = none then [.fu1] else [.fu1, .vflg]))
        m.mem (afterPc m w))

/-- R170, R172: a vector instruction of any lane width, with or without flags, completes while auto exceptions are off: its
destination takes the masked result, VFLG its lanes' flags, and nothing else changes but FU1 and PC. Under the reference rule a
lane of `lb` bytes is masked by the bit of its lowest byte, `VMSK[j*w/8]`. The rules of wide lanes are the spec's decisions D9 and
D11; the rules the model offers beside the reference ones are log entry 16, a width that does not divide `VBITS` log entry 27. -/
def Obligations.VectorOpCompletes : Prop :=
  ∀ (sh : Shape) (m : Mach sh) (w : IWord) (d : Fin 32) (lb : Nat) (srcs : List (Fin 32)) (res : VSrc)
    (flags : Option LaneFlagSrc), NoBreakpoints m → m.core.csr.exc = false → 1 ≤ lb →
    allowed m (vsrcReads res) [] = true → (∀ f, flags = some f → allowed m (laneFlagSrcReads f) [] = true) →
    let val := maskedWrite m.cfg.laneMask m.core.vmsk lb m.core.v[d] (m.vsource (useVector 0) [] res)
    exec (.vectorOp w d lb srcs res flags) ⟨sh, m⟩ = .next (advanced m
      ({ m.core with
        v := m.core.v.set d val
        vflg := match flags with
          | none => m.core.vflg
          | some f => m.newVflg lb (m.laneGens useLaneFlags [] f) m.core.vflg
        fu1 := m.core.fu1 ||| usageBit d.val }.markImplicit m.cfg (if flags = none then [.fu1] else [.fu1, .vflg]))
      m.mem (afterPc m w)) ∧
    (m.cfg.laneMask = .lowest → ∀ k < sh.nl8, lane8 val.toNat k =
      if m.core.vmsk.getLsbD (k / lb * lb) then lane8 m.core.v[d].toNat k
      else lane8 (m.vsource (useVector 0) [] res).toNat k)

/-- R173: a masked lane of the destination keeps its old value, whatever the lane width, the mask rule, and whatever event is
entered. R173 is the spec's inference from R171. -/
def Obligations.MaskedLaneKeepsValue : Prop :=
  ∀ (sh : Shape) (m m' : Mach sh) (w : IWord) (d : Fin 32) (lb : Nat) (srcs : List (Fin 32)) (res : VSrc)
    (flags : Option LaneFlagSrc) (k : Nat), exec (.vectorOp w d lb srcs res flags) ⟨sh, m⟩ = .next ⟨sh, m'⟩ →
    k < sh.nl8 → laneMasked m.cfg.laneMask m.core.vmsk lb (laneOf lb k) = true →
    lane8 m'.core.v[d].toNat k = lane8 m.core.v[d].toNat k

/-- R51: bit `k` of VMSK governs smallest lane `k`: a 0 lets it write the result, a 1 does not; and a value of all 0s results
in unconditional vector execution, for every lane width and mask rule. The index correspondence is the spec's decision D8. -/
def Obligations.VectorMaskPolarity : Prop :=
  ∀ (n : Nat) (rule : LaneMaskRule) (old res : BitVec (8 * n)),
    (∀ (vmsk : BitVec n) (k : Nat), k < n →
      lane8 (maskedWrite rule vmsk 1 old res).toNat k = if vmsk.getLsbD k then lane8 old.toNat k else lane8 res.toNat k) ∧
    ∀ lb, 1 ≤ lb → maskedWrite rule 0#n lb old res = res

/-- R174, R172: after a vector instruction with flags the flag group of an allowed lane holds the flags the lane generated, the
others kept: of 8-bit lanes, whatever the rules of wide lanes are, lane `k` is allowed by `VMSK[k]` and has group `k`; of lanes of
`lb` bytes, under the reference rules, lane `j` is allowed by `VMSK[j*lb]` and writes group `j*lb`. Nothing is said of a masked
lane's group (a free value, R175), nor of the other groups of a wide lane. The spec's decisions D8, D9, D10 and D11; of a lane the
instruction lists no flags for, log entry 34. -/
def Obligations.VectorFlagsPerLane : Prop :=
  ∀ (sh : Shape) (m : Mach sh) (lb : Nat) (gens : List FlagGen) (j : Nat) (k : Fin sh.nl8) (f : Flag),
    1 ≤ lb → k.val = j * lb → (lb = 1 ∨ (m.cfg.laneMask = .lowest ∧ m.cfg.laneFlag = .lowest)) →
    m.core.vmsk.getLsbD (j * lb) = false →
    flagOf (m.newVflg lb gens m.core.vflg)[k] f =
      if flagOf (laneGen gens j).which f then flagOf (laneGen gens j).val f else flagOf m.core.vflg[k] f

/-- R177, R176, R171, R173: when the 8-bit lanes of a vector instruction generate DIV0 and no other flag, with auto exceptions on
for DIV0 (R227) and at least one lane that the mask allows generating it as 1, exactly one DIV0 exception is entered, after the flags
of all allowed lanes are set and their results written; a masked lane keeps its old value. Which bit masks which lane is the spec's
decision D8, and R173 is its inference from R171. -/
def Obligations.VectorDivisionTrapsOnce : Prop :=
  ∀ (sh : Shape) (m : Mach sh) (w : IWord) (d : Fin 32) (srcs : List (Fin 32)) (res : VSrc) (lanes : List Bool) (j : Nat),
    NoBreakpoints m → m.core.csr.exc = true → m.cfg.autoExc.div0 = true →
    allowed m (vsrcReads res) [] = true → lanes.getD j false = true → j < sh.nl8 → m.core.vmsk.getLsbD j = false →
    ∃ t : Mach sh, exec (.vectorOp w d 1 srcs res
        (some (.fixed (lanes.map fun b => ⟨{ div0 := true }, { div0 := b }⟩)))) ⟨sh, m⟩ =
      outcome (t.enter (.flagException .div0) m.core.pc (some (afterPc m w)) true) ∧
      (∀ k : Fin sh.nl8, k.val < lanes.length → m.core.vmsk.getLsbD k.val = false →
        t.core.vflg[k].div0 = lanes.getD k.val false) ∧
      (∀ k < sh.nl8, lane8 t.core.v[d].toNat k =
        if m.core.vmsk.getLsbD k then lane8 m.core.v[d].toNat k else lane8 (m.vsource (useVector 0) [] res).toNat k) ∧
      t.core.pc = afterPc m w ∧ t.core.csr = m.core.csr

/-- R161, R164, R151 to R153, R157: CALL puts the address of the instruction after it into `x[31]` and goes to the target; RETURN goes to
`x[31]`; neither writes a flag. A RETURN right after a CALL gives back what a callee owes: the persistent registers, SP, FP, GP, and
the pc; so such a call of a covered function, its parameters in `x[0]` to `x[3]` and its results, if any, already in `x[4]` and
`x[5]`, and with `x[28]` holding the program's global base, follows the convention and keeps that base, and no call follows it with more than four parameters, with more than two results or with any that
is no word. The return address is the spec's inference in R161, SP, FP and GP its decision D41. -/
def Obligations.CallAndReturn : Prop :=
  (∀ (sh : Shape) (m : Mach sh) (w : IWord) (target : Operand), NoBreakpoints m →
    (target.wf 0 = true → allowed m (operandReads target) [] = true →
      exec (.call w target) ⟨sh, m⟩ = .next (advanced m
        ({ m.core with
          x := m.core.x.set 31 (m.core.pc + BitVec.ofNat sh.W w.len.bytes)
          fu0 := m.core.fu0 ||| usageBit 31 }.markImplicit m.cfg [.fu0]) m.mem
        (BitVec.ofNat sh.W (m.operand useNext [] target)))) ∧
    exec (.ret w) ⟨sh, m⟩ = .next (advanced m m.core m.mem m.core.x[31]) ∧
    (∀ (s t : Mach sh) (w' : IWord), target.wf 0 = true → allowed m (operandReads target) [] = true →
      exec (.call w target) ⟨sh, m⟩ = .next ⟨sh, s⟩ → exec (.ret w') ⟨sh, s⟩ = .next ⟨sh, t⟩ →
      CalleeOwes s.core t.core ∧ t.core.pc = afterPc m w ∧
      ∀ (f : Signature) (base : Option (BitVec sh.W)) (ps rs : List (BitVec sh.W)), HoldsGlobalBase base m.core →
        KeepsGlobalBase base [m.core, s.core, t.core] ∧ (f.covered = true → ps.length = f.params.length →
        rs.length = f.results.length → (∀ k : Fin 4, ∀ p, ps[k.val]? = some p → m.core.x[k.val] = p) →
        (∀ k : Fin 2, ∀ r, rs[k.val]? = some r → m.core.x[4 + k.val] = r) →
        FollowsAbi f base ps rs s.core t.core))) ∧
  ∀ (sh : Shape) (f : Signature) (base : Option (BitVec sh.W)) (ps rs : List (BitVec sh.W)) (s t : Core sh), FollowsAbi f base ps rs s t →
    ps.length ≤ 4 ∧ rs.length ≤ 2 ∧ f.variadic = false ∧ (∀ ty ∈ f.params ++ f.results, ty = .word) ∧
    ∀ g, base = some g → s.x[28] = g ∧ t.x[28] = g

/-- R26, R25: an instruction, compressed or not, with one explicit destination `x[d]`, for every `d`, writes the value
truncated to a word, sets bit `d` of FU0, and changes nothing else but PC. Truncation is the spec's decision D37; the record's
form D1. -/
def Obligations.ScalarWrite : Prop :=
  ∀ (sh : Shape) (m : Mach sh) (w : IWord) (d : Fin 32) (o : Operand) (i : Instr), NoBreakpoints m → o.wf 0 = true →
    allowed m (operandReads o) [] = true →
    (i = .compressed w (.fixed { writes := [(.x d, o)] }) ∨ i = .general w (.fixed { writes := [(.x d, o)] })) →
    exec i ⟨sh, m⟩ = .next (advanced m
      ({ m.core with
        x := m.core.x.set d (BitVec.ofNat sh.W (m.operand (useWrite 0) [] o))
        fu0 := m.core.fu0 ||| usageBit d.val }.markImplicit m.cfg [.fu0]) m.mem (afterPc m w))

/-- R9, R240 steps 6 to 9: an instruction, compressed or not, whatever record it has, completes with all the record's effects when
it is not disturbed, names neither slot `%17` nor PC as a destination, and its reads and stores are made. The spec's decisions D1
and D23. -/
def Obligations.AnyRecordCompletes : Prop :=
  ∀ (sh : Shape) (m : Mach sh) (w : IWord) (b : Body) (r : Record) (eff : Effect sh) (i : Instr),
    (i = .compressed w b ∨ i = .general w b) → m.record b = some r → r.wf = true → undisturbed i m →
    namesEmptySlot (recordReads r) (destsOf r) = false → .sr 11 ∉ destsOf r → m.evaluate w r = .ok eff →
    exec i ⟨sh, m⟩ = .next ⟨sh, { m with
      draws := m.draws + 1
      mem := Memory.setAll m.mem eff.cells
      core := { m.withFlags eff (m.performed eff) with pc := eff.next }.markImplicit m.cfg [pcWrite eff.plan] }⟩

/-- R102, R104: a store of any of the four widths, with paging off and at an aligned address, writes its value's bytes in the
byte order of the machine from that address on, and changes no register but PC. The spec's decisions D25 and D28. -/
def Obligations.StoreCompletes : Prop :=
  ∀ (sh : Shape) (m : Mach sh) (w : IWord) (a v : Operand) (sz : Size) (i : Instr), NoBreakpoints m →
    m.core.csr.pag = false → a.wf 0 = true → v.wf 0 = true → allowed m (operandReads a ++ operandReads v) [] = true →
    (i = .compressed w (.fixed { dwrites := [⟨a, sz, v⟩] }) ∨ i = .general w (.fixed { dwrites := [⟨a, sz, v⟩] })) →
    let addr := m.operand (useStoreAddr 0) [] a % 2 ^ sh.W
    addr % sz.bytes = 0 →
    exec i ⟨sh, m⟩ = .next (advanced m m.core
      (Memory.setAll m.mem (plainCells sh m.cfg.endian ⟨addr, sz.bytes, sz.bytes, m.operand (useStoreVal 0) [] v⟩))
      (afterPc m w))

/-- R102, R104: a load of any of the four widths whose read is made writes what memory holds to `x[d]`, truncated to a word,
and changes nothing else but FU0 and PC; where the read faults, so does the instruction, with no effect. The spec's decisions
D25, D26 and D28. -/
def Obligations.LoadCompletesOrFaults : Prop :=
  ∀ (sh : Shape) (m : Mach sh) (w : IWord) (a : Operand) (d : Fin 32) (sz : Size) (i : Instr), NoBreakpoints m →
    a.wf 0 = true → allowed m (operandReads a) [] = true →
    (i = .compressed w (.fixed { dreads := [⟨a, sz⟩], writes := [(.x d, .loaded 0)] }) ∨
      i = .general w (.fixed { dreads := [⟨a, sz⟩], writes := [(.x d, .loaded 0)] })) →
    let addr := m.operand (useRead 0) [] a % 2 ^ sh.W
    (∀ v, m.memRead .read addr sz.bytes = .ok v →
      exec i ⟨sh, m⟩ = .next (advanced m (m.core.regWrite m.cfg (.x d) v) m.mem (afterPc m w))) ∧
    (∀ f, m.memRead .read addr sz.bytes = .error (.fault f) → exec i ⟨sh, m⟩ = .fault f)

/-- R57: every register an instruction names as an explicit destination has its file usage bit set in the next state, whichever
instruction it is and whatever value is written; FU0, FU1, FU2 themselves are R58's. The spec's decisions D12 and D13. -/
def Obligations.ExplicitWriteSetsUsageBit : Prop :=
  ∀ (sh : Shape) (m m' : Mach sh) (i : Instr), undisturbed i m → exec i ⟨sh, m⟩ = .next ⟨sh, m'⟩ →
    (recordOf i m).special = .none → (∀ j : Fin 32, 19 ≤ j.val → j.val ≤ 21 → .sr j ∉ destsOf (recordOf i m)) →
    (∀ j : Fin 32, .x j ∈ destsOf (recordOf i m) → m'.core.fu0.getLsbD j.val = true) ∧
    (∀ j : Fin 32, .sr j ∈ destsOf (recordOf i m) → m'.core.fu2.getLsbD j.val = true) ∧
    (∀ d ∈ vdestsOf (recordOf i m), m'.core.fu1.getLsbD d.val = true)

/-! ### Registers and images -/

/-- R44: the nineteen mode codes and what each stands for. -/
def Obligations.BreakpointModeTable : Prop :=
  brkModeOf 0 = some .disabled ∧ brkModeOf 1 = some .instrAddr ∧
  brkModeOf 2 = some (.dataRead .b8) ∧ brkModeOf 3 = some (.dataRead .b16) ∧
  brkModeOf 4 = some (.dataRead .b32) ∧ brkModeOf 5 = some (.dataRead .b64) ∧
  brkModeOf 6 = some (.dataWrite .b8) ∧ brkModeOf 7 = some (.dataWrite .b16) ∧
  brkModeOf 8 = some (.dataWrite .b32) ∧ brkModeOf 9 = some (.dataWrite .b64) ∧
  brkModeOf 10 = some (.flag .covr) ∧ brkModeOf 11 = some (.flag .cund) ∧ brkModeOf 12 = some (.flag .ovfl) ∧
  brkModeOf 13 = some (.flag .unfl) ∧ brkModeOf 14 = some (.flag .div0) ∧
  brkModeOf 15 = some (.instrWord .l16) ∧ brkModeOf 16 = some (.instrWord .l32) ∧
  brkModeOf 17 = some (.instrWord .l48) ∧ brkModeOf 18 = some (.instrWord .l64)

/-- R37: which register each slot of FILE 2 reads as, the registers with unused bits by their significant ones, VFLG apart
(R49); the CSR under any legal layout (R85); FU2 but for the bits of which it is open whether the hardware has set them (log entry
17). Widths are the spec's decision D37. -/
def Obligations.FileTwoSlots : Prop :=
  ∀ (sh : Shape) (m : Mach sh) (u : Nat),
    m.readSr u 0 = m.core.vr[0].toNat ∧ m.readSr u 1 = m.core.vr[1].toNat ∧ m.readSr u 2 = m.core.vr[2].toNat ∧
    m.readSr u 3 = m.core.vr[3].toNat ∧ m.readSr u 4 = m.core.br[0].toNat ∧ m.readSr u 5 = m.core.br[1].toNat ∧
    m.readSr u 6 = m.core.br[2].toNat ∧ m.readSr u 7 = m.core.br[3].toNat ∧ m.readSr u 8 = m.core.br[4].toNat ∧
    m.readSr u 9 = m.core.br[5].toNat ∧ m.readSr u 10 % 2 ^ 30 = m.core.bm.toNat ∧ m.readSr u 11 = m.core.pc.toNat ∧
    m.readSr u 12 = m.core.ueb0.toNat ∧ m.readSr u 13 = m.core.ueb1.toNat ∧
    m.readSr u 15 % 2 ^ sh.nl8 = m.core.vmsk.toNat ∧ m.readSr u 16 = m.core.smsk.toNat ∧
    m.readSr u 18 = m.core.uetp.toNat ∧ m.readSr u 19 = m.core.fu0.toNat ∧ m.readSr u 20 = m.core.fu1.toNat ∧
    (∀ j < 32, m.core.fu2.getLsbD j = true → (m.readSr u 21).testBit j = true) ∧
    (∀ j < 32, m.core.fuOpen.getLsbD j = false → (m.readSr u 21).testBit j = m.core.fu2.getLsbD j) ∧
    (csrLayoutWf m.cfg.csrLayout sh.csrBits = true → csrOfImage m.cfg.csrLayout (m.readSr u 23) = m.core.csr) ∧
    m.readSr u 22 = m.core.pid.toNat ∧ m.readSr u 24 = m.core.seb0.toNat ∧
    m.readSr u 25 = m.core.seb1.toNat ∧ m.readSr u 26 = m.core.setp.toNat ∧ m.readSr u 27 = m.core.ptp.toNat ∧
    m.readSr u 28 = m.core.kr[0].toNat ∧ m.readSr u 29 = m.core.kr[1].toNat ∧ m.readSr u 30 = m.core.kr[2].toNat ∧
    m.readSr u 31 = m.core.kr[3].toNat

/-- R49: bit `8k + j` of VFLG, as a read of slot `%14` delivers it, is flag `j` of smallest lane `k`, in the order of R61. The
spec's decision D10. -/
def Obligations.VflgLayout : Prop :=
  ∀ (sh : Shape) (m : Mach sh) (u : Nat) (k : Fin sh.nl8),
    (m.readSr u 14).testBit (8 * k.val) = m.core.vflg[k].covr ∧
    (m.readSr u 14).testBit (8 * k.val + 1) = m.core.vflg[k].cund ∧
    (m.readSr u 14).testBit (8 * k.val + 2) = m.core.vflg[k].ovfl ∧
    (m.readSr u 14).testBit (8 * k.val + 3) = m.core.vflg[k].unfl ∧
    (m.readSr u 14).testBit (8 * k.val + 4) = m.core.vflg[k].div0 ∧
    (m.readSr u 14).testBit (8 * k.val + 5) = m.core.vflg[k].zero ∧
    (m.readSr u 14).testBit (8 * k.val + 6) = m.core.vflg[k].sign

/-- R85: under any legal `CSR_LAYOUT` the image of the CSR fits `CSR_BITS` and holds every field: reading it back, also from a
wider register and with any unused bits, gives the CSR. The spec's decisions D3, D4 and D5. -/
def Obligations.CsrImageHoldsEveryField : Prop :=
  ∀ (l : CsrLayout) (bits : Nat) (c : Csr) (d : Nat), csrLayoutWf l bits = true →
    csrImage l c < 2 ^ bits ∧ csrOfImage l (csrImage l c ||| unusedPart bits (csrFieldMask l) d) = c

/-- R38: a FILE 2 register reads back what was written to it, modulo its width, for every slot but PC; unused bits apart. The
spec's decisions D36 and D37. -/
def Obligations.SlotReadsWhatWasWritten : Prop :=
  ∀ (sh : Shape) (cfg : Params) (c : Core sh) (s : Slot) (v d : Nat), s ≠ .pc →
    slotContent cfg.csrLayout (writeSlot cfg.csrLayout c v s) d s = storedContent sh cfg v d s

/-! ### Memory -/

/-- R104: in `little` order byte `k` of the value read is the byte at the `k`-th address, in `big` order the `k`-th from the
last; writing is the inverse of reading. The spec's decision D25. -/
def Obligations.ByteOrder : Prop :=
  (∀ (bs : List Byte) (k : Nat) (hk : k < bs.length),
    ofBytes .little bs / 256 ^ k % 256 = bs[k].toNat ∧
    ofBytes .big bs / 256 ^ (bs.length - 1 - k) % 256 = bs[k].toNat ∧
    ofBytes .little bs < 256 ^ bs.length ∧ ofBytes .big bs < 256 ^ bs.length) ∧
  ∀ (e : Endian) (n v : Nat), (toBytes e n v).length = n ∧ ofBytes e (toBytes e n v) = v % 256 ^ n

/-- R101, R104: with paging off, what a store has written at an aligned address is what a read of the same width there
delivers, and every byte outside it reads as before. The spec's decisions D25, D27 and D28. -/
def Obligations.MemoryReadAfterWrite : Prop :=
  ∀ (sh : Shape) (m m' : Mach sh) (sz : Size) (addr v : Nat), m'.core.csr.pag = false → addr % sz.bytes = 0 →
    m'.mem = Memory.setAll m.mem (plainCells sh m'.cfg.endian ⟨addr, sz.bytes, sz.bytes, v⟩) →
    m'.memRead .read addr sz.bytes = .ok (v % 2 ^ sz.bits) ∧
    ∀ p, p ∉ chunkPlaces sh ⟨addr, sz.bytes, sz.bytes, v⟩ → Memory.get? m'.mem p = Memory.get? m.mem p

/-- R105: under `MISALIGNED = fault`, an access of `n` bytes at an address that is no multiple of `n` faults, and so does a
fetch at an odd address; under `split` neither does for its alignment, under `any` it may; an aligned access never does. The
spec's decision D26; `any` is log entry 10. -/
def Obligations.AlignmentRule : Prop :=
  ∀ (sh : Shape) (m : Mach sh) (a n : Nat),
    (a % n = 0 → m.checkAlign a n = .ok ()) ∧
    (m.cfg.misaligned = .split → m.checkAlign a n = .ok ()) ∧
    (m.cfg.misaligned = .any → m.checkAlign a n = .ok () ∨ m.checkAlign a n = .error (.fault (.misaligned a))) ∧
    (m.cfg.misaligned = .fault → a % n ≠ 0 →
      (∀ k, m.memRead k a n = .error (.fault (.misaligned a))) ∧
      (∀ (wide : Bool) (c : Chunk) (cs : List Chunk), c.addr = a → c.unit = n →
        m.cellsOf wide (c :: cs) = .error (.fault (.misaligned a)))) ∧
    (m.cfg.misaligned = .fault → m.core.pc.toNat % 2 ≠ 0 → m.fetch = .error (.fault (.misaligned m.core.pc.toNat)))

/-- R107, R108, R109: with paging off the physical address of every fetch, read and store is its logical address, whatever PTP and
PID hold; with paging on it is what `TRANSLATE` answers for each byte, and a page event faults. It is asked at every access: of the
events that store an instruction's data, the ones after the first are translated over the memory that the first has left. The spec's
decision D28; byte by byte and event by event, log entry 9. -/
def Obligations.TranslationRule : Prop :=
  (∀ (sh : Shape) (m : Mach sh) (k : AccessKind) (a : Nat) (b : Byte),
    (m.core.csr.pag = false → m.translate k a = .ok a ∧ m.readByte k a = m.physByte a ∧
      m.translateCells [(a, b)] = .ok [(a, b)]) ∧
    (m.core.csr.pag = true → ∀ p, m.translation k a = some p →
      m.translate k a = .ok (p % 2 ^ sh.W) ∧ m.readByte k a = m.physByte (p % 2 ^ sh.W) ∧
      (k = .write → m.translateCells [(a, b)] = .ok [(p % 2 ^ sh.W, b)])) ∧
    (m.core.csr.pag = true → m.translation k a = none →
      m.translate k a = .error (.fault (.pageEvent a)) ∧ m.readByte k a = .error (.fault (.pageEvent a)) ∧
      (k = .write → m.translateCells [(a, b)] = .error (.fault (.pageEvent a))))) ∧
  ∀ (sh : Shape) (m : Mach sh) (event : List Host.Cell) (events : List (List Host.Cell)) (cells rest : List Host.Cell),
    m.eventCells events.length event = .ok cells →
    ({ m with mem := Memory.setAll m.mem cells } : Mach sh).storeCells events = .ok rest →
    m.storeCells (event :: events) = .ok (cells ++ rest) ∧
      ∃ translated, m.translateCells event = .ok translated ∧ cells.Perm translated

/-! ### Events -/

/-- R53, R189: an instruction, whichever, that names slot `%17` is refused, and one that names PC as a destination is refused; in
user mode also where it names a starred register too, which R240 does not order (log entry 30). The spec's decision D35. -/
def Obligations.EmptySlotAndPcRefused : Prop :=
  ∀ (sh : Shape) (m : Mach sh) (i : Instr), NoBreakpoints m → answered i m = true →
    (namesEmptySlot (recordReads (recordOf i m)) (destsOf (recordOf i m)) = true →
      exec i ⟨sh, m⟩ = .refused .emptySlot) ∧
    (namesEmptySlot (recordReads (recordOf i m)) (destsOf (recordOf i m)) = false →
      .sr 11 ∈ destsOf (recordOf i m) → exec i ⟨sh, m⟩ = .refused .pcWrite)

/-- R232, R183, R184: in user mode an instruction, whichever, that names a starred register as a source, or one other than the
CSR as a destination, or that is a dump or a restore, raises a privilege violation before it has any effect. The spec's
decisions D15 and D38. -/
def Obligations.PrivilegeViolationRaised : Prop :=
  ∀ (sh : Shape) (m : Mach sh) (i : Instr), NoBreakpoints m → answered i m = true → m.core.csr.sup = false →
    namesEmptySlot (recordReads (recordOf i m)) (destsOf (recordOf i m)) = false →
    .sr 11 ∉ destsOf (recordOf i m) →
    ((∃ r ∈ recordReads (recordOf i m), r.file = .f2 ∧ 19 ≤ r.idx.val) ∨
      (∃ j : Fin 32, .sr j ∈ destsOf (recordOf i m) ∧ 19 ≤ j.val ∧ j ≠ 23) ∨
      isDump (recordOf i m).special = true ∨ isRestore (recordOf i m).special = true) →
    exec i ⟨sh, m⟩ = outcome (m.enter .privilegeViolation m.core.pc (m.knownNext i.word (recordOf i m)) false)

/-- R204, R208: entry to an event whose handler is found: a user event saves the pc and the CSR in UEB_0 and UEB_1, a supervisor
event in SEB_0 and SEB_1, which also changes PID to the kernel's if it is promoting; the CSR and PC are the handler's, and nothing
else changes but the usage bits of those writes (`FU_IMPLICIT`). The CSR after entry is the spec's decision D16, dispatch its D18;
that the saved image has its unused bits 0 is the model's choice (log entry 14), and so is that the handler is looked up with PID and
CSR already changed (log entry 11). -/
def Obligations.EventEntrySaves : Prop :=
  ∀ (sh : Shape) (m : Mach sh) (e : Event) (saved h : BitVec sh.W), csrLayoutWf m.cfg.csrLayout sh.csrBits = true →
    ∃ image : BitVec sh.bufBits, image.toNat = csrImage m.cfg.csrLayout m.core.csr ∧
    (m.core.csr.sup = false → (m.saving e .user saved).handler m.core.uetp e = .ok h →
      m.enterAs e .user saved = .ok { m with
        draws := m.draws + 1
        core := { m.core with
          ueb0 := saved
          ueb1 := image
          csr := entryCsr m.cfg.eventEntryCsr m.core.csr .user e
          pc := h }.markImplicit m.cfg [.ueb0, .ueb1, .csrEvent, .pcEvent] }) ∧
    ((m.saving e .supervisor saved).handler m.core.setp e = .ok h →
      m.enterAs e .supervisor saved = .ok { m with
        draws := m.draws + 1
        core := { m.core with
          seb0 := saved
          seb1 := image
          pid := if m.core.csr.sup then m.core.pid else m.cfg.kernelPid
          csr := entryCsr m.cfg.eventEntryCsr m.core.csr .supervisor e
          pc := h }.markImplicit m.cfg
            (if m.core.csr.sup then [.seb0, .seb1, .csrEvent, .pcEvent] else [.seb0, .seb1, .pid, .csrEvent, .pcEvent]) })

/-- R206: the CSR after entry: SUP is 1 in a supervisor event and unchanged in a user event, and HLT is 0; the reference
instantiation sets EVT and leaves every other field. The spec's decision D16. -/
def Obligations.EntryCsrConstraints : Prop :=
  ∀ (ch : Choice) (c : Csr) (e : Event),
    (entryCsr ch c .supervisor e).sup = true ∧ (entryCsr ch c .user e).sup = c.sup ∧
    (∀ cls, (entryCsr ch c cls e).hlt = false) ∧
    entryCsr .reference c .supervisor e = { c with evt := true, sup := true, hlt := false } ∧
    entryCsr .reference c .user e = { c with evt := true, hlt := false }

/-- R202, R234: an interrupt's class is its kind, and entering a user-class event in supervisor mode is refused. The spec's
decision D19; an interrupt's class log entry 21. -/
def Obligations.EventClassRule : Prop :=
  ∀ (sh : Shape) (m : Mach sh) (id : Nat),
    m.classOf (.interrupt ⟨id, .user⟩) = .user ∧ m.classOf (.interrupt ⟨id, .supervisor⟩) = .supervisor ∧
    ∀ (e : Event) (c : BitVec sh.W) (n : Option (BitVec sh.W)) (b : Bool), m.classOf e = .user → m.core.csr.sup = true →
      outcome (m.enter e c n b) = .refused .userEventInSupervisorMode

/-- R207, R210: an event that is entered and then returned from, with nothing between, gives the interrupted code its CSR back
and goes on at the saved pc, in user and in supervisor mode alike. The spec's decisions D5, D17 and D20. -/
def Obligations.EntryThenReturnResumes : Prop :=
  ∀ (sh : Shape) (m s : Mach sh) (e : Event) (cause : BitVec sh.W) (next : Option (BitVec sh.W)) (after : Bool) (w : IWord),
    csrLayoutWf m.cfg.csrLayout sh.csrBits = true → NoBreakpoints m → m.enter e cause next after = .ok s →
    ∃ t : Mach sh, exec (.eventReturn w) ⟨sh, s⟩ = .next ⟨sh, t⟩ ∧ t.core.csr = m.core.csr ∧
      t.core.pc = m.savedPc e cause next after ∧ t.mem = m.mem ∧ t.core.x = m.core.x ∧ t.core.v = m.core.v ∧
      t.core.vflg = m.core.vflg ∧ t.core.vmsk = m.core.vmsk ∧ t.core.pid = s.core.pid

/-- R220 to R225: which registers match: a register whose mode is selected, and not `00000`, by the rule of its mode; the
content of a flag mode's register plays no part. And what a data mode does (R222): a load or a store whose width and logical
address match `BR[n]`, of a register with a mode of its direction, makes the access and then enters a breakpoint exception; one
that matches in less completes (reference `BRK_TIMING`, auto exceptions off). The spec's decision D22. -/
def Obligations.BreakpointMatches : Prop :=
  (∀ (sh : Shape) (c : Core sh) (sel : BrkMode → Bool) (w : IWord) (accs : List Access) (gens : Flags) (n : Fin 6)
    (md : BrkMode), (n, md) ∈ c.brkHits sel w accs gens ↔
      brkModeOf (brkCode c.bm n) = some md ∧ sel md = true ∧
      match md with
      | .disabled => False
      | .instrAddr => c.pc = c.br[n]
      | .dataRead s => ∃ a ∈ accs, a.write = false ∧ a.bits = s.bits ∧ a.addr = c.br[n].toNat
      | .dataWrite s => ∃ a ∈ accs, a.write = true ∧ a.bits = s.bits ∧ a.addr = c.br[n].toNat
      | .flag f => flagOf gens f = true
      | .instrWord l => w.len = l ∧ w.bits.toNat % 2 ^ l.bits = c.br[n].toNat % 2 ^ l.bits) ∧
  ∀ (sh : Shape) (m : Mach sh) (w : IWord) (a : Operand) (sz : Size) (i : Instr) (n : Fin 6) (md : BrkMode),
    m.cfg.brkTiming = {} → m.core.csr.exc = false → (∃ s, md = .dataRead s ∨ md = .dataWrite s) →
    (∀ j, brkModeOf (brkCode m.core.bm j) = if j = n then some md else some .disabled) → a.wf 0 = true →
    let after (hit : Prop) [Decidable hit] (t : Mach sh) : Host.Outcome State Fault Refusal :=
      if hit then outcome (t.enter (.breakpoint [(n, md)]) m.core.pc (some (afterPc m w)) true)
      else .next ⟨sh, { t with draws := m.draws + 1 }⟩
    (∀ (d : Fin 32) (v : Nat), allowed m (operandReads a) [] = true →
      (i = .compressed w (.fixed { dreads := [⟨a, sz⟩], writes := [(.x d, .loaded 0)] }) ∨
        i = .general w (.fixed { dreads := [⟨a, sz⟩], writes := [(.x d, .loaded 0)] })) →
      let addr := m.operand (useRead 0) [] a % 2 ^ sh.W
      m.memRead .read addr sz.bytes = .ok v →
      exec i ⟨sh, m⟩ = after (md = .dataRead sz ∧ addr = m.core.br[n].toNat)
        (settled m (m.core.regWrite m.cfg (.x d) v) m.mem (afterPc m w))) ∧
    (∀ val : Operand, val.wf 0 = true → allowed m (operandReads a ++ operandReads val) [] = true →
      (i = .compressed w (.fixed { dwrites := [⟨a, sz, val⟩] }) ∨ i = .general w (.fixed { dwrites := [⟨a, sz, val⟩] })) →
      let addr := m.operand (useStoreAddr 0) [] a % 2 ^ sh.W
      m.core.csr.pag = false → addr % sz.bytes = 0 →
      exec i ⟨sh, m⟩ = after (md = .dataWrite sz ∧ addr = m.core.br[n].toNat)
        (settled m m.core (Memory.setAll m.mem
          (plainCells sh m.cfg.endian ⟨addr, sz.bytes, sz.bytes, m.operand (useStoreVal 0) [] val⟩)) (afterPc m w)))

/-- R225, R209: an instruction whose word a pattern mode matches takes an event before it has any effect (reference
`BRK_TIMING`), in the state the step began in, whichever instruction it is: a breakpoint exception that takes in the register, or,
where the instruction is a privilege violation too, that in its place (R214). The spec's decisions D17, D22 and D23; that either
may be entered is log entry 12. -/
def Obligations.WordBreakpointTaken : Prop :=
  ∀ (sh : Shape) (m : Mach sh) (i : Instr) (n : Fin 6) (l : ILen), m.cfg.brkTiming.instrWord = .before →
    answered i m = true → brkModeOf (brkCode m.core.bm n) = some (.instrWord l) → i.word.len = l →
    i.word.bits.toNat % 2 ^ l.bits = m.core.br[n].toNat % 2 ^ l.bits →
    let next := m.knownNext i.word (recordOf i m)
    (∃ hits, (n, .instrWord l) ∈ hits ∧ exec i ⟨sh, m⟩ = outcome (m.enter (.breakpoint hits) m.core.pc next false)) ∨
    (m.violates (recordOf i m) = true ∧ exec i ⟨sh, m⟩ = outcome (m.enter .privilegeViolation m.core.pc next false))

/-- R224: an instruction that generates a watched flag as 1, in the CSR or in an allowed lane, writes it and then raises one
breakpoint exception, however many lanes; one that generates it as 0, or not at all, raises none, though the flag may be 1 already
(auto exceptions off, reference `BRK_TIMING`). The spec's decisions D22 and D43. -/
def Obligations.FlagBreakpointTaken : Prop :=
  ∀ (sh : Shape) (m : Mach sh) (w : IWord) (f : Flag) (n : Fin 6), m.cfg.brkTiming = {} → m.core.csr.exc = false →
    (∀ j, brkModeOf (brkCode m.core.bm j) = if j = n then some (.flag f) else some .disabled) →
    let raised (t : Mach sh) : Host.Outcome State Fault Refusal :=
      outcome (t.enter (.breakpoint [(n, .flag f)]) m.core.pc (some (afterPc m w)) true)
    let quiet (t : Mach sh) : Host.Outcome State Fault Refusal := .next ⟨sh, { t with draws := m.draws + 1 }⟩
    (∀ (g : FlagGen) (i : Instr),
      (i = .compressed w (.fixed { sflags := some (.fixed g) }) ∨ i = .general w (.fixed { sflags := some (.fixed g) })) →
      let t := settled m ({ m.core with
        csr := { m.core.csr with flags := mergeFlags g m.core.csr.flags } }.markImplicit m.cfg [.csrFlags]) m.mem (afterPc m w)
      exec i ⟨sh, m⟩ = if flagOf g.which f = true ∧ flagOf g.val f = true then raised t else quiet t) ∧
    ∀ (d : Fin 32) (lb : Nat) (srcs : List (Fin 32)) (res : VSrc) (src : LaneFlagSrc), 1 ≤ lb →
      allowed m (vsrcReads res) [] = true → allowed m (laneFlagSrcReads src) [] = true →
      let gens := m.laneGens useLaneFlags [] src
      let t := settled m ({ m.core with
        v := m.core.v.set d
          (maskedWrite m.cfg.laneMask m.core.vmsk lb m.core.v[d] (m.vsource (useVector 0) [] res))
        vflg := m.newVflg lb gens m.core.vflg
        fu1 := m.core.fu1 ||| usageBit d.val }.markImplicit m.cfg [.fu1, .vflg]) m.mem (afterPc m w)
      ((∃ j, j * lb < sh.nl8 ∧ laneMasked m.cfg.laneMask m.core.vmsk lb j = false ∧
          flagOf (laneGen gens j).which f = true ∧ flagOf (laneGen gens j).val f = true) →
        exec (.vectorOp w d lb srcs res (some src)) ⟨sh, m⟩ = raised t) ∧
      ((∀ j, ¬ (flagOf (laneGen gens j).which f = true ∧ flagOf (laneGen gens j).val f = true)) →
        exec (.vectorOp w d lb srcs res (some src)) ⟨sh, m⟩ = quiet t)

/-- R61, R227, R228, R240 step 7: an instruction that generates scalar flags writes them into the CSR's flags section, keeps
the flags it does not generate, and changes nothing else but PC. With `EXC = 1` and a flag of `AUTO_EXC_FLAGS` generated as 1,
the exception of such a flag is then raised, DIV0's among them; with `EXC = 0`, or none generated, none is. The spec's
decisions D23 and D42. -/
def Obligations.ScalarFlagsAndExceptions : Prop :=
  ∀ (sh : Shape) (m : Mach sh) (w : IWord) (g : FlagGen) (i : Instr), NoBreakpoints m →
    (i = .compressed w (.fixed { sflags := some (.fixed g) }) ∨ i = .general w (.fixed { sflags := some (.fixed g) })) →
    ∃ fs : Flags, (∀ f, flagOf fs f = if flagOf g.which f then flagOf g.val f else flagOf m.core.csr.flags f) ∧
      let t := settled m ({ m.core with csr := { m.core.csr with flags := fs } }.markImplicit m.cfg [.csrFlags]) m.mem
        (afterPc m w)
      ((m.core.csr.exc = false ∨ ∀ f, flagOf m.cfg.autoExc f = true → ¬ (flagOf g.which f = true ∧ flagOf g.val f = true)) →
        exec i ⟨sh, m⟩ = .next ⟨sh, { t with draws := m.draws + 1 }⟩) ∧
      ((m.core.csr.exc = true ∧ ∃ f, flagOf m.cfg.autoExc f = true ∧ flagOf g.which f = true ∧ flagOf g.val f = true) →
        ∃ f, flagOf m.cfg.autoExc f = true ∧ flagOf g.which f = true ∧ flagOf g.val f = true ∧
          exec i ⟨sh, m⟩ = outcome (t.enter (.flagException f) m.core.pc (some (afterPc m w)) true))

/-- R176, R209, R214: whatever is due, an instruction's next state has at most one event entered: before its effects, a privilege
violation that it is or a breakpoint exception of all the registers that match then (of an instruction that is refused, or whose
reads or stores fault, those with an address or a pattern mode); or after all of them, and then none was due before, and that one is
among those due. The spec's decisions D17, D23 and D39; which of those due before is entered is log entry 12. -/
def Obligations.OneEventPerInstruction : Prop :=
  ∀ (sh : Shape) (m m' : Mach sh) (i : Instr), exec i ⟨sh, m⟩ = .next ⟨sh, m'⟩ →
    (∃ e, ((e = .privilegeViolation ∧ refusalOf (recordOf i m) = none ∧ m.violates (recordOf i m) = true) ∨
        ∃ hits, hits ≠ [] ∧ e = .breakpoint hits ∧
          hits = if refusalOf (recordOf i m) = none then m.beforeHits i.word (m.evaluate i.word (recordOf i m))
            else m.core.brkHits (selEarly m.cfg.brkTiming) i.word [] {}) ∧
      m.enter e m.core.pc (m.knownNext i.word (recordOf i m)) false = .ok m') ∨
    ∃ eff, m.evaluate i.word (recordOf i m) = .ok eff ∧ m.violates (recordOf i m) = false ∧
      m.beforeHits i.word (.ok eff) = [] ∧
      ((m.afterEvents i.word eff = [] ∧ m' = { m.committed eff with draws := m.draws + 1 }) ∨
        ∃ e ∈ m.afterEvents i.word eff, (m.committed eff).enter e m.core.pc (some eff.next) true = .ok m')

/-! ### Frames -/

/-- The frame of memory, for every instruction, whether or not it enters an event: one that stores nothing, and any special operation
but a dump, whatever else its record lists (R180), leaves every byte as it was; STATE_DUMP every byte outside its image (R183), at
the address its operand gives; any other every byte outside its data writes, each at the address its operand gives after the
record's data reads. -/
def Obligations.MemoryFrame : Prop :=
  ∀ (sh : Shape) (m m' : Mach sh) (i : Instr), exec i ⟨sh, m⟩ = .next ⟨sh, m'⟩ →
    (((recordOf i m).special = .none → (recordOf i m).dwrites = []) → isDump (recordOf i m).special = false → m'.mem = m.mem) ∧
    (∀ addr p, (recordOf i m).special = .stateDump addr →
      (∀ cells, m.cellsOf true (m.dumpChunks (m.address useSpecial [] addr)) = .ok cells → p ∉ storedAt cells) →
      Memory.get? m'.mem p = Memory.get? m.mem p) ∧
    (∀ p, (recordOf i m).special = .none →
      (∀ loaded accs cells, m.loadAll (recordOf i m).dreads [] = .ok (loaded, accs) →
        m.cellsOf (maySplit (recordOf i m)) (m.storeChunks loaded 0 (recordOf i m).dwrites) = .ok cells → p ∉ storedAt cells) →
      Memory.get? m'.mem p = Memory.get? m.mem p)

/-- The frame of FILE 0, FILE 1 and the FILE 2 registers no event touches, for every instruction, whether or not it enters an event: a
register that is no destination keeps its value, a restore apart; VFLG also takes vector flags, and VMSK is SET_VMSK's too. -/
def Obligations.RegisterFrame : Prop :=
  ∀ (sh : Shape) (m m' : Mach sh) (i : Instr), exec i ⟨sh, m⟩ = .next ⟨sh, m'⟩ →
    isRestore (recordOf i m).special = false →
    let kept (j : Fin 32) : Prop := .sr j ∉ destsOf (recordOf i m)
    (∀ j : Fin 32, .x j ∉ destsOf (recordOf i m) → m'.core.x[j] = m.core.x[j]) ∧
    (∀ j : Fin 32, j ∉ vdestsOf (recordOf i m) → m'.core.v[j] = m.core.v[j]) ∧
    (kept 14 → (recordOf i m).vflags = none → m'.core.vflg = m.core.vflg) ∧
    (∀ n : Fin 4, kept ⟨n.val, by omega⟩ → m'.core.vr[n] = m.core.vr[n]) ∧
    (∀ n : Fin 6, kept ⟨4 + n.val, by omega⟩ → m'.core.br[n] = m.core.br[n]) ∧
    (kept 10 → m'.core.bm = m.core.bm) ∧
    (kept 15 → (∀ v, (recordOf i m).special ≠ .setVmsk v) → m'.core.vmsk = m.core.vmsk) ∧
    (kept 16 → m'.core.smsk = m.core.smsk) ∧ (kept 18 → m'.core.uetp = m.core.uetp) ∧
    (kept 26 → m'.core.setp = m.core.setp) ∧ (kept 27 → m'.core.ptp = m.core.ptp) ∧
    (∀ n : Fin 4, kept ⟨28 + n.val, by omega⟩ → m'.core.kr[n] = m.core.kr[n])

/-- The frame of the exception registers, PID and the CSR, for every undisturbed instruction: each keeps its value unless its slot is
a destination; the CSR also changes in a return from an event and, its flags alone, by generated flags. -/
def Obligations.EventRegisterFrame : Prop :=
  ∀ (sh : Shape) (m m' : Mach sh) (i : Instr), undisturbed i m → exec i ⟨sh, m⟩ = .next ⟨sh, m'⟩ →
    isRestore (recordOf i m).special = false →
    let kept (j : Fin 32) : Prop := .sr j ∉ destsOf (recordOf i m)
    (kept 12 → m'.core.ueb0 = m.core.ueb0) ∧ (kept 13 → m'.core.ueb1 = m.core.ueb1) ∧
    (kept 24 → m'.core.seb0 = m.core.seb0) ∧ (kept 25 → m'.core.seb1 = m.core.seb1) ∧
    (kept 22 → m'.core.pid = m.core.pid) ∧
    (kept 23 → (recordOf i m).special ≠ .eventReturn → ∃ fs, m'.core.csr = { m.core.csr with flags := fs }) ∧
    (kept 23 → (recordOf i m).special ≠ .eventReturn → (recordOf i m).sflags = none → m'.core.csr = m.core.csr)

/-- R58: no instruction clears a file usage bit by itself: one that neither writes FU0, FU1 or FU2 nor restores them leaves
every bit that was 1 at 1, whether or not it enters an event. R58 is the spec's inference from R55. -/
def Obligations.FileUsageOnlyGrows : Prop :=
  ∀ (sh : Shape) (m m' : Mach sh) (i : Instr), exec i ⟨sh, m⟩ = .next ⟨sh, m'⟩ →
    isRestore (recordOf i m).special = false →
    (.sr 19 ∉ destsOf (recordOf i m) → usageGrows m.core.fu0 m'.core.fu0) ∧
    (.sr 20 ∉ destsOf (recordOf i m) → usageGrows m.core.fu1 m'.core.fu1) ∧
    (.sr 21 ∉ destsOf (recordOf i m) → usageGrows m.core.fu2 m'.core.fu2)

/-- R230, R232: in user mode no instruction changes SETP, PTP or a KR register; and one that leaves the core in user mode
changes neither PID nor SEB_0 nor SEB_1. The spec's decision D15. -/
def Obligations.UserModeKeepsPrivileged : Prop :=
  ∀ (sh : Shape) (m m' : Mach sh) (i : Instr), m.core.csr.sup = false → exec i ⟨sh, m⟩ = .next ⟨sh, m'⟩ →
    m'.core.setp = m.core.setp ∧ m'.core.ptp = m.core.ptp ∧ m'.core.kr = m.core.kr ∧
    (m'.core.csr.sup = false →
      m'.core.pid = m.core.pid ∧ m'.core.seb0 = m.core.seb0 ∧ m'.core.seb1 = m.core.seb1)

/-- R231 with U31: an instruction that takes the core from user to supervisor mode is a return from an event whose UEB_1 says
so, or it enters a promoting event: PID is the kernel's, and the CSR that was in user mode is saved in SEB_1, its unused bits 0 (the
model's choice, log entry 14). The return is the spec's decision D44. -/
def Obligations.SupervisorOnlyByEvent : Prop :=
  ∀ (sh : Shape) (m m' : Mach sh) (i : Instr), m.core.csr.sup = false → exec i ⟨sh, m⟩ = .next ⟨sh, m'⟩ →
    m'.core.csr.sup = true →
    ((recordOf i m).special = .eventReturn ∧
      (csrOfImage m.cfg.csrLayout (m.core.ueb1.toNat % 2 ^ sh.csrBits)).sup = true) ∨
    (m'.core.pid = m.cfg.kernelPid ∧ ∃ (c : Csr) (e : Event), c.sup = false ∧
      m'.core.csr = entryCsr m.cfg.eventEntryCsr c .supervisor e ∧
      m'.core.seb1 = BitVec.ofNat sh.bufBits (csrImage m.cfg.csrLayout c))

/-! ### The machine -/

/-- R261, R95: after reset the boot core executes from `RESET_PC` in supervisor mode with paging off and `BOOT = 1`; every
other core is halted and not in boot mode; no interrupt is pending; for any parameters and instruction set. The spec's decision
D30; the list of moves at reset is the model's (log entry 7). -/
def Obligations.ResetState : Prop :=
  ∀ (sh : Shape) (cfg : Params) (isa : Isa), cfg.bootCore < cfg.ncores →
    let m := Mach.resetWith sh cfg isa
    m.coreId = cfg.bootCore ∧ m.core.pc = BitVec.ofNat sh.W cfg.resetPc ∧ m.core.csr.sup = true ∧
    m.core.csr.pag = false ∧ m.core.csr.boot = true ∧ m.core.csr.hlt = false ∧ m.env = [] ∧
    (∀ j, j < cfg.ncores → j ≠ cfg.bootCore → ∃ c, (j, c) ∈ m.parked) ∧
    ∀ p ∈ m.parked, p.1 < cfg.ncores ∧ p.1 ≠ cfg.bootCore ∧ p.2.csr.hlt = true ∧ p.2.csr.boot = false ∧
      p.2.pc = BitVec.ofNat sh.W (cfg.wakePc.getD p.1 0)

/-- R96, R100, R101: the invariant of the machine holds at reset. -/
def Obligations.InvAtReset : Prop := Inv State.reset

/-- R96, R100, R101: the invariant of the machine is kept by every step, from every state that has it: every byte of memory
has an address of `WLEN` bits, no two cores have one index, and the memory is in its canonical form, which is the model's own. -/
def Obligations.StepKeepsInv : Prop := ∀ s t : State, Inv s → step s = .next t → Inv t

/-- R5, R96: a step changes neither the parameters nor the instruction set nor the widths nor which cores there are, and it
changes the registers of the one core that steps alone. The spec's decision D45; the order of moves is log entry 8. -/
def Obligations.OtherCoresUntouched : Prop :=
  ∀ (sh : Shape) (m : Mach sh) (t : State), step ⟨sh, m⟩ = .next t →
    ∃ m' : Mach sh, t = ⟨sh, m'⟩ ∧ m'.cfg = m.cfg ∧ m'.isa = m.isa ∧ m'.coreId = m.ready.coreId ∧
      m'.parked = m.ready.parked ∧ m'.env = m.env.tail ∧
      ∀ j c, j ≠ m'.coreId → ((j, c) ∈ m'.parked ↔ (j, c) ∈ (m.coreId, m.core) :: m.parked)

end
end

