-- ==== Sys2Proof/Laws/Memory.lean ====
section
/-! SUPPORT. Laws of the memory: reading after writing, the canonical form, and what each memory operation can do. -/

namespace Sys2Proof.Machine

open Sys2Proof

/-- A byte written is read back. -/
@[simp] theorem get_set_same (mem : Memory) (a : Nat) (b : Byte) : Memory.get? (Memory.set mem a b) a = some b := by
  induction mem with
  | nil => simp [Memory.set, Memory.get?]
  | cons c t ih =>
    obtain ⟨k, v⟩ := c
    simp only [Memory.set]
    split
    · simp [Memory.get?]
    · split
      · simp [Memory.get?]
      · rename_i h1 h2
        simp only [Memory.get?, if_neg h2, if_neg h1, ih]

/-- A byte written leaves every other address as it was. -/
theorem get_set_other (mem : Memory) (a a' : Nat) (b : Byte) (h : a' ≠ a) :
    Memory.get? (Memory.set mem a b) a' = Memory.get? mem a' := by
  induction mem with
  | nil => simp [Memory.set, Memory.get?, h]
  | cons c t ih =>
    obtain ⟨k, v⟩ := c
    simp only [Memory.set]
    split
    · simp only [Memory.get?, if_neg h]
      split
      · rename_i h1 h2
        have : a' ≠ k := by omega
        have : a' < k := by omega
        simp [*]
      · rfl
    · split
      · rename_i h1 h2
        subst h2
        simp [Memory.get?, h]
      · simp only [Memory.get?, ih]

/-- A byte written keeps the addresses rising from any bound below it. -/
theorem risesFrom_set (mem : Memory) (lo a : Nat) (b : Byte) (hm : Memory.risesFrom lo mem = true) (ha : lo ≤ a) :
    Memory.risesFrom lo (Memory.set mem a b) = true := by
  induction mem generalizing lo with
  | nil => simp [Memory.set, Memory.risesFrom, ha]
  | cons c t ih =>
    obtain ⟨k, v⟩ := c
    simp only [Memory.risesFrom, Bool.and_eq_true, decide_eq_true_eq] at hm
    simp only [Memory.set]
    split
    · simp only [Memory.risesFrom, Bool.and_eq_true, decide_eq_true_eq]
      exact ⟨ha, by omega, hm.2⟩
    · split
      · rename_i h1 h2
        subst h2
        simp [Memory.risesFrom, ha, hm.2]
      · simp only [Memory.risesFrom, Bool.and_eq_true, decide_eq_true_eq]
        exact ⟨hm.1, ih (k + 1) hm.2 (by omega)⟩

/-- A byte written keeps the canonical form. -/
theorem wf_set (mem : Memory) (a : Nat) (b : Byte) (h : Memory.wf mem = true) : Memory.wf (Memory.set mem a b) = true :=
  risesFrom_set mem 0 a b h (Nat.zero_le a)

/-- Bytes written keep the canonical form. -/
theorem wf_setAll (mem : Memory) (cells : List Host.Cell) (h : Memory.wf mem = true) :
    Memory.wf (Memory.setAll mem cells) = true := by
  unfold Memory.setAll
  induction cells generalizing mem with
  | nil => exact h
  | cons c t ih => exact ih _ (wf_set mem c.1 c.2 h)

/-- Bytes written leave every address they are not at as it was. -/
theorem get_setAll_other (mem : Memory) (cells : List Host.Cell) (a : Nat) (h : a ∉ storedAt cells) :
    Memory.get? (Memory.setAll mem cells) a = Memory.get? mem a := by
  unfold Memory.setAll
  induction cells generalizing mem with
  | nil => rfl
  | cons c t ih =>
    simp only [storedAt, List.map_cons, List.mem_cons, not_or] at h
    rw [List.foldl_cons, ih _ (by simpa [storedAt] using h.2), get_set_other _ _ _ _ h.1]

/-- Every address of a memory after a write is an old one or the one written. -/
theorem mem_set (mem : Memory) (a : Nat) (b : Byte) (c : Host.Cell) (h : c ∈ Memory.set mem a b) : c ∈ mem ∨ c = (a, b) := by
  induction mem with
  | nil => simpa [Memory.set] using h
  | cons d t ih =>
    obtain ⟨k, v⟩ := d
    simp only [Memory.set] at h
    split at h
    · simp only [List.mem_cons] at h ⊢; tauto
    · split at h
      · simp only [List.mem_cons] at h ⊢; tauto
      · simp only [List.mem_cons] at h ⊢
        rcases h with h | h
        · tauto
        · rcases ih h with h | h <;> tauto

/-- Every cell of a memory after writes has an old address or one written. -/
theorem mem_setAll (mem : Memory) (cells : List Host.Cell) (P : Nat → Prop) (h0 : ∀ c ∈ mem, P c.1)
    (h1 : ∀ c ∈ cells, P c.1) : ∀ c ∈ Memory.setAll mem cells, P c.1 := by
  unfold Memory.setAll
  induction cells generalizing mem with
  | nil => exact h0
  | cons d t ih =>
    apply ih
    · intro c hc
      rcases mem_set _ _ _ _ hc with h | h
      · exact h0 c h
      · rw [h]; exact h1 d (by simp)
    · exact fun c hc => h1 c (by simp [hc])

/-- With paging off an address is its own physical address (R107). -/
@[simp] theorem translate_off {sh : Shape} (m : Mach sh) (k : AccessKind) (a : Nat) (h : m.core.csr.pag = false) :
    m.translate k a = .ok a := by
  simp [Mach.translate, h]

/-- A translated address has `WLEN` bits if the logical one does. -/
theorem translate_lt {sh : Shape} (m : Mach sh) (k : AccessKind) (a p : Nat) (ha : a < 2 ^ sh.W)
    (h : m.translate k a = .ok p) : p < 2 ^ sh.W := by
  unfold Mach.translate at h
  split at h
  · split at h
    · cases h; exact Nat.mod_lt _ (by positivity)
    · cases h
  · cases h; exact ha

/-- What `collect` gives: one result for each place, in order. -/
theorem collect_ok {α : Type} (f : Nat → Res α) (k n : Nat) (xs : List α) (h : collect f k n = .ok xs) :
    xs.length = n ∧ ∀ j (hj : j < xs.length), f (k + j) = .ok xs[j] := by
  induction n generalizing k xs with
  | zero =>
    simp only [collect] at h
    cases h
    simp
  | succ n ih =>
    simp only [collect] at h
    split at h
    · cases h
    · rename_i x hx
      split at h
      · cases h
      · rename_i ys hys
        cases h
        obtain ⟨hl, hf⟩ := ih _ _ hys
        refine ⟨by simp [hl], ?_⟩
        intro j hj
        cases j with
        | zero => simpa using hx
        | succ j =>
          have := hf j (by simpa using hj)
          rw [show k + (j + 1) = k + 1 + j by omega]
          simpa using this

/-- `collect` succeeds where every place does. -/
theorem collect_of_all {α : Type} (f : Nat → Res α) (g : Nat → α) (k n : Nat) (h : ∀ j, k ≤ j → j < k + n → f j = .ok (g j)) :
    collect f k n = .ok ((List.range n).map fun j => g (k + j)) := by
  induction n generalizing k with
  | zero => rfl
  | succ n ih =>
    have h0 := h k (Nat.le_refl k) (by omega)
    have h1 := ih (k + 1) (fun j hj hj' => h j (by omega) (by omega))
    simp only [collect, h0, h1, List.range_succ_eq_map, List.map_cons, List.map_map]
    congr 2
    apply List.map_congr_left
    intro j _
    simp only [Function.comp]
    congr 1
    omega

/-- `distinct` says that no number occurs twice. -/
theorem distinct_iff (l : List Nat) : distinct l = true ↔ l.Nodup := by
  induction l with
  | nil => simp [distinct]
  | cons a as ih =>
    simp only [distinct, Bool.and_eq_true, List.all_eq_true, Bool.not_eq_true', beq_eq_false_iff_ne, ih, List.nodup_cons]
    exact and_congr_left fun _ => ⟨fun h ha => h a ha rfl, fun h b hb hab => h (hab ▸ hb)⟩

/-- A list in any order has the same entries. -/
theorem shuffle_perm {α : Type} (pick : Nat → Nat) (xs : List α) : (shuffle pick xs).Perm xs := by
  induction xs with
  | nil => exact .refl _
  | cons x xs ih =>
    have hl : pick xs.length % (xs.length + 1) ≤ (shuffle pick xs).length := by
      rw [ih.length_eq]
      exact Nat.le_of_lt_succ (Nat.mod_lt _ (Nat.succ_pos _))
    exact (List.perm_insertIdx x _ hl).trans (ih.cons x)

/-- An order takes no notice of places beyond the list. -/
theorem shuffle_congr {α : Type} (p q : Nat → Nat) (xs : List α) (h : ∀ k < xs.length, p k = q k) : shuffle p xs = shuffle q xs := by
  induction xs with
  | nil => rfl
  | cons x xs ih =>
    rw [shuffle, shuffle, ih fun k hk => h k (Nat.lt_succ_of_lt hk), h xs.length (Nat.lt_succ_self _)]

/-- Every order of a list is one of these (R106, "in any order"). -/
theorem shuffle_any {α : Type} (xs ys : List α) (h : ys.Perm xs) : ∃ pick, shuffle pick xs = ys := by
  induction xs generalizing ys with
  | nil => exact ⟨id, h.eq_nil.symm⟩
  | cons x xs ih =>
    obtain ⟨l, r, rfl⟩ := List.append_of_mem (h.mem_iff.2 (List.mem_cons_self ..))
    have hp : (l ++ r).Perm xs := (List.perm_middle.symm.trans h).cons_inv
    obtain ⟨pick, hpick⟩ := ih _ hp
    have hl : l.length < xs.length + 1 := by
      rw [← hp.length_eq, List.length_append]
      omega
    refine ⟨fun k => if k = xs.length then l.length else pick k, ?_⟩
    rw [shuffle, shuffle_congr _ pick xs fun k hk => if_neg (Nat.ne_of_lt hk), hpick, if_pos rfl, Nat.mod_eq_of_lt hl]
    clear * -
    induction l with
    | nil => rfl
    | cons a l ih => simpa using ih

/-- Pieces put together are the list. -/
@[simp] theorem pieces_flatten {α : Type} (cut : Nat → Bool) (xs : List α) : (pieces cut xs).flatten = xs := by
  induction xs with
  | nil => rfl
  | cons x xs ih =>
    rw [pieces]
    split
    · rename_i h
      rw [h] at ih
      simp [← ih]
    · rename_i p ps h
      rw [h] at ih
      split <;> simp [← ih]

/-- The events that store a chunk hold its bytes. -/
@[simp] theorem chunkEvents_flatten {sh : Shape} (m : Mach sh) (wide : Bool) (k : Nat) (c : Chunk) :
    (m.chunkEvents wide k c).flatten = plainCells sh m.cfg.endian c := by
  unfold Mach.chunkEvents
  simp only
  split <;> simp

/-- The events of several chunks hold the bytes of each. -/
@[simp] theorem storeEvents_flatten {sh : Shape} (m : Mach sh) (wide : Bool) (cs : List Chunk) :
    (m.storeEvents wide cs).flatten = cs.flatMap (plainCells sh m.cfg.endian) := by
  induction cs with
  | nil => rfl
  | cons c cs ih => simp [Mach.storeEvents, ih]

/-- No chunk stores no byte. -/
@[simp] theorem cellsOf_nil {sh : Shape} (m : Mach sh) (wide : Bool) : m.cellsOf wide [] = .ok [] := by
  simp [Mach.cellsOf, Mach.checkChunks, Mach.storeEvents, shuffle, Mach.storeCells]

/-- What storing chunks comes to: their bytes as they stand, with paging off and no two at one address; or their events in some order,
each translated in its turn. -/
theorem cellsOf_ok {sh : Shape} {m : Mach sh} {wide : Bool} {cs : List Chunk} {cells : List Host.Cell}
    (h : m.cellsOf wide cs = .ok cells) :
    (m.core.csr.pag = false ∧ cells = cs.flatMap (plainCells sh m.cfg.endian)) ∨
    ∃ events, events.Perm (m.storeEvents wide cs) ∧ m.storeCells events = .ok cells := by
  unfold Mach.cellsOf at h
  split at h
  · cases h
  · simp only at h
    split at h
    · rename_i hc
      cases h
      simp only [Bool.and_eq_true, Bool.not_eq_true'] at hc
      exact .inl ⟨hc.1, rfl⟩
    · exact .inr ⟨_, shuffle_perm _ _, h⟩

/-- Translated bytes have `WLEN`-bit addresses if the logical ones have. -/
theorem translateCells_lt {sh : Shape} {m : Mach sh} {event cells : List Host.Cell} (h : m.translateCells event = .ok cells)
    (hw : ∀ c ∈ event, c.1 < 2 ^ sh.W) : ∀ d ∈ cells, d.1 < 2 ^ sh.W := by
  induction event generalizing cells with
  | nil => cases h; simp
  | cons c cs ih =>
    simp only [Mach.translateCells] at h
    split at h
    · cases h
    · rename_i p hp
      split at h
      · cases h
      · rename_i xs hxs
        cases h
        intro d hd
        rcases List.mem_cons.1 hd with rfl | hd
        · exact translate_lt m _ _ _ (hw c (by simp)) hp
        · exact ih hxs (fun c hc => hw c (by simp [hc])) d hd

/-- What an event writes: its bytes where they are translated to, in some order. -/
theorem eventCells_ok {sh : Shape} {m : Mach sh} {k : Nat} {event cells : List Host.Cell} (h : m.eventCells k event = .ok cells) :
    ∃ xs, m.translateCells event = .ok xs ∧ cells.Perm xs ∧ ((storedAt xs).Nodup → cells = xs) := by
  unfold Mach.eventCells at h
  split at h
  · cases h
  · rename_i xs hx
    cases h
    refine ⟨xs, hx, ?_, fun hn => if_pos ((distinct_iff _).2 hn)⟩
    split
    · exact .refl _
    · exact shuffle_perm _ xs

/-- Every address events write to has `WLEN` bits. -/
theorem storeCells_lt {sh : Shape} {m : Mach sh} {events : List (List Host.Cell)} {cells : List Host.Cell}
    (h : m.storeCells events = .ok cells) (hw : ∀ c ∈ events.flatten, c.1 < 2 ^ sh.W) : ∀ d ∈ cells, d.1 < 2 ^ sh.W := by
  induction events generalizing m cells with
  | nil => cases h; simp
  | cons ev evs ih =>
    rw [List.flatten_cons] at hw
    simp only [Mach.storeCells] at h
    split at h
    · cases h
    · rename_i x hx
      split at h
      · cases h
      · rename_i xs hxs
        cases h
        obtain ⟨ys, hy, hp, -⟩ := eventCells_ok hx
        intro d hd
        rcases List.mem_append.1 hd with hd | hd
        · exact translateCells_lt hy (fun c hc => hw c (List.mem_append_left _ hc)) d (hp.mem_iff.1 hd)
        · exact ih hxs (fun c hc => hw c (List.mem_append_right _ hc)) d hd

/-- The logical addresses of a chunk's bytes have `WLEN` bits. -/
theorem plainCells_lt {sh : Shape} {e : Endian} {c : Chunk} : ∀ d ∈ plainCells sh e c, d.1 < 2 ^ sh.W := by
  intro d hd
  have h := (List.of_mem_zip (a := d.1) (b := d.2) hd).1
  obtain ⟨j, -, hj⟩ := List.mem_map.1 h
  rw [← hj]
  exact Nat.mod_lt _ (by positivity)

/-- Every address a list of chunks is stored at has `WLEN` bits. -/
theorem cellsOf_lt {sh : Shape} (m : Mach sh) (wide : Bool) (cs : List Chunk) (cells : List Host.Cell)
    (h : m.cellsOf wide cs = .ok cells) : ∀ d ∈ cells, d.1 < 2 ^ sh.W := by
  have hw : ∀ d ∈ cs.flatMap (plainCells sh m.cfg.endian), d.1 < 2 ^ sh.W := by
    intro d hd
    obtain ⟨c, -, hd⟩ := List.mem_flatMap.1 hd
    exact plainCells_lt d hd
  rcases cellsOf_ok h with ⟨-, rfl⟩ | ⟨events, hp, hs⟩
  · exact hw
  · refine storeCells_lt hs fun c hc => hw c ?_
    rw [← storeEvents_flatten m wide]
    exact hp.flatten.mem_iff.1 hc

end Sys2Proof.Machine
end

