-- ==== Sys2Proof/Laws/Bytes.lean ====
section
/-! SUPPORT. Bytes, byte order, and memory with paging off. -/

namespace Sys2Proof.Machine

open Sys2Proof

variable {sh : Shape}

/-- The bytes of a number are as many as asked for. -/
theorem bytesLittle_length (n v) : (bytesLittle n v).length = n := by
  induction n generalizing v <;> simp [bytesLittle, *]

/-- So are they in either byte order. -/
theorem toBytes_length (e n v) : (toBytes e n v).length = n := by cases e <;> simp [toBytes, bytesLittle_length]

/-- Bytes and back is the number modulo their size. -/
theorem valLittle_bytesLittle (n v) : valLittle (bytesLittle n v) = v % 256 ^ n := by
  induction n generalizing v with
  | zero => simp [bytesLittle, valLittle, Nat.mod_one]
  | succ n ih =>
    simp only [bytesLittle, valLittle, ih, BitVec.toNat_ofNat]
    rw [show (2:Nat)^8 = 256 by norm_num, pow_succ, mul_comm (256^n) 256, Nat.mod_mul]

/-- The value of `n` bytes is below `256^n`. -/
theorem valLittle_lt (bs) : valLittle bs < 256 ^ bs.length := by
  induction bs with
  | nil => simp [valLittle]
  | cons b bs ih =>
    simp only [valLittle, List.length_cons, pow_succ]
    have := b.isLt
    omega

/-- Byte `k` of a value is its digit of weight `256^k`. -/
theorem valLittle_get (bs : List Byte) (k : Nat) (hk : k < bs.length) : valLittle bs / 256 ^ k % 256 = bs[k].toNat := by
  induction bs generalizing k with
  | nil => cases hk
  | cons b bs ih =>
    have hb := b.isLt
    cases k with
    | zero => simp only [valLittle, pow_zero, Nat.div_one, List.getElem_cons_zero]; omega
    | succ k =>
      simp only [valLittle, pow_succ', List.getElem_cons_succ]
      rw [← Nat.div_div_eq_div_mul, show (b.toNat + 256 * valLittle bs) / 256 = valLittle bs by omega]
      exact ih k (by simpa using hk)

/-- Bytes and back, in either byte order (R104). -/
theorem ofBytes_toBytes (e n v) : ofBytes e (toBytes e n v) = v % 256 ^ n := by
  cases e <;> simp [toBytes, ofBytes, valLittle_bytesLittle]

/-- Turning pairs of bytes round keeps their number. -/
theorem swapPairs_length (bs : List Byte) : (swapPairs bs).length = bs.length := by
  induction bs using swapPairs.induct <;> simp_all [swapPairs]

/-- An instruction has the bytes its length says (R130). -/
theorem encode_length (o i) : (encode o i).length = i.word.len.bytes := by
  unfold encode
  cases o.parcels <;> simp only <;> split <;> simp [swapPairs_length, bytesLittle_length]

/-- No instruction is longer than 8 bytes (R130). -/
theorem encode_length_le (o i) : (encode o i).length ≤ 8 := by
  rw [encode_length]; cases i.word.len <;> decide

/-- An aligned access passes the alignment check (R105). -/
theorem checkAlign_even {sh} (m : Mach sh) (a n) (h : a % n = 0) : m.checkAlign a n = .ok () := by
  simp [Mach.checkAlign, h]

/-- Aligned chunks pass the alignment check. -/
theorem checkChunks_even {sh} (m : Mach sh) (cs : List Chunk) (ha : ∀ c ∈ cs, c.addr % c.unit = 0) : m.checkChunks cs = .ok () := by
  induction cs with
  | nil => rfl
  | cons c cs ih =>
    rw [Mach.checkChunks, checkAlign_even m _ _ (ha c (by simp))]
    exact ih fun c hc => ha c (by simp [hc])

/-- With paging off bytes lie where their logical addresses say (R107). -/
theorem translateCells_off {sh} (m : Mach sh) (event : List Host.Cell) (hp : m.core.csr.pag = false) :
    m.translateCells event = .ok event := by
  induction event with
  | nil => rfl
  | cons c cs ih => rw [Mach.translateCells, translate_off m _ _ hp, ih]

/-- With paging off events write their bytes at their logical addresses, one event after the other. -/
theorem storeCells_off {sh} (m : Mach sh) (events : List (List Host.Cell)) (hp : m.core.csr.pag = false) :
    ∃ cells, m.storeCells events = .ok cells ∧ cells.Perm events.flatten := by
  induction events generalizing m with
  | nil => exact ⟨[], rfl, .refl _⟩
  | cons ev evs ih =>
    have he : ∃ x, m.eventCells evs.length ev = .ok x := by simp only [Mach.eventCells, translateCells_off m ev hp]; exact ⟨_, rfl⟩
    obtain ⟨x, hx⟩ := he
    obtain ⟨y, hy, hxp, -⟩ := eventCells_ok hx
    cases (translateCells_off m ev hp).symm.trans hy
    obtain ⟨xs, hxs, hp'⟩ := ih { m with mem := Memory.setAll m.mem x } hp
    exact ⟨x ++ xs, by simp only [Mach.storeCells, hx, hxs], hxp.append hp'⟩

/-- With paging off several aligned chunks store their bytes at their logical addresses, in any order where two bytes meet. -/
theorem cellsOf_off {sh} (m : Mach sh) (wide : Bool) (cs : List Chunk) (hp : m.core.csr.pag = false)
    (ha : ∀ c ∈ cs, c.addr % c.unit = 0) :
    ∃ cells, m.cellsOf wide cs = .ok cells ∧ cells.Perm (cs.flatMap (plainCells sh m.cfg.endian)) ∧
      ((storedAt (cs.flatMap (plainCells sh m.cfg.endian))).Nodup → cells = cs.flatMap (plainCells sh m.cfg.endian)) := by
  unfold Mach.cellsOf
  simp only [checkChunks_even m cs ha, hp, Bool.not_false, Bool.true_and, distinct_iff]
  split
  · exact ⟨_, rfl, .refl _, fun _ => rfl⟩
  · rename_i hn
    obtain ⟨cells, hc, hperm⟩ := storeCells_off m (shuffle (fun k => m.draw (.storeOrder 0 k)) (m.storeEvents wide cs)) hp
    refine ⟨cells, hc, ?_, fun h => absurd h hn⟩
    rw [← storeEvents_flatten m wide]
    exact hperm.trans (shuffle_perm _ _).flatten

/-- A byte written where no other write goes is what a read delivers. -/
theorem get_setAll_mem (mem : Memory) (cells : List Host.Cell) (a : Nat) (b : Byte) (hn : (storedAt cells).Nodup) (h : (a, b) ∈ cells) :
    Memory.get? (Memory.setAll mem cells) a = some b := by
  unfold Memory.setAll
  induction cells generalizing mem with
  | nil => cases h
  | cons c cs ih =>
    simp only [storedAt, List.map_cons, List.nodup_cons] at hn
    rcases List.mem_cons.1 h with rfl | h
    · have := get_setAll_other (Memory.set mem a b) cs a hn.1
      rw [List.foldl_cons]
      unfold Memory.setAll at this
      rw [this, get_set_same]
    · exact ih _ hn.2 h

/-- The places of a chunk with no address translated. -/
theorem storedAt_plain {sh e} (c : Chunk) : storedAt (plainCells sh e c) = chunkPlaces sh c := by
  unfold storedAt plainCells
  rw [List.map_fst_zip]
  simp [chunkPlaces, toBytes_length]

/-- With paging off, a chunk among writes with no overlap reads back. -/
theorem readBytes_plain {sh} (m : Mach sh) (mem : Memory) (c : Chunk) (cells) (hp : m.core.csr.pag = false) (hn : (storedAt cells).Nodup)
    (hm : m.mem = Memory.setAll mem cells) (hc : ∀ x ∈ plainCells sh m.cfg.endian c, x ∈ cells) (k) :
    m.readBytes k c.addr c.size = .ok (toBytes m.cfg.endian c.size c.val) := by
  unfold Mach.readBytes
  have hl := toBytes_length m.cfg.endian c.size c.val
  rw [collect_of_all _ (fun j => (toBytes m.cfg.endian c.size c.val).getD j 0) 0 c.size ?_]
  · congr 1
    apply List.ext_getElem
    · simp [hl]
    · intro i h1 h2
      simp only [List.getElem_map, List.getElem_range, Nat.zero_add, List.getD_eq_getElem?_getD]
      rw [List.getElem?_eq_getElem h2]; rfl
  · intro j _ hj
    have hj' : j < (toBytes m.cfg.endian c.size c.val).length := by omega
    simp only [Mach.readByte, translate_off m _ _ hp, Mach.physByte, hm]
    rw [get_setAll_mem mem cells _ ((toBytes m.cfg.endian c.size c.val)[j]) hn ?_]
    · simp [List.getD_eq_getElem?_getD, List.getElem?_eq_getElem hj']
    · apply hc
      unfold plainCells
      rw [List.mem_iff_getElem]
      refine ⟨j, by simp [chunkPlaces, hl]; omega, ?_⟩
      simp [chunkPlaces]

/-- The bytes of a chunk lie at different addresses. -/
theorem places_nodup (sh : Shape) (c : Chunk) (h : c.size ≤ 2 ^ 32) : (chunkPlaces sh c).Nodup := by
  unfold chunkPlaces
  apply List.Nodup.map_on _ List.nodup_range
  intro x hx y hy hxy
  rw [List.mem_range] at hx hy
  simp only [wrapAddr] at hxy
  have hW : 2 ^ 32 ≤ 2 ^ sh.W := by
    apply Nat.pow_le_pow_right (by norm_num)
    unfold Shape.W; cases sh.wlen <;> simp [WLen.bits]
  have := Nat.ModEq.add_left_cancel' c.addr (show c.addr + x ≡ c.addr + y [MOD 2 ^ sh.W] from hxy)
  exact Nat.ModEq.eq_of_lt_of_lt this (by omega) (by omega)

/-- With paging off one aligned chunk stores its bytes where it lies. -/
theorem cellsOf_one {sh} (m : Mach sh) (wide : Bool) (c : Chunk) (hp : m.core.csr.pag = false) (ha : c.addr % c.unit = 0)
    (hs : c.size ≤ 2 ^ 32) : m.cellsOf wide [c] = .ok (plainCells sh m.cfg.endian c) := by
  obtain ⟨cells, hc, -, h⟩ := cellsOf_off m wide [c] hp (by simpa using ha)
  rw [hc, h (by simpa [storedAt_plain] using places_nodup sh c hs)]
  simp

/-- With paging off, the bytes memory holds at an address begin those a fetch there sees. -/
theorem fetchable_prefix {sh} (m : Mach sh) (hp : m.core.csr.pag = false) (bs : List Byte) (n a : Nat) (hn : bs.length ≤ n)
    (h : ∀ k (hk : k < bs.length), Memory.get? m.mem ((a + k) % 2 ^ sh.W) = some bs[k]) : bs <+: m.fetchable n a := by
  induction bs generalizing n a with
  | nil => exact List.nil_prefix
  | cons b bs ih =>
    cases n with
    | zero => simp at hn
    | succ n =>
      have h0 := h 0 (by simp)
      simp only [Mach.fetchable, Mach.readByte, translate_off m _ _ hp, Mach.physByte, wrapAddr]
      simp only [Nat.add_zero, List.getElem_cons_zero] at h0
      rw [h0]
      simp only [List.prefix_cons_inj]
      refine ih n (a+1) (by simpa using hn) ?_
      intro k hk
      have := h (k+1) (by simpa using hk)
      rw [show a + 1 + k = a + (k+1) by omega]
      simpa using this

/-- Among words told apart, the one the bytes begin with is the one found (R140). -/
theorem find_of_prefix {o : WordOrder} {isa : List Instr} {i : Instr} {bytes} (hap : isaApart o isa = true) (hi : i ∈ isa)
    (hb : encode o i <+: bytes) : isa.find? (fun j => (encode o j).isPrefixOf bytes) = some i := by
  induction isa with
  | nil => cases hi
  | cons j js ih =>
    simp only [isaApart, Bool.and_eq_true, List.all_eq_true] at hap
    rcases List.mem_cons.1 hi with rfl | hi
    · rw [List.find?_cons_of_pos]
      simpa using hb
    · rw [List.find?_cons_of_neg, ih hap.2 hi]
      simp only [List.isPrefixOf_iff_prefix]
      intro hp
      have := hap.1 i hi
      simp only [apart, Bool.and_eq_true, Bool.not_eq_true', ← Bool.not_eq_true, List.isPrefixOf_iff_prefix] at this
      rcases List.prefix_or_prefix_of_prefix hp hb with h | h
      · exact this.1 h
      · exact this.2 h

end Sys2Proof.Machine
end

