-- ==== Sys2Proof/Laws/State.lean ====
section
/-! SUPPORT. One lemma per field and update: what each named update of a core or a machine leaves as it was. -/

namespace Sys2Proof.Machine

open Sys2Proof

variable {sh : Shape}

/-! An implicit write touches FU2 and its open bits alone. -/

@[simp] theorem markImplicit_x (c : Core sh) (cfg : Params) (l : List HwWrite) : (c.markImplicit cfg l).x = c.x := rfl
@[simp] theorem markImplicit_v (c : Core sh) (cfg : Params) (l : List HwWrite) : (c.markImplicit cfg l).v = c.v := rfl
@[simp] theorem markImplicit_vr (c : Core sh) (cfg : Params) (l : List HwWrite) : (c.markImplicit cfg l).vr = c.vr := rfl
@[simp] theorem markImplicit_br (c : Core sh) (cfg : Params) (l : List HwWrite) : (c.markImplicit cfg l).br = c.br := rfl
@[simp] theorem markImplicit_bm (c : Core sh) (cfg : Params) (l : List HwWrite) : (c.markImplicit cfg l).bm = c.bm := rfl
@[simp] theorem markImplicit_pc (c : Core sh) (cfg : Params) (l : List HwWrite) : (c.markImplicit cfg l).pc = c.pc := rfl
@[simp] theorem markImplicit_ueb0 (c : Core sh) (cfg : Params) (l : List HwWrite) : (c.markImplicit cfg l).ueb0 = c.ueb0 := rfl
@[simp] theorem markImplicit_ueb1 (c : Core sh) (cfg : Params) (l : List HwWrite) : (c.markImplicit cfg l).ueb1 = c.ueb1 := rfl
@[simp] theorem markImplicit_vflg (c : Core sh) (cfg : Params) (l : List HwWrite) : (c.markImplicit cfg l).vflg = c.vflg := rfl
@[simp] theorem markImplicit_vmsk (c : Core sh) (cfg : Params) (l : List HwWrite) : (c.markImplicit cfg l).vmsk = c.vmsk := rfl
@[simp] theorem markImplicit_smsk (c : Core sh) (cfg : Params) (l : List HwWrite) : (c.markImplicit cfg l).smsk = c.smsk := rfl
@[simp] theorem markImplicit_uetp (c : Core sh) (cfg : Params) (l : List HwWrite) : (c.markImplicit cfg l).uetp = c.uetp := rfl
@[simp] theorem markImplicit_fu0 (c : Core sh) (cfg : Params) (l : List HwWrite) : (c.markImplicit cfg l).fu0 = c.fu0 := rfl
@[simp] theorem markImplicit_fu1 (c : Core sh) (cfg : Params) (l : List HwWrite) : (c.markImplicit cfg l).fu1 = c.fu1 := rfl
@[simp] theorem markImplicit_pid (c : Core sh) (cfg : Params) (l : List HwWrite) : (c.markImplicit cfg l).pid = c.pid := rfl
@[simp] theorem markImplicit_csr (c : Core sh) (cfg : Params) (l : List HwWrite) : (c.markImplicit cfg l).csr = c.csr := rfl
@[simp] theorem markImplicit_seb0 (c : Core sh) (cfg : Params) (l : List HwWrite) : (c.markImplicit cfg l).seb0 = c.seb0 := rfl
@[simp] theorem markImplicit_seb1 (c : Core sh) (cfg : Params) (l : List HwWrite) : (c.markImplicit cfg l).seb1 = c.seb1 := rfl
@[simp] theorem markImplicit_setp (c : Core sh) (cfg : Params) (l : List HwWrite) : (c.markImplicit cfg l).setp = c.setp := rfl
@[simp] theorem markImplicit_ptp (c : Core sh) (cfg : Params) (l : List HwWrite) : (c.markImplicit cfg l).ptp = c.ptp := rfl
@[simp] theorem markImplicit_kr (c : Core sh) (cfg : Params) (l : List HwWrite) : (c.markImplicit cfg l).kr = c.kr := rfl

@[simp] theorem markImplicit_fu2 (c : Core sh) (cfg : Params) (l : List HwWrite) :
    (c.markImplicit cfg l).fu2 = c.fu2 ||| implicitSet cfg l := rfl
@[simp] theorem markImplicit_fuOpen (c : Core sh) (cfg : Params) (l : List HwWrite) :
    (c.markImplicit cfg l).fuOpen = c.fuOpen ||| implicitOpen cfg l := rfl

/-- A read of FU2, its open bits and the others in one expression. -/
@[simp] theorem fu2Read_eq (c : Core sh) (d : Nat) : c.fu2Read d = c.fu2 ||| (BitVec.ofNat 32 d &&& c.fuOpen) := by
  unfold Core.fu2Read
  split
  · rename_i h; simp [h]
  · rfl

/-! The usage bit of an explicit write touches FU2 and its open bits alone. -/

@[simp] theorem markWritten_x (c : Core sh) (cfg : Params) (i : Fin 32) : (c.markWritten cfg i).x = c.x := by unfold Core.markWritten; split <;> rfl
@[simp] theorem markWritten_v (c : Core sh) (cfg : Params) (i : Fin 32) : (c.markWritten cfg i).v = c.v := by unfold Core.markWritten; split <;> rfl
@[simp] theorem markWritten_vr (c : Core sh) (cfg : Params) (i : Fin 32) : (c.markWritten cfg i).vr = c.vr := by unfold Core.markWritten; split <;> rfl
@[simp] theorem markWritten_br (c : Core sh) (cfg : Params) (i : Fin 32) : (c.markWritten cfg i).br = c.br := by unfold Core.markWritten; split <;> rfl
@[simp] theorem markWritten_bm (c : Core sh) (cfg : Params) (i : Fin 32) : (c.markWritten cfg i).bm = c.bm := by unfold Core.markWritten; split <;> rfl
@[simp] theorem markWritten_pc (c : Core sh) (cfg : Params) (i : Fin 32) : (c.markWritten cfg i).pc = c.pc := by unfold Core.markWritten; split <;> rfl
@[simp] theorem markWritten_ueb0 (c : Core sh) (cfg : Params) (i : Fin 32) : (c.markWritten cfg i).ueb0 = c.ueb0 := by unfold Core.markWritten; split <;> rfl
@[simp] theorem markWritten_ueb1 (c : Core sh) (cfg : Params) (i : Fin 32) : (c.markWritten cfg i).ueb1 = c.ueb1 := by unfold Core.markWritten; split <;> rfl
@[simp] theorem markWritten_vflg (c : Core sh) (cfg : Params) (i : Fin 32) : (c.markWritten cfg i).vflg = c.vflg := by unfold Core.markWritten; split <;> rfl
@[simp] theorem markWritten_vmsk (c : Core sh) (cfg : Params) (i : Fin 32) : (c.markWritten cfg i).vmsk = c.vmsk := by unfold Core.markWritten; split <;> rfl
@[simp] theorem markWritten_smsk (c : Core sh) (cfg : Params) (i : Fin 32) : (c.markWritten cfg i).smsk = c.smsk := by unfold Core.markWritten; split <;> rfl
@[simp] theorem markWritten_uetp (c : Core sh) (cfg : Params) (i : Fin 32) : (c.markWritten cfg i).uetp = c.uetp := by unfold Core.markWritten; split <;> rfl
@[simp] theorem markWritten_fu0 (c : Core sh) (cfg : Params) (i : Fin 32) : (c.markWritten cfg i).fu0 = c.fu0 := by unfold Core.markWritten; split <;> rfl
@[simp] theorem markWritten_fu1 (c : Core sh) (cfg : Params) (i : Fin 32) : (c.markWritten cfg i).fu1 = c.fu1 := by unfold Core.markWritten; split <;> rfl
@[simp] theorem markWritten_pid (c : Core sh) (cfg : Params) (i : Fin 32) : (c.markWritten cfg i).pid = c.pid := by unfold Core.markWritten; split <;> rfl
@[simp] theorem markWritten_csr (c : Core sh) (cfg : Params) (i : Fin 32) : (c.markWritten cfg i).csr = c.csr := by unfold Core.markWritten; split <;> rfl
@[simp] theorem markWritten_seb0 (c : Core sh) (cfg : Params) (i : Fin 32) : (c.markWritten cfg i).seb0 = c.seb0 := by unfold Core.markWritten; split <;> rfl
@[simp] theorem markWritten_seb1 (c : Core sh) (cfg : Params) (i : Fin 32) : (c.markWritten cfg i).seb1 = c.seb1 := by unfold Core.markWritten; split <;> rfl
@[simp] theorem markWritten_setp (c : Core sh) (cfg : Params) (i : Fin 32) : (c.markWritten cfg i).setp = c.setp := by unfold Core.markWritten; split <;> rfl
@[simp] theorem markWritten_ptp (c : Core sh) (cfg : Params) (i : Fin 32) : (c.markWritten cfg i).ptp = c.ptp := by unfold Core.markWritten; split <;> rfl
@[simp] theorem markWritten_kr (c : Core sh) (cfg : Params) (i : Fin 32) : (c.markWritten cfg i).kr = c.kr := by unfold Core.markWritten; split <;> rfl

/-- What the usage bit of an explicit write does: bits of FU2 are set, and bits of it opened. -/
theorem markWritten_form (c : Core sh) (cfg : Params) (i : Fin 32) :
    ∃ u o, c.markWritten cfg i = { c with fu2 := c.fu2 ||| u, fuOpen := c.fuOpen ||| o } := by
  unfold Core.markWritten Core.markImplicit
  split
  all_goals first | exact ⟨_, _, rfl⟩ | exact ⟨_, _, by rw [BitVec.or_assoc]⟩

/-- The bit of an explicit write of another register than FU0, FU1, FU2 is set (R57). -/
theorem markWritten_bit (c : Core sh) (cfg : Params) (i : Fin 32) (h : ¬(19 ≤ i.val ∧ i.val ≤ 21)) :
    (c.markWritten cfg i).fu2 = c.fu2 ||| usageBit i.val ||| implicitSet cfg [.fu2] := by
  unfold Core.markWritten
  split
  all_goals first | rfl | (exfalso; apply h; omega)

/-! SET_VMSK touches VMSK, FU2 and its open bits. -/

@[simp] theorem setVmsk_x (c : Core sh) (cfg : Params) (n : Nat) : (c.setVmsk cfg n).x = c.x := rfl
@[simp] theorem setVmsk_v (c : Core sh) (cfg : Params) (n : Nat) : (c.setVmsk cfg n).v = c.v := rfl
@[simp] theorem setVmsk_vr (c : Core sh) (cfg : Params) (n : Nat) : (c.setVmsk cfg n).vr = c.vr := rfl
@[simp] theorem setVmsk_br (c : Core sh) (cfg : Params) (n : Nat) : (c.setVmsk cfg n).br = c.br := rfl
@[simp] theorem setVmsk_bm (c : Core sh) (cfg : Params) (n : Nat) : (c.setVmsk cfg n).bm = c.bm := rfl
@[simp] theorem setVmsk_pc (c : Core sh) (cfg : Params) (n : Nat) : (c.setVmsk cfg n).pc = c.pc := rfl
@[simp] theorem setVmsk_ueb0 (c : Core sh) (cfg : Params) (n : Nat) : (c.setVmsk cfg n).ueb0 = c.ueb0 := rfl
@[simp] theorem setVmsk_ueb1 (c : Core sh) (cfg : Params) (n : Nat) : (c.setVmsk cfg n).ueb1 = c.ueb1 := rfl
@[simp] theorem setVmsk_vflg (c : Core sh) (cfg : Params) (n : Nat) : (c.setVmsk cfg n).vflg = c.vflg := rfl
@[simp] theorem setVmsk_smsk (c : Core sh) (cfg : Params) (n : Nat) : (c.setVmsk cfg n).smsk = c.smsk := rfl
@[simp] theorem setVmsk_uetp (c : Core sh) (cfg : Params) (n : Nat) : (c.setVmsk cfg n).uetp = c.uetp := rfl
@[simp] theorem setVmsk_fu0 (c : Core sh) (cfg : Params) (n : Nat) : (c.setVmsk cfg n).fu0 = c.fu0 := rfl
@[simp] theorem setVmsk_fu1 (c : Core sh) (cfg : Params) (n : Nat) : (c.setVmsk cfg n).fu1 = c.fu1 := rfl
@[simp] theorem setVmsk_pid (c : Core sh) (cfg : Params) (n : Nat) : (c.setVmsk cfg n).pid = c.pid := rfl
@[simp] theorem setVmsk_csr (c : Core sh) (cfg : Params) (n : Nat) : (c.setVmsk cfg n).csr = c.csr := rfl
@[simp] theorem setVmsk_seb0 (c : Core sh) (cfg : Params) (n : Nat) : (c.setVmsk cfg n).seb0 = c.seb0 := rfl
@[simp] theorem setVmsk_seb1 (c : Core sh) (cfg : Params) (n : Nat) : (c.setVmsk cfg n).seb1 = c.seb1 := rfl
@[simp] theorem setVmsk_setp (c : Core sh) (cfg : Params) (n : Nat) : (c.setVmsk cfg n).setp = c.setp := rfl
@[simp] theorem setVmsk_ptp (c : Core sh) (cfg : Params) (n : Nat) : (c.setVmsk cfg n).ptp = c.ptp := rfl
@[simp] theorem setVmsk_kr (c : Core sh) (cfg : Params) (n : Nat) : (c.setVmsk cfg n).kr = c.kr := rfl

/-! A masked vector write touches FILE 1, FU1, FU2 and its open bits. -/

@[simp] theorem vectorWrite_x (c : Core sh) (cfg : Params) (k : BitVec sh.nl8) (d : Fin 32) (lb : Nat)
    (res : BitVec sh.vbits) : (c.vectorWrite cfg k d lb res).x = c.x := rfl
@[simp] theorem vectorWrite_vr (c : Core sh) (cfg : Params) (k : BitVec sh.nl8) (d : Fin 32) (lb : Nat)
    (res : BitVec sh.vbits) : (c.vectorWrite cfg k d lb res).vr = c.vr := rfl
@[simp] theorem vectorWrite_br (c : Core sh) (cfg : Params) (k : BitVec sh.nl8) (d : Fin 32) (lb : Nat)
    (res : BitVec sh.vbits) : (c.vectorWrite cfg k d lb res).br = c.br := rfl
@[simp] theorem vectorWrite_bm (c : Core sh) (cfg : Params) (k : BitVec sh.nl8) (d : Fin 32) (lb : Nat)
    (res : BitVec sh.vbits) : (c.vectorWrite cfg k d lb res).bm = c.bm := rfl
@[simp] theorem vectorWrite_pc (c : Core sh) (cfg : Params) (k : BitVec sh.nl8) (d : Fin 32) (lb : Nat)
    (res : BitVec sh.vbits) : (c.vectorWrite cfg k d lb res).pc = c.pc := rfl
@[simp] theorem vectorWrite_ueb0 (c : Core sh) (cfg : Params) (k : BitVec sh.nl8) (d : Fin 32) (lb : Nat)
    (res : BitVec sh.vbits) : (c.vectorWrite cfg k d lb res).ueb0 = c.ueb0 := rfl
@[simp] theorem vectorWrite_ueb1 (c : Core sh) (cfg : Params) (k : BitVec sh.nl8) (d : Fin 32) (lb : Nat)
    (res : BitVec sh.vbits) : (c.vectorWrite cfg k d lb res).ueb1 = c.ueb1 := rfl
@[simp] theorem vectorWrite_vflg (c : Core sh) (cfg : Params) (k : BitVec sh.nl8) (d : Fin 32) (lb : Nat)
    (res : BitVec sh.vbits) : (c.vectorWrite cfg k d lb res).vflg = c.vflg := rfl
@[simp] theorem vectorWrite_vmsk (c : Core sh) (cfg : Params) (k : BitVec sh.nl8) (d : Fin 32) (lb : Nat)
    (res : BitVec sh.vbits) : (c.vectorWrite cfg k d lb res).vmsk = c.vmsk := rfl
@[simp] theorem vectorWrite_smsk (c : Core sh) (cfg : Params) (k : BitVec sh.nl8) (d : Fin 32) (lb : Nat)
    (res : BitVec sh.vbits) : (c.vectorWrite cfg k d lb res).smsk = c.smsk := rfl
@[simp] theorem vectorWrite_uetp (c : Core sh) (cfg : Params) (k : BitVec sh.nl8) (d : Fin 32) (lb : Nat)
    (res : BitVec sh.vbits) : (c.vectorWrite cfg k d lb res).uetp = c.uetp := rfl
@[simp] theorem vectorWrite_fu0 (c : Core sh) (cfg : Params) (k : BitVec sh.nl8) (d : Fin 32) (lb : Nat)
    (res : BitVec sh.vbits) : (c.vectorWrite cfg k d lb res).fu0 = c.fu0 := rfl
@[simp] theorem vectorWrite_pid (c : Core sh) (cfg : Params) (k : BitVec sh.nl8) (d : Fin 32) (lb : Nat)
    (res : BitVec sh.vbits) : (c.vectorWrite cfg k d lb res).pid = c.pid := rfl
@[simp] theorem vectorWrite_csr (c : Core sh) (cfg : Params) (k : BitVec sh.nl8) (d : Fin 32) (lb : Nat)
    (res : BitVec sh.vbits) : (c.vectorWrite cfg k d lb res).csr = c.csr := rfl
@[simp] theorem vectorWrite_seb0 (c : Core sh) (cfg : Params) (k : BitVec sh.nl8) (d : Fin 32) (lb : Nat)
    (res : BitVec sh.vbits) : (c.vectorWrite cfg k d lb res).seb0 = c.seb0 := rfl
@[simp] theorem vectorWrite_seb1 (c : Core sh) (cfg : Params) (k : BitVec sh.nl8) (d : Fin 32) (lb : Nat)
    (res : BitVec sh.vbits) : (c.vectorWrite cfg k d lb res).seb1 = c.seb1 := rfl
@[simp] theorem vectorWrite_setp (c : Core sh) (cfg : Params) (k : BitVec sh.nl8) (d : Fin 32) (lb : Nat)
    (res : BitVec sh.vbits) : (c.vectorWrite cfg k d lb res).setp = c.setp := rfl
@[simp] theorem vectorWrite_ptp (c : Core sh) (cfg : Params) (k : BitVec sh.nl8) (d : Fin 32) (lb : Nat)
    (res : BitVec sh.vbits) : (c.vectorWrite cfg k d lb res).ptp = c.ptp := rfl
@[simp] theorem vectorWrite_kr (c : Core sh) (cfg : Params) (k : BitVec sh.nl8) (d : Fin 32) (lb : Nat)
    (res : BitVec sh.vbits) : (c.vectorWrite cfg k d lb res).kr = c.kr := rfl

/-! A return from an event touches the CSR, FU2 and its open bits, and its caller the pc. -/

@[simp] theorem returned_x (c : Core sh) (cfg : Params) : (c.returned cfg).x = c.x := rfl
@[simp] theorem returned_v (c : Core sh) (cfg : Params) : (c.returned cfg).v = c.v := rfl
@[simp] theorem returned_vr (c : Core sh) (cfg : Params) : (c.returned cfg).vr = c.vr := rfl
@[simp] theorem returned_br (c : Core sh) (cfg : Params) : (c.returned cfg).br = c.br := rfl
@[simp] theorem returned_bm (c : Core sh) (cfg : Params) : (c.returned cfg).bm = c.bm := rfl
@[simp] theorem returned_pc (c : Core sh) (cfg : Params) : (c.returned cfg).pc = c.pc := rfl
@[simp] theorem returned_ueb0 (c : Core sh) (cfg : Params) : (c.returned cfg).ueb0 = c.ueb0 := rfl
@[simp] theorem returned_ueb1 (c : Core sh) (cfg : Params) : (c.returned cfg).ueb1 = c.ueb1 := rfl
@[simp] theorem returned_vflg (c : Core sh) (cfg : Params) : (c.returned cfg).vflg = c.vflg := rfl
@[simp] theorem returned_vmsk (c : Core sh) (cfg : Params) : (c.returned cfg).vmsk = c.vmsk := rfl
@[simp] theorem returned_smsk (c : Core sh) (cfg : Params) : (c.returned cfg).smsk = c.smsk := rfl
@[simp] theorem returned_uetp (c : Core sh) (cfg : Params) : (c.returned cfg).uetp = c.uetp := rfl
@[simp] theorem returned_fu0 (c : Core sh) (cfg : Params) : (c.returned cfg).fu0 = c.fu0 := rfl
@[simp] theorem returned_fu1 (c : Core sh) (cfg : Params) : (c.returned cfg).fu1 = c.fu1 := rfl
@[simp] theorem returned_pid (c : Core sh) (cfg : Params) : (c.returned cfg).pid = c.pid := rfl
@[simp] theorem returned_seb0 (c : Core sh) (cfg : Params) : (c.returned cfg).seb0 = c.seb0 := rfl
@[simp] theorem returned_seb1 (c : Core sh) (cfg : Params) : (c.returned cfg).seb1 = c.seb1 := rfl
@[simp] theorem returned_setp (c : Core sh) (cfg : Params) : (c.returned cfg).setp = c.setp := rfl
@[simp] theorem returned_ptp (c : Core sh) (cfg : Params) : (c.returned cfg).ptp = c.ptp := rfl
@[simp] theorem returned_kr (c : Core sh) (cfg : Params) : (c.returned cfg).kr = c.kr := rfl

/-! Taking an event touches PC, CSR, the event buffers, PID, FU2 and its open bits. -/

@[simp] theorem entered_x (c : Core sh) (cfg : Params) (e : Event) (cls : EventClass)
    (a h : BitVec sh.W) : (c.entered cfg e cls a h).x = c.x := by cases cls <;> rfl
@[simp] theorem entered_v (c : Core sh) (cfg : Params) (e : Event) (cls : EventClass)
    (a h : BitVec sh.W) : (c.entered cfg e cls a h).v = c.v := by cases cls <;> rfl
@[simp] theorem entered_vr (c : Core sh) (cfg : Params) (e : Event) (cls : EventClass)
    (a h : BitVec sh.W) : (c.entered cfg e cls a h).vr = c.vr := by cases cls <;> rfl
@[simp] theorem entered_br (c : Core sh) (cfg : Params) (e : Event) (cls : EventClass)
    (a h : BitVec sh.W) : (c.entered cfg e cls a h).br = c.br := by cases cls <;> rfl
@[simp] theorem entered_bm (c : Core sh) (cfg : Params) (e : Event) (cls : EventClass)
    (a h : BitVec sh.W) : (c.entered cfg e cls a h).bm = c.bm := by cases cls <;> rfl
@[simp] theorem entered_vflg (c : Core sh) (cfg : Params) (e : Event) (cls : EventClass)
    (a h : BitVec sh.W) : (c.entered cfg e cls a h).vflg = c.vflg := by cases cls <;> rfl
@[simp] theorem entered_vmsk (c : Core sh) (cfg : Params) (e : Event) (cls : EventClass)
    (a h : BitVec sh.W) : (c.entered cfg e cls a h).vmsk = c.vmsk := by cases cls <;> rfl
@[simp] theorem entered_smsk (c : Core sh) (cfg : Params) (e : Event) (cls : EventClass)
    (a h : BitVec sh.W) : (c.entered cfg e cls a h).smsk = c.smsk := by cases cls <;> rfl
@[simp] theorem entered_uetp (c : Core sh) (cfg : Params) (e : Event) (cls : EventClass)
    (a h : BitVec sh.W) : (c.entered cfg e cls a h).uetp = c.uetp := by cases cls <;> rfl
@[simp] theorem entered_fu0 (c : Core sh) (cfg : Params) (e : Event) (cls : EventClass)
    (a h : BitVec sh.W) : (c.entered cfg e cls a h).fu0 = c.fu0 := by cases cls <;> rfl
@[simp] theorem entered_fu1 (c : Core sh) (cfg : Params) (e : Event) (cls : EventClass)
    (a h : BitVec sh.W) : (c.entered cfg e cls a h).fu1 = c.fu1 := by cases cls <;> rfl
@[simp] theorem entered_setp (c : Core sh) (cfg : Params) (e : Event) (cls : EventClass)
    (a h : BitVec sh.W) : (c.entered cfg e cls a h).setp = c.setp := by cases cls <;> rfl
@[simp] theorem entered_ptp (c : Core sh) (cfg : Params) (e : Event) (cls : EventClass)
    (a h : BitVec sh.W) : (c.entered cfg e cls a h).ptp = c.ptp := by cases cls <;> rfl
@[simp] theorem entered_kr (c : Core sh) (cfg : Params) (e : Event) (cls : EventClass)
    (a h : BitVec sh.W) : (c.entered cfg e cls a h).kr = c.kr := by cases cls <;> rfl

/-! An explicit write to `x[i]` touches FILE 0, FU0, FU2 and its open bits. -/

@[simp] theorem regWrite_x_v (cfg : Params) (c : Core sh) (i : Fin 32) (n : Nat) : (c.regWrite cfg (.x i) n).v = c.v := rfl
@[simp] theorem regWrite_x_vr (cfg : Params) (c : Core sh) (i : Fin 32) (n : Nat) : (c.regWrite cfg (.x i) n).vr = c.vr := rfl
@[simp] theorem regWrite_x_br (cfg : Params) (c : Core sh) (i : Fin 32) (n : Nat) : (c.regWrite cfg (.x i) n).br = c.br := rfl
@[simp] theorem regWrite_x_bm (cfg : Params) (c : Core sh) (i : Fin 32) (n : Nat) : (c.regWrite cfg (.x i) n).bm = c.bm := rfl
@[simp] theorem regWrite_x_pc (cfg : Params) (c : Core sh) (i : Fin 32) (n : Nat) : (c.regWrite cfg (.x i) n).pc = c.pc := rfl
@[simp] theorem regWrite_x_ueb0 (cfg : Params) (c : Core sh) (i : Fin 32) (n : Nat) : (c.regWrite cfg (.x i) n).ueb0 = c.ueb0 := rfl
@[simp] theorem regWrite_x_ueb1 (cfg : Params) (c : Core sh) (i : Fin 32) (n : Nat) : (c.regWrite cfg (.x i) n).ueb1 = c.ueb1 := rfl
@[simp] theorem regWrite_x_vflg (cfg : Params) (c : Core sh) (i : Fin 32) (n : Nat) : (c.regWrite cfg (.x i) n).vflg = c.vflg := rfl
@[simp] theorem regWrite_x_vmsk (cfg : Params) (c : Core sh) (i : Fin 32) (n : Nat) : (c.regWrite cfg (.x i) n).vmsk = c.vmsk := rfl
@[simp] theorem regWrite_x_smsk (cfg : Params) (c : Core sh) (i : Fin 32) (n : Nat) : (c.regWrite cfg (.x i) n).smsk = c.smsk := rfl
@[simp] theorem regWrite_x_uetp (cfg : Params) (c : Core sh) (i : Fin 32) (n : Nat) : (c.regWrite cfg (.x i) n).uetp = c.uetp := rfl
@[simp] theorem regWrite_x_fu1 (cfg : Params) (c : Core sh) (i : Fin 32) (n : Nat) : (c.regWrite cfg (.x i) n).fu1 = c.fu1 := rfl
@[simp] theorem regWrite_x_pid (cfg : Params) (c : Core sh) (i : Fin 32) (n : Nat) : (c.regWrite cfg (.x i) n).pid = c.pid := rfl
@[simp] theorem regWrite_x_csr (cfg : Params) (c : Core sh) (i : Fin 32) (n : Nat) : (c.regWrite cfg (.x i) n).csr = c.csr := rfl
@[simp] theorem regWrite_x_seb0 (cfg : Params) (c : Core sh) (i : Fin 32) (n : Nat) : (c.regWrite cfg (.x i) n).seb0 = c.seb0 := rfl
@[simp] theorem regWrite_x_seb1 (cfg : Params) (c : Core sh) (i : Fin 32) (n : Nat) : (c.regWrite cfg (.x i) n).seb1 = c.seb1 := rfl
@[simp] theorem regWrite_x_setp (cfg : Params) (c : Core sh) (i : Fin 32) (n : Nat) : (c.regWrite cfg (.x i) n).setp = c.setp := rfl
@[simp] theorem regWrite_x_ptp (cfg : Params) (c : Core sh) (i : Fin 32) (n : Nat) : (c.regWrite cfg (.x i) n).ptp = c.ptp := rfl
@[simp] theorem regWrite_x_kr (cfg : Params) (c : Core sh) (i : Fin 32) (n : Nat) : (c.regWrite cfg (.x i) n).kr = c.kr := rfl

/-! Each slot of FILE 2 is written alone. -/

@[simp] theorem writeSlot_x (l : CsrLayout) (c : Core sh) (n : Nat) (s : Slot) :
    (writeSlot l c n s).x = c.x := by cases s <;> rfl
@[simp] theorem writeSlot_v (l : CsrLayout) (c : Core sh) (n : Nat) (s : Slot) :
    (writeSlot l c n s).v = c.v := by cases s <;> rfl
theorem writeSlot_vr (l : CsrLayout) (c : Core sh) (n : Nat) (s : Slot) (h : ∀ k, s ≠ .vr k) :
    (writeSlot l c n s).vr = c.vr := by
  cases s <;> first | rfl | exact absurd rfl (h _)
theorem writeSlot_br (l : CsrLayout) (c : Core sh) (n : Nat) (s : Slot) (h : ∀ k, s ≠ .br k) :
    (writeSlot l c n s).br = c.br := by
  cases s <;> first | rfl | exact absurd rfl (h _)
theorem writeSlot_bm (l : CsrLayout) (c : Core sh) (n : Nat) (s : Slot) (h : s ≠ .bm) :
    (writeSlot l c n s).bm = c.bm := by
  cases s <;> first | rfl | exact absurd rfl h
@[simp] theorem writeSlot_pc (l : CsrLayout) (c : Core sh) (n : Nat) (s : Slot) :
    (writeSlot l c n s).pc = c.pc := by cases s <;> rfl
theorem writeSlot_ueb0 (l : CsrLayout) (c : Core sh) (n : Nat) (s : Slot) (h : s ≠ .ueb0) :
    (writeSlot l c n s).ueb0 = c.ueb0 := by
  cases s <;> first | rfl | exact absurd rfl h
theorem writeSlot_ueb1 (l : CsrLayout) (c : Core sh) (n : Nat) (s : Slot) (h : s ≠ .ueb1) :
    (writeSlot l c n s).ueb1 = c.ueb1 := by
  cases s <;> first | rfl | exact absurd rfl h
theorem writeSlot_vflg (l : CsrLayout) (c : Core sh) (n : Nat) (s : Slot) (h : s ≠ .vflg) :
    (writeSlot l c n s).vflg = c.vflg := by
  cases s <;> first | rfl | exact absurd rfl h
theorem writeSlot_vmsk (l : CsrLayout) (c : Core sh) (n : Nat) (s : Slot) (h : s ≠ .vmsk) :
    (writeSlot l c n s).vmsk = c.vmsk := by
  cases s <;> first | rfl | exact absurd rfl h
theorem writeSlot_smsk (l : CsrLayout) (c : Core sh) (n : Nat) (s : Slot) (h : s ≠ .smsk) :
    (writeSlot l c n s).smsk = c.smsk := by
  cases s <;> first | rfl | exact absurd rfl h
theorem writeSlot_uetp (l : CsrLayout) (c : Core sh) (n : Nat) (s : Slot) (h : s ≠ .uetp) :
    (writeSlot l c n s).uetp = c.uetp := by
  cases s <;> first | rfl | exact absurd rfl h
theorem writeSlot_fu0 (l : CsrLayout) (c : Core sh) (n : Nat) (s : Slot) (h : s ≠ .fu0) :
    (writeSlot l c n s).fu0 = c.fu0 := by
  cases s <;> first | rfl | exact absurd rfl h
theorem writeSlot_fu1 (l : CsrLayout) (c : Core sh) (n : Nat) (s : Slot) (h : s ≠ .fu1) :
    (writeSlot l c n s).fu1 = c.fu1 := by
  cases s <;> first | rfl | exact absurd rfl h
theorem writeSlot_fu2 (l : CsrLayout) (c : Core sh) (n : Nat) (s : Slot) (h : s ≠ .fu2) :
    (writeSlot l c n s).fu2 = c.fu2 := by
  cases s <;> first | rfl | exact absurd rfl h
theorem writeSlot_fuOpen (l : CsrLayout) (c : Core sh) (n : Nat) (s : Slot) (h : s ≠ .fu2) :
    (writeSlot l c n s).fuOpen = c.fuOpen := by
  cases s <;> first | rfl | exact absurd rfl h
theorem writeSlot_pid (l : CsrLayout) (c : Core sh) (n : Nat) (s : Slot) (h : s ≠ .pid) :
    (writeSlot l c n s).pid = c.pid := by
  cases s <;> first | rfl | exact absurd rfl h
theorem writeSlot_csr (l : CsrLayout) (c : Core sh) (n : Nat) (s : Slot) (h : s ≠ .csr) :
    (writeSlot l c n s).csr = c.csr := by
  cases s <;> first | rfl | exact absurd rfl h
theorem writeSlot_seb0 (l : CsrLayout) (c : Core sh) (n : Nat) (s : Slot) (h : s ≠ .seb0) :
    (writeSlot l c n s).seb0 = c.seb0 := by
  cases s <;> first | rfl | exact absurd rfl h
theorem writeSlot_seb1 (l : CsrLayout) (c : Core sh) (n : Nat) (s : Slot) (h : s ≠ .seb1) :
    (writeSlot l c n s).seb1 = c.seb1 := by
  cases s <;> first | rfl | exact absurd rfl h
theorem writeSlot_setp (l : CsrLayout) (c : Core sh) (n : Nat) (s : Slot) (h : s ≠ .setp) :
    (writeSlot l c n s).setp = c.setp := by
  cases s <;> first | rfl | exact absurd rfl h
theorem writeSlot_ptp (l : CsrLayout) (c : Core sh) (n : Nat) (s : Slot) (h : s ≠ .ptp) :
    (writeSlot l c n s).ptp = c.ptp := by
  cases s <;> first | rfl | exact absurd rfl h
theorem writeSlot_kr (l : CsrLayout) (c : Core sh) (n : Nat) (s : Slot) (h : ∀ k, s ≠ .kr k) :
    (writeSlot l c n s).kr = c.kr := by
  cases s <;> first | rfl | exact absurd rfl (h _)

/-! A record's effects leave the parameters, the environment and the other cores alone; so does taking an event. -/

@[simp] theorem committed_cfg (m : Mach sh) (eff : Effect sh) : (m.committed eff).cfg = m.cfg := rfl
@[simp] theorem committed_isa (m : Mach sh) (eff : Effect sh) : (m.committed eff).isa = m.isa := rfl
@[simp] theorem committed_draws (m : Mach sh) (eff : Effect sh) : (m.committed eff).draws = m.draws := rfl
@[simp] theorem committed_env (m : Mach sh) (eff : Effect sh) : (m.committed eff).env = m.env := rfl
@[simp] theorem committed_coreId (m : Mach sh) (eff : Effect sh) : (m.committed eff).coreId = m.coreId := rfl
@[simp] theorem committed_parked (m : Mach sh) (eff : Effect sh) : (m.committed eff).parked = m.parked := rfl
@[simp] theorem committed_mem (m : Mach sh) (eff : Effect sh) :
    (m.committed eff).mem = Memory.setAll m.mem eff.cells := rfl
@[simp] theorem settled_cfg (m : Mach sh) (c : Core sh) (mem : Memory) (a : BitVec sh.W) : (settled m c mem a).cfg = m.cfg := rfl
@[simp] theorem settled_mem (m : Mach sh) (c : Core sh) (mem : Memory) (a : BitVec sh.W) : (settled m c mem a).mem = mem := rfl
@[simp] theorem settled_draws (m : Mach sh) (c : Core sh) (mem : Memory) (a : BitVec sh.W) :
    (settled m c mem a).draws = m.draws := rfl
@[simp] theorem settled_pc (m : Mach sh) (c : Core sh) (mem : Memory) (a : BitVec sh.W) : (settled m c mem a).core.pc = a := rfl
@[simp] theorem committed_pc (m : Mach sh) (eff : Effect sh) : (m.committed eff).core.pc = eff.next := rfl

end Sys2Proof.Machine
end

