-- ==== Sys2Proof/Laws/Lanes.lean ====
section
/-! SUPPORT. Lanes and flags. -/

namespace Sys2Proof.Machine

open Sys2Proof

variable {sh : Shape}

/-- `n` lanes fit `8 n` bits. -/
theorem lanesToNat_lt (f : Nat → Nat) (n : Nat) : lanesToNat f n < 256 ^ n := by
  induction n with
  | zero => simp [lanesToNat]
  | succ n ih =>
    simp only [lanesToNat, pow_succ]
    have : f n % 256 * 256 ^ n ≤ 255 * 256 ^ n := Nat.mul_le_mul_right _ (by omega)
    omega

/-- Lane `k` of lanes put together. -/
theorem lane8_lanesToNat (f : Nat → Nat) (n k : Nat) (h : k < n) : lane8 (lanesToNat f n) k = f k % 256 := by
  induction n with
  | zero => omega
  | succ n ih =>
    simp only [lanesToNat, lane8]
    by_cases hk : k = n
    · subst hk
      have := lanesToNat_lt f k
      rw [Nat.add_mul_div_right _ _ (by positivity), Nat.div_eq_of_lt this]
      omega
    · have hk' : k < n := by omega
      have h2 := ih hk'
      simp only [lane8] at h2
      obtain ⟨j, rfl⟩ : ∃ j, n = k + 1 + j := ⟨n - (k+1), by omega⟩
      rw [show f (k+1+j) % 256 * 256 ^ (k+1+j) = 256 ^ k * (256 * (f (k+1+j) % 256 * 256^j)) by ring]
      rw [Nat.add_mul_div_left _ _ (by positivity), ← h2]
      omega

/-- Powers of 256 as powers of 2. -/
theorem pow256 (n : Nat) : (256:Nat) ^ n = 2 ^ (8 * n) := by rw [pow_mul]; norm_num

/-- A smallest lane is a byte. -/
theorem lane8_lt (r k) : lane8 r k < 256 := Nat.mod_lt _ (by norm_num)

/-- Lanes taken apart and put together. -/
theorem lanesToNat_lane8 (r n : Nat) : lanesToNat (lane8 r) n = r % 256 ^ n := by
  induction n with
  | zero => simp [lanesToNat, Nat.mod_one]
  | succ n ih =>
    simp only [lanesToNat, ih, lane8, Nat.mod_mod]
    rw [pow_succ, Nat.mod_mul, mul_comm]

/-- Lanes with equal bytes are equal. -/
theorem lanes_congr (f g : Nat → Nat) (n : Nat) (h : ∀ k < n, f k % 256 = g k % 256) : lanesToNat f n = lanesToNat g n := by
  induction n with
  | zero => rfl
  | succ n ih => simp only [lanesToNat]; rw [ih (fun k hk => h k (by omega)), h n (by omega)]

/-- Bit `8k + j` of lanes put together is bit `j` of lane `k`. -/
theorem testBit_lanes (f : Nat → Nat) (n k j : Nat) (hk : k < n) (hj : j < 8) : (lanesToNat f n).testBit (8 * k + j) = (f k).testBit j := by
  have := lane8_lanesToNat f n k hk
  unfold lane8 at this
  have h2 : (lanesToNat f n / 256 ^ k % 256).testBit j = (f k % 256).testBit j := by rw [this]
  rw [show (256:Nat) ^ k = 2 ^ (8*k) by rw [pow_mul]; norm_num, show (256:Nat) = 2 ^ 8 by norm_num, Nat.testBit_mod_two_pow, Nat.testBit_mod_two_pow, Nat.testBit_div_two_pow] at h2
  simpa [hj, Nat.add_comm] using h2

/-- Above the lanes all bits are 0. -/
theorem testBit_lanes_hi (f : Nat → Nat) (n p : Nat) (hp : 8 * n ≤ p) : (lanesToNat f n).testBit p = false := by
  apply Nat.testBit_lt_two_pow
  refine lt_of_lt_of_le (lanesToNat_lt f n) ?_
  rw [pow256]; exact Nat.pow_le_pow_right (by norm_num) hp

/-- A masked write, lane by lane (R171). -/
theorem maskedWrite_toNat (rule : LaneMaskRule) {n : Nat} (vmsk : BitVec n) (lb : Nat) (old res : BitVec (8 * n)) :
    (maskedWrite rule vmsk lb old res).toNat = lanesToNat (fun k =>
    if laneMasked rule vmsk lb (laneOf lb k) then lane8 old.toNat k else lane8 res.toNat k) n := by
  unfold maskedWrite
  rw [BitVec.toNat_ofNat, Nat.mod_eq_of_lt]
  rw [← pow256]; exact lanesToNat_lt _ _

/-- A smallest lane of a masked write (R171, R173). -/
theorem lane8_masked (rule : LaneMaskRule) {n : Nat} (vmsk : BitVec n) (lb : Nat) (old res : BitVec (8 * n)) (k : Nat) (hk : k < n) :
    lane8 (maskedWrite rule vmsk lb old res).toNat k = if laneMasked rule vmsk lb (laneOf lb k) then lane8 old.toNat k else lane8 res.toNat k := by
  rw [maskedWrite_toNat, lane8_lanesToNat _ _ _ hk, Nat.mod_eq_of_lt]
  split <;> exact lane8_lt _ _

/-- With lanes of one byte every mask rule reads the lane's own bit (R172). -/
theorem laneMasked_one (rule : LaneMaskRule) {n : Nat} (vmsk : BitVec n) (j : Nat) : laneMasked rule vmsk 1 j = vmsk.getLsbD j := by
  cases rule <;> simp [laneMasked, laneMaskBits]
  cases vmsk.getLsbD j <;> simp

/-- A flag group that only lane `j` writes: what the lane generates over the old flags where the lane is allowed, a free value
where it is masked (R174, R175). -/
theorem newGroup_own (m : Mach sh) (lb : Nat) (gens : List FlagGen) (j k : Nat) (old : Flags)
    (h : laneWriters m.cfg.laneFlag lb sh.nl8 k = [j]) :
    m.newGroup lb gens k old = if laneMasked m.cfg.laneMask m.core.vmsk lb j then flagsOfNat (m.draw (.laneGroup k))
      else mergeFlags (laneGen gens j) old := by
  cases hm : laneMasked m.cfg.laneMask m.core.vmsk lb j <;> simp [Mach.newGroup, h, hm]

/-- Lanes of one byte write their own groups under every rule (R174). -/
theorem laneWriters_one (rule : LaneFlagRule) (n k : Nat) : laneWriters rule 1 n k = [k] := by simp [laneWriters]

/-- Under the reference rule a wide lane writes the group of its lowest smallest lane (R174). -/
theorem laneWriters_lowest (lb n j : Nat) (h : 1 ≤ lb) : laneWriters .lowest lb n (j * lb) = [j] := by
  unfold laneWriters
  split
  · rename_i h1; subst h1; simp
  · simp [Nat.mul_div_cancel _ (show 0 < lb by omega)]

/-- With lanes of one byte each smallest lane is a lane. -/
theorem laneOf_one (k) : laneOf 1 k = k := by simp [laneOf]

/-- No lane is masked by a mask of 0s (R51). -/
theorem laneMasked_zero (rule : LaneMaskRule) {n : Nat} (lb j : Nat) (h : 1 ≤ lb) : laneMasked rule (0#n) lb j = false := by
  cases rule <;> simp [laneMasked]
  exact ⟨0, by omega⟩

/-- A flag of a value given flag by flag. -/
theorem flagOf_flagsBy (g : Flag → Bool) (f : Flag) : flagOf (flagsBy g) f = g f := by cases f <;> rfl

/-- A flag of a union. -/
theorem flagOf_union (a b : Flags) (f : Flag) : flagOf (unionFlags a b) f = (flagOf a f || flagOf b f) := flagOf_flagsBy _ _

/-- A flag of the union over a list. -/
theorem flagOf_fold (l : List Nat) (P : Nat → Prop) [DecidablePred P] (g : Nat → Flags) (a : Flags) (f : Flag) :
    flagOf (l.foldl (fun acc k => if P k then unionFlags acc (g k) else acc) a) f = (flagOf a f || l.any (fun k => decide (P k) && flagOf (g k) f)) := by
  induction l generalizing a with
  | nil => simp
  | cons x l ih =>
    rw [List.foldl_cons, ih, List.any_cons]
    by_cases h : P x <;> simp [h, flagOf_union, Bool.or_assoc]

/-- Flags with the same seven flags are equal. -/
theorem flags_ext {a b : Flags} (h : ∀ f, flagOf a f = flagOf b f) : a = b := by
  cases a; cases b
  have h1 := h .covr; have h2 := h .cund; have h3 := h .ovfl; have h4 := h .unfl; have h5 := h .div0; have h6 := h .zero; have h7 := h .sign
  simp only [flagOf] at h1 h2 h3 h4 h5 h6 h7
  simp [h1, h2, h3, h4, h5, h6, h7]

/-- A generated flag takes its value, another keeps its own (R61). -/
theorem flagOf_merge (g : FlagGen) (o : Flags) (f) : flagOf (mergeFlags g o) f = if flagOf g.which f then flagOf g.val f else flagOf o f := by
  rw [mergeFlags, flagOf_flagsBy]

/-- The flags generated as 1. -/
theorem flagOf_gen (g : FlagGen) (f) : flagOf (generatedFlags g) f = (flagOf g.which f && flagOf g.val f) := by
  rw [generatedFlags, flagOf_flagsBy]

/-- The union with no flag. -/
theorem union_empty (a : Flags) : unionFlags a {} = a := by
  apply flags_ext; intro f; rw [flagOf_union]; cases f <;> simp [flagOf]

/-- Bit `j` of a flag group is flag `j` in the order of R61. -/
theorem testBit_flags (fs : Flags) (j : Nat) (hj : j < 7) : (flagsToNat fs).testBit j = flagOf fs (allFlags.getD j .covr) := by
  obtain ⟨a,b,c,d,e,f,g⟩ := fs
  cases a <;> cases b <;> cases c <;> cases d <;> cases e <;> cases f <;> cases g <;> interval_cases j <;> rfl

/-- A flag group written as a byte reads back without its eighth bit (R49). -/
theorem flags_roundtrip (n : Nat) : flagsToNat (flagsOfNat n) = n % 128 := by
  apply Nat.eq_of_testBit_eq
  intro i
  rw [show 128 = 2 ^ 7 by norm_num, Nat.testBit_mod_two_pow]
  by_cases hi : i < 7
  · rw [testBit_flags _ _ hi]
    interval_cases i <;> simp [allFlags, flagOf, flagsOfNat]
  · have : flagsToNat (flagsOfNat n) < 2 ^ i := by
      have h : flagsToNat (flagsOfNat n) < 2 ^ 7 := by
        unfold flagsToNat
        have h1 := Bool.toNat_le (flagsOfNat n).covr
        have h2 := Bool.toNat_le (flagsOfNat n).cund
        have h3 := Bool.toNat_le (flagsOfNat n).ovfl
        have h4 := Bool.toNat_le (flagsOfNat n).unfl
        have h5 := Bool.toNat_le (flagsOfNat n).div0
        have h6 := Bool.toNat_le (flagsOfNat n).zero
        have h7 := Bool.toNat_le (flagsOfNat n).sign
        omega
      exact lt_of_lt_of_le h (Nat.pow_le_pow_right (by norm_num) (not_lt.1 hi))
    rw [Nat.testBit_lt_two_pow this]
    simp [hi]

end Sys2Proof.Machine
end

