-- ==== Sys2Proof/Laws/CsrImage.lean ====
section
/-! SUPPORT. The image of the CSR, bit by bit (R85). -/

namespace Sys2Proof.Machine

open Sys2Proof

variable {sh : Shape}

/-- The bits an unused part may have. -/
theorem testBit_unused (n mask d i : Nat) : (unusedPart n mask d).testBit i = (decide (i < n) && d.testBit i && !mask.testBit i) := by
  unfold unusedPart
  have h : mask % 2 ^ n < 2 ^ n := Nat.mod_lt _ (by positivity)
  rw [Nat.testBit_and, Nat.testBit_mod_two_pow, show 2 ^ n - 1 - mask % 2 ^ n = 2 ^ n - (mask % 2 ^ n + 1) by omega,
    Nat.testBit_two_pow_sub_succ h, Nat.testBit_mod_two_pow]
  by_cases hi : i < n <;> simp [hi]

/-- Unused bits above a value of `k` bits. -/
theorem or_unused_mod (v k n d : Nat) (hk : v < 2 ^ k) : (v ||| unusedPart n (2 ^ k - 1) d) % 2 ^ k = v := by
  apply Nat.eq_of_testBit_eq
  intro i
  rw [Nat.testBit_mod_two_pow, Nat.testBit_or, testBit_unused, Nat.testBit_two_pow_sub_one]
  by_cases hi : i < k
  · simp [hi]
  · have := Nat.testBit_lt_two_pow (lt_of_lt_of_le hk (Nat.pow_le_pow_right (by norm_num) (not_lt.1 hi)))
    simp [hi, this]

/-- A bit of a union over the fields. -/
theorem testBit_foldl_or (fs : List CsrField) (g : CsrField → Nat) (a p : Nat) :
    (fs.foldl (fun acc f => acc ||| g f) a).testBit p = (a.testBit p || fs.any fun f => (g f).testBit p) := by
  induction fs generalizing a with
  | nil => simp
  | cons f fs ih => rw [List.foldl_cons, ih, List.any_cons, Nat.testBit_or, Bool.or_assoc]

/-- A field has its width. -/
theorem csrFieldVal_lt (c : Csr) (f : CsrField) : csrFieldVal c f < 2 ^ csrFieldWidth f := by
  cases f <;> simp only [csrFieldVal, csrFieldWidth] <;> first | exact BitVec.isLt _ | exact Bool.toNat_lt _

/-- Every field is in the list of fields. -/
theorem mem_csrFields (f : CsrField) : f ∈ csrFields := by cases f <;> decide

/-- A bit of the image is a bit of some field. -/
theorem testBit_image (l : CsrLayout) (c : Csr) (p : Nat) :
    (csrImage l c).testBit p = csrFields.any fun f => decide (csrFieldLow l f ≤ p) && (csrFieldVal c f).testBit (p - csrFieldLow l f) := by
  unfold csrImage
  rw [testBit_foldl_or]
  simp [Nat.testBit_shiftLeft]

/-- A bit of the mask of the fields. -/
theorem testBit_mask (l : CsrLayout) (p : Nat) :
    (csrFieldMask l).testBit p = csrFields.any fun f => decide (csrFieldLow l f ≤ p) && decide (p - csrFieldLow l f < csrFieldWidth f) := by
  unfold csrFieldMask
  rw [testBit_foldl_or]
  simp [Nat.testBit_shiftLeft, Nat.testBit_two_pow_sub_one]

/-- Under a legal layout bit `j` of a field lies at its place, inside the image. -/
theorem field_bit {l : CsrLayout} {bits : Nat} (h : csrLayoutWf l bits = true) (c : Csr) (f : CsrField) (j : Nat) (hj : j < csrFieldWidth f) :
    (csrImage l c).testBit (csrFieldLow l f + j) = (csrFieldVal c f).testBit j ∧ (csrFieldMask l).testBit (csrFieldLow l f + j) = true ∧ csrFieldLow l f + j < bits := by
  unfold csrLayoutWf at h
  simp only [Bool.and_eq_true, List.all_eq_true, Bool.or_eq_true, decide_eq_true_eq, beq_iff_eq] at h
  refine ⟨?_, ?_, ?_⟩
  · rw [testBit_image, Bool.eq_iff_iff, List.any_eq_true]
    constructor
    · rintro ⟨g, _, hg⟩
      simp only [Bool.and_eq_true, decide_eq_true_eq] at hg
      have hlt := csrFieldVal_lt c g
      have hw : csrFieldLow l f + j - csrFieldLow l g < csrFieldWidth g := by
        by_contra hc
        have := Nat.testBit_lt_two_pow (lt_of_lt_of_le hlt (Nat.pow_le_pow_right (by norm_num) (not_lt.1 hc)))
        rw [this] at hg; exact absurd hg.2 (by simp)
      rcases h.2 f (mem_csrFields f) g (mem_csrFields g) with (rfl | hd) | hd
      · simpa using hg.2
      · omega
      · omega
    · intro hb
      exact ⟨f, mem_csrFields f, by simpa using hb⟩
  · rw [testBit_mask, List.any_eq_true]
    exact ⟨f, mem_csrFields f, by simp [hj]⟩
  · have := h.1 f (mem_csrFields f); omega

/-- Under a legal layout the image fits. -/
theorem image_lt {l : CsrLayout} {bits : Nat} (h : csrLayoutWf l bits = true) (c : Csr) : csrImage l c < 2 ^ bits := by
  apply Nat.lt_pow_two_of_testBit
  intro p hp
  rw [testBit_image, ← Bool.not_eq_true, List.any_eq_true]
  rintro ⟨g, _, hg⟩
  simp only [Bool.and_eq_true, decide_eq_true_eq] at hg
  unfold csrLayoutWf at h
  simp only [Bool.and_eq_true, List.all_eq_true, Bool.or_eq_true, decide_eq_true_eq, beq_iff_eq] at h
  have h1 := h.1 g (mem_csrFields g)
  have := Nat.testBit_lt_two_pow (lt_of_lt_of_le (csrFieldVal_lt c g) (Nat.pow_le_pow_right (by norm_num) (show csrFieldWidth g ≤ p - csrFieldLow l g by omega)))
  rw [this] at hg; exact absurd hg.2 (by simp)

/-- A number with every field of a CSR at its place reads as that CSR. -/
theorem csrOfImage_eq {l : CsrLayout} {c : Csr} {n : Nat} (h : ∀ f j, j < csrFieldWidth f → n.testBit (csrFieldLow l f + j) = (csrFieldVal c f).testBit j) :
    csrOfImage l n = c := by
  have hb : ∀ (f : CsrField) (b : Bool), csrFieldWidth f = 1 → csrFieldVal c f = b.toNat → n.testBit (csrFieldLow l f) = b := by
    intro f b h1 h2
    have := h f 0 (by omega)
    rw [h2] at this
    cases b <;> simpa using this
  have hv : ∀ (f : CsrField) (w : Nat) (v : BitVec w), csrFieldWidth f = w → csrFieldVal c f = v.toNat → BitVec.ofNat w (n >>> csrFieldLow l f) = v := by
    intro f w v h1 h2
    apply BitVec.eq_of_getLsbD_eq
    intro i hi
    rw [BitVec.getLsbD_ofNat, Nat.testBit_shiftRight, h f i (by omega), h2]
    simp [hi, BitVec.getLsbD]
  obtain ⟨⟨a1,a2,a3,a4,a5,a6,a7⟩, a8,a9,a10,a11,a12,a13,a14,a15,a16,a17,a18,a19,a20,a21⟩ := c
  unfold csrOfImage
  have e1 := hb .covr a1 rfl rfl
  have e2 := hb .cund a2 rfl rfl
  have e3 := hb .ovfl a3 rfl rfl
  have e4 := hb .unfl a4 rfl rfl
  have e5 := hb .div0 a5 rfl rfl
  have e6 := hb .zero a6 rfl rfl
  have e7 := hb .sign a7 rfl rfl
  have e8 := hv .len 2 a8 rfl rfl
  have e9 := hv .vlen 6 a9 rfl rfl
  have e10 := hv .imod 3 a10 rfl rfl
  have e11 := hv .rmd 2 a11 rfl rfl
  have e12 := hv .trd 8 a12 rfl rfl
  have e13 := hb .sup a13 rfl rfl
  have e14 := hb .boot a14 rfl rfl
  have e15 := hb .con a15 rfl rfl
  have e16 := hb .pag a16 rfl rfl
  have e17 := hb .exc a17 rfl rfl
  have e18 := hb .uint a18 rfl rfl
  have e19 := hb .sint a19 rfl rfl
  have e20 := hb .evt a20 rfl rfl
  have e21 := hb .hlt a21 rfl rfl
  simp only [csrFieldLow] at *
  simp only [e1,e2,e3,e4,e5,e6,e7,e8,e9,e10,e11,e12,e13,e14,e15,e16,e17,e18,e19,e20,e21]

/-- Any number read as a CSR and back keeps the fields, and nothing else. -/
theorem csrImage_ofImage {l : CsrLayout} (n : Nat) : csrImage l (csrOfImage l n) = n &&& csrFieldMask l := by
  apply Nat.eq_of_testBit_eq
  intro p
  have hval : ∀ f j, j < csrFieldWidth f → (csrFieldVal (csrOfImage l n) f).testBit j = n.testBit (csrFieldLow l f + j) := by
    intro f j hj
    have hb : ∀ b : Bool, (b.toNat).testBit 0 = b := by intro b; cases b <;> rfl
    have hv : ∀ w k, j < w → (BitVec.ofNat w (n >>> k)).toNat.testBit j = n.testBit (k + j) := by
      intro w k hjw
      rw [BitVec.toNat_ofNat, Nat.testBit_mod_two_pow, Nat.testBit_shiftRight]; simp [hjw]
    cases f <;> simp only [csrFieldWidth] at hj <;> first
      | (obtain rfl : j = 0 := by omega
         exact hb _)
      | exact hv _ _ hj
  rw [Nat.testBit_and, testBit_image, testBit_mask]
  rw [Bool.eq_iff_iff, Bool.and_eq_true, List.any_eq_true, List.any_eq_true]
  constructor
  · rintro ⟨f, hf, hg⟩
    simp only [Bool.and_eq_true, decide_eq_true_eq] at hg
    have hw : p - csrFieldLow l f < csrFieldWidth f := by
      by_contra hc
      have := Nat.testBit_lt_two_pow (lt_of_lt_of_le (csrFieldVal_lt (csrOfImage l n) f) (Nat.pow_le_pow_right (by norm_num) (not_lt.1 hc)))
      rw [this] at hg; exact absurd hg.2 (by simp)
    refine ⟨?_, f, hf, by simp [hg.1, hw]⟩
    have := hval f _ hw
    rw [hg.2] at this
    rw [show csrFieldLow l f + (p - csrFieldLow l f) = p by omega] at this
    exact this.symm
  · rintro ⟨hn, f, hf, hg⟩
    simp only [Bool.and_eq_true, decide_eq_true_eq] at hg
    refine ⟨f, hf, ?_⟩
    rw [hval f _ hg.2, show csrFieldLow l f + (p - csrFieldLow l f) = p by omega]
    simp [hg.1, hn]

/-- The image in a buffer register is the image (R47, R87). -/
theorem image_toNat {sh : Shape} {l : CsrLayout} (h : csrLayoutWf l sh.csrBits = true) (c : Csr) : (BitVec.ofNat sh.bufBits (csrImage l c)).toNat = csrImage l c := by
  rw [BitVec.toNat_ofNat, Nat.mod_eq_of_lt]
  refine lt_of_lt_of_le (image_lt h c) (Nat.pow_le_pow_right (by norm_num) ?_)
  unfold Shape.bufBits; exact le_max_right _ _

/-- Which fields the starred ones are (R86). -/
theorem sameStarred_iff (a b : Csr) : sameStarred a b = true ↔ KeepsStarred b a := by
  simp [sameStarred, KeepsStarred, and_assoc]

end Sys2Proof.Machine
end

