-- ==== Sys2Proof/Laws/Perform.lean ====
section
/-! SUPPORT. What performing a record can do, said once: the inversion of each shared operation, and when it completes. -/

namespace Sys2Proof.Machine

open Sys2Proof

variable {sh : Shape}

/-- Every instruction performs its record, or faults where the `ISA` parameter answers `illegal` (R136). -/
theorem exec_eq (i : Instr) (m : Mach sh) :
    exec i ⟨sh, m⟩ = if legal i m then runRecord i.word (recordOf i m) ⟨sh, m⟩ else .fault .illegalInstruction := by
  cases i with
  | compressed w b => cases h : m.record b <;> simp [exec, execCompressed, runBody, legal, recordOf, h, Instr.word]
  | general w b => cases h : m.record b <;> simp [exec, execGeneral, runBody, legal, recordOf, h, Instr.word]
  | _ => rfl

/-- A legal instruction performs its record. -/
theorem exec_eq_runRecord {i : Instr} {m : Mach sh} (h : legal i m = true) :
    exec i ⟨sh, m⟩ = runRecord i.word (recordOf i m) ⟨sh, m⟩ := by
  rw [exec_eq, if_pos h]

/-- An outcome that is a next state comes from a result. -/
theorem outcome_next {x : Res (Mach sh)} {m' : Mach sh} : outcome x = .next ⟨sh, m'⟩ ↔ x = .ok m' := by
  rcases x with e | m
  · cases e <;> simp [outcome]
  · simp [outcome]

/-- A next state of an instruction has the same shape. -/
theorem outcome_shape {x : Res (Mach sh)} {t : State} (h : outcome x = .next t) : ∃ m', t = ⟨sh, m'⟩ ∧ x = .ok m' := by
  rcases x with e | m
  · cases e <;> simp [outcome] at h
  · simp only [outcome, Host.Outcome.next.injEq] at h
    exact ⟨m, h.symm, rfl⟩

/-- An instruction's next state is its record's result. -/
theorem exec_next {i : Instr} {m m' : Mach sh} :
    exec i ⟨sh, m⟩ = .next ⟨sh, m'⟩ ↔ legal i m = true ∧ m.perform i.word (recordOf i m) = .ok m' := by
  rw [exec_eq]
  split
  · rename_i h
    rw [h]
    exact outcome_next.trans (by simp)
  · rename_i h
    simp [h]

/-- An instruction that has a next state is legal, and its record is one R9 allows. -/
theorem answered_of_next {i : Instr} {m m' : Mach sh} (h : exec i ⟨sh, m⟩ = .next ⟨sh, m'⟩) : answered i m = true := by
  obtain ⟨h1, h2⟩ := exec_next.1 h
  unfold Mach.perform at h2
  split at h2
  · rename_i hw
    simp [answered, h1, hw]
  · cases h2

/-- The lookup of a handler finds the memory, the parameters and the count of steps as they were (R204). -/
@[simp] theorem saving_mem (m : Mach sh) (e : Event) (cls : EventClass) (saved : BitVec sh.W) : (m.saving e cls saved).mem = m.mem := rfl
@[simp] theorem saving_cfg (m : Mach sh) (e : Event) (cls : EventClass) (saved : BitVec sh.W) : (m.saving e cls saved).cfg = m.cfg := rfl
@[simp] theorem saving_draws (m : Mach sh) (e : Event) (cls : EventClass) (saved : BitVec sh.W) :
    (m.saving e cls saved).draws = m.draws := rfl
@[simp] theorem saving_csr (m : Mach sh) (e : Event) (cls : EventClass) (saved : BitVec sh.W) :
    (m.saving e cls saved).core.csr = entryCsr m.cfg.eventEntryCsr m.core.csr cls e := rfl
@[simp] theorem saving_ptp (m : Mach sh) (e : Event) (cls : EventClass) (saved : BitVec sh.W) :
    (m.saving e cls saved).core.ptp = m.core.ptp := by cases cls <;> rfl

/-- With paging off the processor's own read is any other (R107). -/
theorem ownRead_off (m : Mach sh) (a n : Nat) (h : m.core.csr.pag = false) : m.ownRead a n = m.memRead .read a n := by
  simp only [Mach.ownRead, Mach.memRead, Mach.readBytes, Mach.readByte, Mach.translate, h]
  rfl

/-- What taking an event can do. -/
theorem enterAs_ok {m m' : Mach sh} {e : Event} {cls : EventClass} {saved : BitVec sh.W}
    (h : m.enterAs e cls saved = .ok m') :
    (cls = .user → m.core.csr.sup = false) ∧
    ∃ a, (m.saving e cls saved).handler (match cls with | .user => m.core.uetp | .supervisor => m.core.setp) e = .ok a ∧
      m' = { m with draws := m.draws + 1, core := m.core.entered m.cfg e cls saved a } := by
  unfold Mach.enterAs at h
  split at h
  · cases h
  · rename_i hc
    split at h
    · cases h
    · rename_i a ha
      cases h
      refine ⟨?_, a, ha, rfl⟩
      rintro rfl
      simpa using hc

/-- The machine `m'` is `m` with an event taken. -/
def Entered (m m' : Mach sh) : Prop :=
  ∃ (e : Event) (cls : EventClass) (saved a : BitVec sh.W), (cls = .user → m.core.csr.sup = false) ∧
    m' = { m with draws := m.draws + 1, core := m.core.entered m.cfg e cls saved a }

/-- Taking an event, whichever class it has. -/
theorem enter_ok {m m' : Mach sh} {e : Event} {c : BitVec sh.W} {n : Option (BitVec sh.W)} {b : Bool}
    (h : m.enter e c n b = .ok m') : Entered m m' := by
  obtain ⟨hc, a, _, rfl⟩ := enterAs_ok h
  exact ⟨e, _, _, a, hc, rfl⟩

/-- The event entered is one of those due (R214). -/
theorem pick_mem (m : Mach sh) (e : Event) (es : List Event) : m.pick e es ∈ e :: es := by
  unfold Mach.pick
  split
  · simp
  · rw [List.getD_eq_getElem?_getD]
    have h : m.draw .pickEvent % (es.length + 1) < (e :: es).length := Nat.mod_lt _ (by simp)
    rw [List.getElem?_eq_getElem h]
    exact List.getElem_mem h

/-- One of the events due, or what follows. -/
theorem takeOr_ok {m m' : Mach sh} {es : List Event} {n : Option (BitVec sh.W)} {rest : Res (Mach sh)}
    (h : m.takeOr es n rest = .ok m') : (∃ e ∈ es, m.enter e m.core.pc n false = .ok m') ∨ (es = [] ∧ rest = .ok m') := by
  cases es with
  | nil => exact .inr ⟨rfl, h⟩
  | cons e es => exact .inl ⟨_, pick_mem m e es, h⟩

/-- The registers a record names are refused, or allowed unless it is a violation. -/
theorem refusalOf_none {r : Record} (h : refusalOf r = none) :
    namesEmptySlot (recordReads r) (destsOf r) = false ∧ writesPc (destsOf r) = false := by
  unfold refusalOf at h
  split at h
  · cases h
  · split at h
    · cases h
    · rename_i h1 h2
      exact ⟨by simpa using h1, by simpa using h2⟩

/-- The data reads that are made deliver what was to be expected of them. -/
theorem peek_of_loadAll {m : Mach sh} {ds : List DRead} {loaded vs : List Nat} {accs : List Access}
    (h : m.loadAll ds loaded = .ok (vs, accs)) : m.peek ds loaded = vs := by
  induction ds generalizing loaded accs with
  | nil => simp only [Mach.loadAll, Except.ok.injEq, Prod.mk.injEq] at h; exact h.1
  | cons d ds ih =>
    unfold Mach.loadAll at h
    unfold Mach.peek
    cases hv : m.memRead .read (m.address (useRead loaded.length) loaded d.addr) d.size.bytes with
    | error e => simp [hv] at h
    | ok v =>
      simp only [hv] at h ⊢
      split at h
      · cases h
      · rename_i vs' accs' hr
        cases h
        exact ih hr

/-- The machine `m'` is `m` with the effects of `eff`, and perhaps an event taken after them. -/
def Completed (m m' : Mach sh) (eff : Effect sh) : Prop :=
  m' = { m.committed eff with draws := m.draws + 1 } ∨ Entered (m.committed eff) m'

/-- Steps 6 to 9. -/
theorem complete_ok {m m' : Mach sh} {w : IWord} {eff : Effect sh} (h : m.complete w eff = .ok m') :
    (m.afterEvents w eff = [] ∧ m' = { m.committed eff with draws := m.draws + 1 }) ∨
    (∃ e es, m.afterEvents w eff = e :: es ∧
      (m.committed eff).enter (m.pick e es) m.core.pc (some eff.next) true = .ok m') := by
  unfold Mach.complete at h
  split at h
  · rename_i he
    cases h
    exact .inl ⟨he, rfl⟩
  · rename_i e es he
    exact .inr ⟨e, es, he, h⟩

/-- What some data reads would deliver stands after what is there already, one value for each. -/
theorem peek_append (m : Mach sh) (ds : List DRead) (loaded : List Nat) :
    ∃ vs, m.peek ds loaded = loaded ++ vs ∧ vs.length = ds.length := by
  induction ds generalizing loaded with
  | nil => exact ⟨[], by simp [Mach.peek]⟩
  | cons d ds ih =>
    unfold Mach.peek
    obtain ⟨vs, h, hl⟩ := ih _
    exact ⟨_ :: vs, h.trans (List.append_assoc ..), by simp [hl]⟩

/-- More data reads go on from what the first ones deliver. -/
theorem peek_more (m : Mach sh) (ds es : List DRead) (loaded : List Nat) :
    m.peek (ds ++ es) loaded = m.peek es (m.peek ds loaded) := by
  induction ds generalizing loaded with
  | nil => rfl
  | cons d ds ih => exact ih _

/-- The data reads an answer of the `ISA` parameter came from begin with those it started from. -/
theorem ask_reads {α : Type} {m : Mach sh} {isa : IsaView sh → IsaAsk α} {rs : List Reg} {n : Nat} {ds ds' : List DRead} {a : α}
    (h : m.ask isa rs n ds = some (a, ds')) : ds <+: ds' := by
  induction n generalizing ds with
  | zero =>
    unfold Mach.ask at h
    split at h <;> cases h
    exact List.prefix_refl _
  | succ n ih =>
    unfold Mach.ask at h
    split at h
    · cases h
      exact List.prefix_refl _
    · exact (List.prefix_append _ _).trans (ih h)

/-- R140: an answer of the `ISA` parameter depends on no byte of memory but through the data reads it lists. Over another memory in
which those deliver the same, it answers the same. -/
theorem ask_same {α : Type} {m : Mach sh} {isa : IsaView sh → IsaAsk α} {rs : List Reg} {n : Nat} {ds ds' : List DRead} {a : α}
    (mem : Memory) (h : m.ask isa rs n ds = some (a, ds'))
    (hp : ({ m with mem := mem } : Mach sh).peek ds' [] = m.peek ds' []) :
    ({ m with mem := mem } : Mach sh).ask isa rs n ds = some (a, ds') := by
  have same : ∀ es, es <+: ds' → ({ m with mem := mem } : Mach sh).view useBody rs (({ m with mem := mem } : Mach sh).peek es []) =
      m.view useBody rs (m.peek es []) := by
    rintro es ⟨fs, rfl⟩
    obtain ⟨vs, hv, hl⟩ := peek_append ({ m with mem := mem } : Mach sh) fs (({ m with mem := mem } : Mach sh).peek es [])
    obtain ⟨vs', hv', hl'⟩ := peek_append m fs (m.peek es [])
    rw [peek_more, peek_more, hv, hv'] at hp
    rw [(List.append_inj' hp (by rw [hl, hl'])).1]
    rfl
  induction n generalizing ds with
  | zero =>
    have hs := same ds (ask_reads h)
    unfold Mach.ask at h ⊢
    rw [hs]
    exact h
  | succ n ih =>
    have hs := same ds (ask_reads h)
    unfold Mach.ask at h ⊢
    rw [hs]
    split at h
    · exact h
    · exact ih h

/-- Each access of a special operation may be several events (R106). -/
theorem maySplit_special {r : Record} (h : r.special ≠ .none) : maySplit r = true := by simp [maySplit, h]

/-- What working a record out gives. -/
theorem evaluate_ok {m : Mach sh} {w : IWord} {r : Record} {eff : Effect sh} (h : m.evaluate w r = .ok eff) :
    ∃ loaded raccs plan chunks paccs,
      m.loadAll (genericEffects r).dreads [] = .ok (loaded, raccs) ∧
      m.planSpecial loaded (genericEffects r).special = .ok (plan, chunks, paccs) ∧
      m.cellsOf (maySplit r) (m.storeChunks loaded 0 (genericEffects r).dwrites ++ chunks) = .ok eff.cells ∧
      eff.writes = m.writeVals loaded 0 (genericEffects r).writes ∧
      eff.vwrites = m.vwriteVals loaded 0 (genericEffects r).vwrites ∧
      eff.sflags = (genericEffects r).sflags.map (m.flagGen useFlags loaded) ∧
      eff.vflags = (genericEffects r).vflags.map (fun f => (f.laneBytes, m.laneGens useLaneFlags loaded f.src)) ∧
      eff.next = m.nextPc w loaded (genericEffects r) plan ∧ eff.plan = plan := by
  unfold Mach.evaluate at h
  simp only at h
  split at h
  · cases h
  · rename_i loaded raccs hl
    split at h
    · cases h
    · rename_i plan chunks paccs hp
      split at h
      · cases h
      · rename_i cells hcs
        cases h
        exact ⟨loaded, raccs, plan, chunks, paccs, hl, hp, hcs, rfl, rfl, rfl, rfl, rfl, rfl⟩

/-- Where a record is worked out, the values it writes are those the privilege check saw, if it makes the writes it lists at all. -/
theorem writes_listed {m : Mach sh} {w : IWord} {r : Record} {eff : Effect sh} (h : m.evaluate w r = .ok eff) :
    eff.writes = if r.special = .none then m.listedWrites r else [] := by
  obtain ⟨loaded, raccs, plan, chunks, paccs, hl, _, _, hw, _⟩ := evaluate_ok h
  rw [hw, Mach.listedWrites, peek_of_loadAll hl]
  cases hs : r.special <;> simp [genericEffects, hs, Mach.writeVals]

/-- A record that lists no write that changes a starred field makes none. -/
theorem changes_listed {m : Mach sh} {w : IWord} {r : Record} {eff : Effect sh} (h : m.evaluate w r = .ok eff)
    (hc : changesStarred m.cfg.csrLayout sh.csrBits m.core.csr (m.listedWrites r) = false) :
    changesStarred m.cfg.csrLayout sh.csrBits m.core.csr eff.writes = false := by
  rw [writes_listed h]
  split
  · exact hc
  · rfl

/-- Where a record is worked out, the pc that would follow is known. -/
theorem knownNext_eq {m : Mach sh} {w : IWord} {r : Record} {eff : Effect sh} (h : m.evaluate w r = .ok eff) :
    m.knownNext w r = some eff.next := by
  obtain ⟨loaded, raccs, plan, chunks, paccs, hl, hp, _, _, _, _, _, hn, _⟩ := evaluate_ok h
  simp only [Mach.knownNext, peek_of_loadAll hl, hp, hn]

/-- What a record can do: one of the events due before its effects, with a refusal in their place if it names a register it may
not; or its effects, and perhaps an event after them, and then nothing was due before. -/
theorem perform_cases {m m' : Mach sh} {w : IWord} {r : Record} (h : m.perform w r = .ok m') :
    (∃ e, ((e = .privilegeViolation ∧ refusalOf r = none ∧ m.violates r = true) ∨
        ∃ hits, hits ≠ [] ∧ e = .breakpoint hits ∧
          hits = if refusalOf r = none then m.beforeHits w (m.evaluate w r)
            else m.core.brkHits (selEarly m.cfg.brkTiming) w [] {}) ∧
      m.enter e m.core.pc (m.knownNext w r) false = .ok m') ∨
    ∃ eff, m.evaluate w r = .ok eff ∧ refusalOf r = none ∧ m.beforeEvents w r = [] ∧ m.complete w eff = .ok m' := by
  have hbrk : ∀ {hits e}, e ∈ brkEvents hits → hits ≠ [] ∧ e = .breakpoint hits := by
    intro hits e he
    unfold brkEvents at he
    split at he
    · cases he
    · rename_i h
      exact ⟨fun h' => h (by rw [h']; rfl), List.mem_singleton.1 he⟩
  unfold Mach.perform at h
  split at h
  · split at h
    · rename_i hr
      rcases takeOr_ok h with ⟨e, he, h⟩ | ⟨_, h⟩
      · exact .inl ⟨e, .inr ⟨_, (hbrk he).1, (hbrk he).2, by simp [hr]⟩, h⟩
      · cases h
    · rename_i hr
      rcases takeOr_ok h with ⟨e, he, h⟩ | ⟨hes, h⟩
      · refine .inl ⟨e, ?_, h⟩
        unfold Mach.beforeEvents at he
        rcases List.mem_append.1 he with he | he
        · exact .inr ⟨_, (hbrk he).1, (hbrk he).2, by simp [hr]⟩
        · split at he
          · rename_i hv
            exact .inl ⟨List.mem_singleton.1 he, hr, hv⟩
          · cases he
      · split at h
        · cases h
        · rename_i eff heff
          exact .inr ⟨eff, heff, hr, hes, h⟩
  · cases h

/-- The same, as the states it can leave: in the second case the registers it names were allowed, and in user mode it changes no
starred CSR field. -/
theorem perform_ok {m m' : Mach sh} {w : IWord} {r : Record} (h : m.perform w r = .ok m') :
    Entered m m' ∨
    ∃ eff, m.evaluate w r = .ok eff ∧ allowed m (recordReads r) (destsOf r) = true ∧
      (needsSupervisor r.special = true → m.core.csr.sup = true) ∧
      (m.core.csr.sup = false → changesStarred m.cfg.csrLayout sh.csrBits m.core.csr eff.writes = false) ∧
      Completed m m' eff := by
  rcases perform_cases h with ⟨e, _, h⟩ | ⟨eff, he, hr, hes, h⟩
  · exact .inl (enter_ok h)
  · have hv : m.violates r = false := by
      by_contra hc
      simp [Mach.beforeEvents, Bool.not_eq_false _ ▸ hc] at hes
    unfold Mach.violates at hv
    obtain ⟨h1, h2⟩ := refusalOf_none hr
    refine .inr ⟨eff, he, ?_, ?_, ?_, ?_⟩
    · unfold allowed
      rw [h1, h2]
      cases hs : m.core.csr.sup <;> simp_all
    · intro hn
      cases hs : m.core.csr.sup <;> simp_all
    · intro hs
      exact changes_listed he (by simp_all)
    · rcases complete_ok h with ⟨_, h⟩ | ⟨e, es, _, h⟩
      · exact .inl h
      · exact .inr (enter_ok h)

/-- With no breakpoint register active nothing matches (R223). -/
@[simp] theorem brkHits_none (c : Core sh) (sel : BrkMode → Bool) (w : IWord) (accs : List Access) (gens : Flags)
    (h : c.bm = 0#30) : c.brkHits sel w accs gens = [] := by
  unfold Core.brkHits
  rw [List.filterMap_eq_nil_iff]
  intro n _
  rw [h]
  fin_cases n <;> simp [brkCode, brkModeOf, brkMatch]

/-- With no breakpoint register active only a privilege violation can be due before the effects. -/
theorem beforeEvents_off {m : Mach sh} (hb : NoBreakpoints m) (w : IWord) (r : Record) :
    m.beforeEvents w r = if m.violates r then [.privilegeViolation] else [] := by
  have h : ∀ x, m.beforeHits w x = [] := by
    intro x
    cases x <;> exact brkHits_none _ _ _ _ _ hb
  simp [Mach.beforeEvents, h, brkEvents]

/-- With no breakpoint register active a well-formed record is refused, raises a violation, faults or completes, in this order
(R240 steps 4 to 9). -/
theorem perform_off {m : Mach sh} (hb : NoBreakpoints m) (w : IWord) {r : Record} (hw : r.wf = true) :
    m.perform w r =
      match refusalOf r with
      | some x => .error (.refuse x)
      | none =>
        if m.violates r then m.enter .privilegeViolation m.core.pc (m.knownNext w r) false
        else
          match m.evaluate w r with
          | .error e => .error e
          | .ok eff => m.complete w eff := by
  have hb' : m.core.bm = 0#30 := hb
  simp only [Mach.perform, hw, if_true, beforeEvents_off hb, brkHits_none _ _ _ _ _ hb']
  cases refusalOf r with
  | some x => rfl
  | none =>
    cases m.violates r
    · cases m.evaluate w r <;> rfl
    · rfl

/-- An allowed record is not refused. -/
theorem refusalOf_allowed {m : Mach sh} {r : Record} (h : allowed m (recordReads r) (destsOf r) = true) : refusalOf r = none := by
  unfold allowed at h
  simp only [Bool.and_eq_true, Bool.not_eq_true'] at h
  simp [refusalOf, h.1.1, h.1.2]

/-- A record whose registers are allowed is no violation, if it is no dump or restore in user mode and lists no change of a starred
field there. -/
theorem violates_allowed {m : Mach sh} {r : Record}
    (ha : allowed m (recordReads r) (destsOf r) = true) (hs : needsSupervisor r.special = true → m.core.csr.sup = true)
    (hc : m.core.csr.sup = false → changesStarred m.cfg.csrLayout sh.csrBits m.core.csr (m.listedWrites r) = false) :
    m.violates r = false := by
  unfold Mach.violates
  unfold allowed at ha
  cases hsup : m.core.csr.sup <;> simp_all

/-- A record completes, or enters an event after its effects, when no breakpoint is active, its registers are allowed, its reads
and stores succeed, and it lists no change of a starred CSR field in user mode. -/
theorem perform_completes {m : Mach sh} {w : IWord} {r : Record} {eff : Effect sh} (hb : NoBreakpoints m) (hw : r.wf = true)
    (ha : allowed m (recordReads r) (destsOf r) = true)
    (hs : needsSupervisor r.special = true → m.core.csr.sup = true) (he : m.evaluate w r = .ok eff)
    (hc : m.core.csr.sup = false → changesStarred m.cfg.csrLayout sh.csrBits m.core.csr (m.listedWrites r) = false) :
    m.perform w r = m.complete w eff := by
  rw [perform_off hb w hw, refusalOf_allowed ha, violates_allowed ha hs hc, he]
  rfl

/-- With no breakpoint register active and no flag exception due an instruction ends in the state its effects leave. -/
theorem complete_off {m : Mach sh} {w : IWord} {eff : Effect sh} (hb : NoBreakpoints m) (hx : m.autoExceptions eff.gens = []) :
    m.complete w eff = .ok { m.committed eff with draws := m.draws + 1 } := by
  have h : m.afterEvents w eff = [] := by simp [Mach.afterEvents, brkHits_none _ _ _ _ _ hb, brkEvents, hx]
  simp only [Mach.complete, h]

/-- With one or more due it enters one of them. -/
theorem complete_exc {m : Mach sh} {w : IWord} {eff : Effect sh} {e : Event} {es : List Event} (hb : NoBreakpoints m)
    (hx : m.autoExceptions eff.gens = e :: es) :
    m.complete w eff = (m.committed eff).enter (m.pick e es) m.core.pc (some eff.next) true := by
  have h : m.afterEvents w eff = e :: es := by simp [Mach.afterEvents, brkHits_none _ _ _ _ _ hb, brkEvents, hx]
  simp only [Mach.complete, h]

end Sys2Proof.Machine
end

