-- ==== Sys2Proof/Laws/Records.lean ====
section
/-! SUPPORT. When a record completes, and with what; what enters an event. -/

namespace Sys2Proof.Machine

open Sys2Proof

variable {sh : Shape}

/-- A record with no data access and no special operation is worked out without a fault. -/
theorem evaluate_pure {sh : Shape} (m : Mach sh) (w : IWord) (r : Record) (hs : r.special = .none) (hd : r.dreads = [])
    (hw : r.dwrites = []) :
    m.evaluate w r = .ok {
      writes := m.writeVals [] 0 r.writes
      vwrites := m.vwriteVals [] 0 r.vwrites
      accs := []
      cells := []
      sflags := r.sflags.map (m.flagGen useFlags [])
      vflags := r.vflags.map fun f => (f.laneBytes, m.laneGens useLaneFlags [] f.src)
      gens := m.generated (r.sflags.map (m.flagGen useFlags [])) (r.vflags.map fun f => (f.laneBytes, m.laneGens useLaneFlags [] f.src))
      next := m.nextPc w [] r .none
      plan := .none } := by
  simp [Mach.evaluate, genericEffects, hs, hd, hw, Mach.loadAll, Mach.planSpecial, Mach.storeChunks]

/-- The values such a record lists are those it writes. -/
theorem listedWrites_pure {m : Mach sh} {r : Record} (hd : r.dreads = []) (hs : r.special = .none) :
    m.listedWrites r = m.writeVals [] 0 r.writes := by
  simp [Mach.listedWrites, genericEffects, hd, hs, Mach.peek]

/-- A record that lists no write lists no value. -/
@[simp] theorem listedWrites_nil {m : Mach sh} {r : Record} (h : r.writes = []) : m.listedWrites r = [] := by
  simp [Mach.listedWrites, h, Mach.writeVals]

/-- What an instruction with a record that R9 allows comes to with no breakpoint register active (R240 steps 4 to 9). -/
theorem exec_off {m : Mach sh} {i : Instr} (hb : NoBreakpoints m) (ha : answered i m = true) :
    exec i ⟨sh, m⟩ = outcome (match refusalOf (recordOf i m) with
      | some x => .error (.refuse x)
      | none =>
        if m.violates (recordOf i m) then m.enter .privilegeViolation m.core.pc (m.knownNext i.word (recordOf i m)) false
        else
          match m.evaluate i.word (recordOf i m) with
          | .error e => .error e
          | .ok eff => m.complete i.word eff) := by
  unfold answered at ha
  rw [Bool.and_eq_true] at ha
  refine (exec_eq_runRecord ha.1).trans ((congrArg outcome (perform_off hb _ ha.2)).trans ?_)
  cases refusalOf (recordOf i m) with
  | some x => rfl
  | none =>
    cases m.violates (recordOf i m)
    · cases m.evaluate i.word (recordOf i m) <;> rfl
    · rfl

/-- An instruction that is neither refused nor a violation completes, or enters an event after its effects (R240 steps 6 to 8). -/
theorem exec_complete {m : Mach sh} {i : Instr} {eff : Effect sh} (hb : NoBreakpoints m) (hw : answered i m = true)
    (ha : allowed m (recordReads (recordOf i m)) (destsOf (recordOf i m)) = true)
    (hs : needsSupervisor (recordOf i m).special = true → m.core.csr.sup = true) (he : m.evaluate i.word (recordOf i m) = .ok eff)
    (hc : m.core.csr.sup = false → changesStarred m.cfg.csrLayout sh.csrBits m.core.csr (m.listedWrites (recordOf i m)) = false) :
    exec i ⟨sh, m⟩ = outcome (m.complete i.word eff) := by
  rw [exec_off hb hw, refusalOf_allowed ha]
  simp [violates_allowed ha hs hc, he]

/-- An instruction completes when no event is due (R240 steps 6 to 9). -/
theorem exec_completes {m : Mach sh} {i : Instr} {eff : Effect sh} (hb : NoBreakpoints m) (hw : answered i m = true)
    (ha : allowed m (recordReads (recordOf i m)) (destsOf (recordOf i m)) = true)
    (hs : needsSupervisor (recordOf i m).special = true → m.core.csr.sup = true) (he : m.evaluate i.word (recordOf i m) = .ok eff)
    (hc : m.core.csr.sup = false → changesStarred m.cfg.csrLayout sh.csrBits m.core.csr (m.listedWrites (recordOf i m)) = false)
    (hx : m.autoExceptions eff.gens = []) :
    exec i ⟨sh, m⟩ = .next ⟨sh, { m.committed eff with draws := m.draws + 1 }⟩ := by
  rw [exec_complete hb hw ha hs he hc, complete_off hb hx]
  rfl

/-- An instruction with exceptions due enters one of them after its effects (R240 step 8). -/
theorem exec_event {m : Mach sh} {i : Instr} {eff : Effect sh} {e : Event} {es : List Event} (hb : NoBreakpoints m)
    (hw : answered i m = true) (ha : allowed m (recordReads (recordOf i m)) (destsOf (recordOf i m)) = true)
    (hs : needsSupervisor (recordOf i m).special = true → m.core.csr.sup = true) (he : m.evaluate i.word (recordOf i m) = .ok eff)
    (hc : m.core.csr.sup = false → changesStarred m.cfg.csrLayout sh.csrBits m.core.csr (m.listedWrites (recordOf i m)) = false)
    (hx : m.autoExceptions eff.gens = e :: es) :
    exec i ⟨sh, m⟩ = outcome ((m.committed eff).enter (m.pick e es) m.core.pc (some eff.next) true) := by
  rw [exec_complete hb hw ha hs he hc, complete_exc hb hx]

/-- With no flag generated no exception is due (R227). -/
theorem autoExceptions_none {sh} (m : Mach sh) : m.autoExceptions {} = [] := by
  unfold Mach.autoExceptions
  split
  · simp [allFlags, flagOf]
  · rfl

/-- With `EXC = 0` no exception is due (R227). -/
theorem autoExceptions_off {sh} (m : Mach sh) (g) (h : m.core.csr.exc = false) : m.autoExceptions g = [] := by
  simp [Mach.autoExceptions, h]

/-- With no flags there is none generated. -/
@[simp] theorem generated_none {sh} (m : Mach sh) : m.generated none none = {} := by
  simp [Mach.generated, unionFlags, flagsBy, flagOf]

/-- A bit collected over a list of bits is there from the start or comes from an entry. -/
theorem foldl_or_bit {α : Type} (f : α → BitVec 32) (ks : List α) (a : BitVec 32) (j : Nat) :
    (ks.foldl (fun acc k => acc ||| f k) a).getLsbD j = (a.getLsbD j || ks.any fun k => (f k).getLsbD j) := by
  induction ks generalizing a with
  | nil => simp
  | cons k ks ih => rw [List.foldl_cons, ih]; simp [Bool.or_assoc]

/-- Two lists of the hardware's own writes, one after the other. -/
theorem markImplicit_append (c : Core sh) (cfg : Params) (a b : List HwWrite) :
    (c.markImplicit cfg a).markImplicit cfg b = c.markImplicit cfg (a ++ b) := by
  have h : ∀ (f : HwWrite → BitVec 32) (u : BitVec 32), u ||| (a.foldl (fun acc k => acc ||| f k) 0#32) |||
      (b.foldl (fun acc k => acc ||| f k) 0#32) = u ||| (a ++ b).foldl (fun acc k => acc ||| f k) 0#32 := by
    intro f u
    apply BitVec.eq_of_getLsbD_eq
    intro j hj
    simp only [BitVec.getLsbD_or, foldl_or_bit, List.any_append, BitVec.getLsbD_zero, Bool.false_or, Bool.or_assoc]
  unfold Core.markImplicit implicitSet implicitOpen
  rw [h, h]

/-- An instruction with no data access and no special operation completes. -/
theorem exec_pure {sh : Shape} {m : Mach sh} (i : Instr) (hb : NoBreakpoints m) (hw : answered i m = true)
    (hs : (recordOf i m).special = .none) (hd : (recordOf i m).dreads = []) (hwr : (recordOf i m).dwrites = [])
    (ha : allowed m (recordReads (recordOf i m)) (destsOf (recordOf i m)) = true)
    (hc : m.core.csr.sup = false → changesStarred m.cfg.csrLayout sh.csrBits m.core.csr (m.writeVals [] 0 (recordOf i m).writes) = false)
    (hx : m.autoExceptions (m.generated ((recordOf i m).sflags.map (m.flagGen useFlags [])) ((recordOf i m).vflags.map fun f => (f.laneBytes, m.laneGens useLaneFlags [] f.src))) = []) :
    exec i ⟨sh, m⟩ = .next ⟨sh, { m.committed {
      writes := m.writeVals [] 0 (recordOf i m).writes
      vwrites := m.vwriteVals [] 0 (recordOf i m).vwrites
      accs := []
      cells := []
      sflags := (recordOf i m).sflags.map (m.flagGen useFlags [])
      vflags := (recordOf i m).vflags.map fun f => (f.laneBytes, m.laneGens useLaneFlags [] f.src)
      gens := m.generated ((recordOf i m).sflags.map (m.flagGen useFlags [])) ((recordOf i m).vflags.map fun f => (f.laneBytes, m.laneGens useLaneFlags [] f.src))
      next := m.nextPc i.word [] (recordOf i m) .none
      plan := .none } with draws := m.draws + 1 }⟩ :=
  exec_completes hb hw ha (by rw [hs]; intro h; cases h) (evaluate_pure m i.word (recordOf i m) hs hd hwr)
    (by rw [listedWrites_pure hd hs]; exact hc) hx

/-- One explicit write of file 0 (R25, R26). -/
theorem regWrites_x {sh} (cfg) (c : Core sh) (d v) : c.regWrites cfg [(.x d, v)] =
    { c with x := c.x.set d (BitVec.ofNat _ v), fu0 := c.fu0 ||| usageBit d.val }.markImplicit cfg [.fu0] := rfl

/-- With no breakpoint register active nothing matches (R220). -/
theorem brkHits_nil {sh} {m : Mach sh} (hb : NoBreakpoints m) (sel w accs gens) : m.core.brkHits sel w accs gens = [] := brkHits_none _ _ _ _ _ hb

/-- A starred register among the sources or the destinations (R232). -/
theorem touches_of {reads : List Reg} {dests : List Dest} (h : (∃ r ∈ reads, r.file = .f2 ∧ 19 ≤ r.idx.val) ∨
      (∃ j : Fin 32, .sr j ∈ dests ∧ 19 ≤ j.val ∧ j ≠ 23)) : touchesStarred reads dests = true := by
  unfold touchesStarred
  rw [Bool.or_eq_true, List.any_eq_true, List.any_eq_true]
  rcases h with ⟨r, hr, h1, h2⟩ | ⟨j, hj, h1, h2⟩
  · exact .inl ⟨r, hr, by simp [h1, starred, h2]⟩
  · exact .inr ⟨_, hj, by simp [starred, h1, h2]⟩

/-- The vector sources of an instruction are always allowed. -/
theorem vreads_ok {sh} (m : Mach sh) (srcs : List (Fin 32)) (rs : List Reg) (h : allowed m rs [] = true) : allowed m (srcs.map (fun i => ⟨.f1, i⟩) ++ rs) [] = true := by
  simp_all [allowed, namesEmptySlot, writesPc, touchesStarred]

/-- Which flag exceptions are due (R227). -/
theorem mem_auto {sh} (m : Mach sh) (g : Flags) (e : Event) : e ∈ m.autoExceptions g ↔ m.core.csr.exc = true ∧ ∃ f, e = .flagException f ∧ flagOf m.cfg.autoExc f = true ∧ flagOf g f = true := by
  unfold Mach.autoExceptions
  split
  · rename_i h
    simp only [h, true_and, List.mem_map, List.mem_filter, Bool.and_eq_true]
    constructor
    · rintro ⟨f, ⟨_, h1⟩, rfl⟩; exact ⟨f, rfl, h1⟩
    · rintro ⟨f, rfl, h1⟩; exact ⟨f, ⟨by cases f <;> decide, h1⟩, rfl⟩
  · rename_i h; simp [h]

/-- In a format without usage words every register of the format is held (R183). -/
theorem imageRegs_noFu (d : DumpLayout) (h : d.holdsFu = false) (a b : Nat) (f : RegFile) : imageRegs d a f = imageRegs d b f := by
  unfold imageRegs
  congr 2
  funext i
  simp [imageHolds, h]

/-- A mode code has five bits (R43). -/
theorem brkCode_lt (bm n) : brkCode bm n < 32 := Nat.mod_lt _ (by norm_num)

/-- The reserved mode codes (R45). -/
theorem mode_none (k : Nat) : brkModeOf k = none ↔ 19 ≤ k := by
  constructor
  · intro h
    by_contra hk
    push Not at hk
    interval_cases k <;> simp [brkModeOf] at h
  · intro h
    unfold brkModeOf
    split <;> first | omega | rfl

/-- The modes a 32 bit machine has no register for (R225). -/
theorem mode_wide (sh : Shape) (k : Nat) (hk : k ≤ 18) : modeTooWide sh (brkModeOf k) = true ↔ sh.wlen = .w32 ∧ 17 ≤ k := by
  interval_cases k <;> cases h : sh.wlen <;> simp [brkModeOf, modeTooWide, h, Shape.W, WLen.bits, ILen.bits]

/-- The code of the instruction address mode (R44). -/
theorem mode_instrAddr (k : Nat) : brkModeOf k = some .instrAddr ↔ k = 1 := by
  constructor
  · intro h
    unfold brkModeOf at h
    split at h <;> first | rfl | simp at h
  · rintro rfl; rfl

/-- Which registers match (R220). -/
theorem brkHits_mem {sh : Shape} (c : Core sh) (sel w accs gens) (n : Fin 6) (md : BrkMode) :
    (n, md) ∈ c.brkHits sel w accs gens ↔ brkModeOf (brkCode c.bm n) = some md ∧ sel md = true ∧ brkMatch c w accs gens md c.br[n] = true := by
  unfold Core.brkHits
  rw [List.mem_filterMap]
  constructor
  · rintro ⟨k, _, h⟩
    split at h
    · cases h
    · rename_i md' hmd
      split at h
      · rename_i hc
        simp only [Option.some.injEq, Prod.mk.injEq] at h
        obtain ⟨rfl, rfl⟩ := h
        simpa [hmd] using hc
      · cases h
  · rintro ⟨h1, h2, h3⟩
    refine ⟨n, List.mem_finRange n, ?_⟩
    rw [h1]
    exact if_pos (by rw [h2, h3]; rfl)

/-- With one register active there is at most one match. -/
theorem brkHits_single {sh : Shape} (c : Core sh) (sel w accs gens) (n : Fin 6) (md : BrkMode)
    (h : ∀ j, brkModeOf (brkCode c.bm j) = if j = n then some md else some .disabled) :
    c.brkHits sel w accs gens = if sel md && brkMatch c w accs gens md c.br[n] then [(n, md)] else [] := by
  unfold Core.brkHits
  have : (fun k : Fin 6 => match brkModeOf (brkCode c.bm k) with
    | none => none
    | some md => if sel md && brkMatch c w accs gens md c.br[k] then some (k, md) else none) =
    fun k => if k = n then (if sel md && brkMatch c w accs gens md c.br[n] then some (n, md) else none) else none := by
    funext k
    rw [h k]
    by_cases hk : k = n
    · subst hk; simp
    · simp [hk, brkMatch]
  refine Eq.trans (congrArg (fun f => List.filterMap f (List.finRange 6)) this) ?_
  show List.filterMap _ (List.finRange 6) = _
  have hl : List.finRange 6 = [0,1,2,3,4,5] := by decide
  rw [hl]
  by_cases hP : (sel md && brkMatch c w accs gens md c.br[n]) = true
  · simp only [hP, if_true]
    fin_cases n <;> simp
  · simp only [hP]
    fin_cases n <;> simp

end Sys2Proof.Machine
end

