-- ==== Sys2Proof/Laws/Frames.lean ====
section
/-! SUPPORT. What an instruction keeps. -/

namespace Sys2Proof.Machine

open Sys2Proof

variable {sh : Shape}

/-- The destinations of the values written are the record's own. -/
theorem writeVals_dests (m : Mach sh) (loaded) (k) (ws : List (Dest × Operand)) : (m.writeVals loaded k ws).map (·.1) = ws.map (·.1) := by
  induction ws generalizing k with
  | nil => rfl
  | cons w ws ih => obtain ⟨d, o⟩ := w; simp [Mach.writeVals, ih]

/-- And those in file 1. -/
theorem vwriteVals_dests (m : Mach sh) (loaded) (k) (ws : List VWrite) : (m.vwriteVals loaded k ws).map (·.1) = ws.map (·.d) := by
  induction ws generalizing k with
  | nil => rfl
  | cons w ws ih => simp [Mach.vwriteVals, ih]

/-- What every explicit write keeps, all keep. -/
theorem regWrites_keep {α} (P : Core sh → α) (cfg) (ws : List (Dest × Nat)) (c : Core sh)
    (h : ∀ w ∈ ws, ∀ c, P (c.regWrite cfg w.1 w.2) = P c) : P (c.regWrites cfg ws) = P c := by
  unfold Core.regWrites
  induction ws generalizing c with
  | nil => rfl
  | cons w ws ih =>
    rw [List.foldl_cons, ih _ (fun w hw => h w (by simp [hw]))]
    exact h w (by simp) c

/-- What every vector write keeps, all keep. -/
theorem vectorWrites_keep {α} (P : Core sh → α) (cfg vmsk) (ws : List (Fin 32 × Nat × BitVec sh.vbits)) (c : Core sh)
    (h : ∀ w ∈ ws, ∀ c : Core sh, P (c.vectorWrite cfg vmsk w.1 w.2.1 w.2.2) = P c) : P (c.vectorWrites cfg vmsk ws) = P c := by
  unfold Core.vectorWrites
  induction ws generalizing c with
  | nil => rfl
  | cons w ws ih =>
    rw [List.foldl_cons, ih _ (fun w hw => h w (by simp [hw]))]
    exact h w (by simp) c

/-- The generic destinations are destinations of the record. -/
theorem generic_dests (r : Record) (d) (h : d ∈ (genericEffects r).writes.map (·.1)) : d ∈ destsOf r := by
  unfold genericEffects at h
  split at h
  · exact h
  · simp at h

/-- And those in file 1. -/
theorem generic_vdests (r : Record) (d) (h : d ∈ (genericEffects r).vwrites.map (·.d)) : d ∈ vdestsOf r := by
  unfold genericEffects at h
  split at h
  · exact h
  · simp at h

/-- The special operation stands. -/
theorem generic_special (r : Record) : (genericEffects r).special = r.special := by
  unfold genericEffects; split <;> rfl

/-- What every effect of a record keeps, step 6 of R240 keeps. -/
theorem performed_keep {α} (P : Core sh → α) {m : Mach sh} {w r eff} (he : m.evaluate w r = .ok eff)
    (hreg : ∀ d ∈ destsOf r, ∀ v c, P (c.regWrite m.cfg d v) = P c)
    (hvec : ∀ d ∈ vdestsOf r, ∀ lb res, ∀ c : Core sh, P (c.vectorWrite m.cfg m.core.vmsk d lb res) = P c)
    (hret : r.special = .eventReturn → P (m.core.returned m.cfg) = P m.core)
    (hset : ∀ o, r.special = .setVmsk o → ∀ v, P (m.core.setVmsk m.cfg v) = P m.core)
    (hres : isRestore r.special = false) : P (m.performed eff) = P m.core := by
  obtain ⟨loaded, raccs, plan, chunks, paccs, _, hp, _, hw, hv, _, _, _, hpl⟩ := evaluate_ok he
  rw [generic_special] at hp
  unfold Mach.performed
  rw [hpl]
  cases hsp : r.special with
  | none =>
    rw [hsp] at hp
    simp only [Mach.planSpecial, Except.ok.injEq, Prod.mk.injEq] at hp
    rw [← hp.1]
    show P ((m.core.regWrites m.cfg eff.writes).vectorWrites m.cfg m.core.vmsk eff.vwrites) = _
    rw [vectorWrites_keep P, regWrites_keep P]
    · intro x hx c
      apply hreg
      apply generic_dests
      rw [hw] at hx
      rw [← writeVals_dests m loaded 0]
      exact List.mem_map_of_mem hx
    · intro x hx c
      apply hvec
      apply generic_vdests
      rw [hv] at hx
      rw [← vwriteVals_dests m loaded 0]
      exact List.mem_map_of_mem hx
  | eventReturn =>
    rw [hsp] at hp
    simp only [Mach.planSpecial, Except.ok.injEq, Prod.mk.injEq] at hp
    rw [← hp.1]; exact hret hsp
  | stateDump a =>
    rw [hsp] at hp
    simp only [Mach.planSpecial, Except.ok.injEq, Prod.mk.injEq] at hp
    rw [← hp.1]
  | stateRestore a => rw [hsp] at hres; cases hres
  | setVmsk v =>
    rw [hsp] at hp
    simp only [Mach.planSpecial, Except.ok.injEq, Prod.mk.injEq] at hp
    rw [← hp.1]
    exact hset v hsp _

/-- And steps 6 to 9 keep. -/
theorem committed_keep {α} (P : Core sh → α) {m : Mach sh} {w : IWord} {r : Record} {eff : Effect sh} (he : m.evaluate w r = .ok eff)
    (h1 : P (m.performed eff) = P m.core)
    (hfl : ∀ (c : Core sh) fs, r.sflags ≠ none → P { c with csr := { c.csr with flags := fs } } = P c)
    (hvf : ∀ (c : Core sh) fs, r.vflags ≠ none → P { c with vflg := fs } = P c)
    (hmark : ∀ (c : Core sh) u o, P { c with fu2 := u, fuOpen := o } = P c)
    (hpc : ∀ (c : Core sh) p, P { c with pc := p } = P c) : P (m.committed eff).core = P m.core := by
  obtain ⟨loaded, raccs, plan, chunks, paccs, _, _, _, _, _, hs, hv, _, _⟩ := evaluate_ok he
  have hsn : eff.sflags ≠ none → r.sflags ≠ none := by
    intro h h'; apply h; rw [hs]; unfold genericEffects; split <;> simp [h']
  have hvn : eff.vflags ≠ none → r.vflags ≠ none := by
    intro h h'; apply h; rw [hv]; unfold genericEffects; split <;> simp [h']
  have hwf : P (m.withFlags eff (m.performed eff)) = P m.core := by
    unfold Mach.withFlags
    cases hs' : eff.sflags with
    | none =>
      cases hv' : eff.vflags with
      | none => exact h1
      | some g => exact (hmark _ _ _).trans ((hvf _ _ (hvn (by simp [hv']))).trans h1)
    | some g =>
      have h2 : P ({ m.performed eff with csr := { (m.performed eff).csr with flags := mergeFlags g (m.performed eff).csr.flags } }.markImplicit m.cfg [.csrFlags]) = P m.core :=
        (hmark _ _ _).trans ((hfl _ _ (hsn (by simp [hs']))).trans h1)
      cases hv' : eff.vflags with
      | none => exact h2
      | some g => exact (hmark _ _ _).trans ((hvf _ _ (hvn (by simp [hv']))).trans h2)
  exact (hmark { m.withFlags eff (m.performed eff) with pc := eff.next } _ _).trans ((hpc _ _).trans hwf)

/-- And the instruction keeps, whether or not it enters an event. -/
theorem exec_keep {α} (P : Core sh → α) {m m' : Mach sh} {i : Instr} (h : exec i ⟨sh, m⟩ = .next ⟨sh, m'⟩)
    (hreg : ∀ d ∈ destsOf (recordOf i m), ∀ v c, P (c.regWrite m.cfg d v) = P c)
    (hvec : ∀ d ∈ vdestsOf (recordOf i m), ∀ lb res, ∀ c : Core sh, P (c.vectorWrite m.cfg m.core.vmsk d lb res) = P c)
    (hret : (recordOf i m).special = .eventReturn → P (m.core.returned m.cfg) = P m.core)
    (hset : ∀ o, (recordOf i m).special = .setVmsk o → ∀ v, P (m.core.setVmsk m.cfg v) = P m.core)
    (hres : isRestore (recordOf i m).special = false)
    (hfl : ∀ (c : Core sh) fs, (recordOf i m).sflags ≠ none → P { c with csr := { c.csr with flags := fs } } = P c)
    (hvf : ∀ (c : Core sh) fs, (recordOf i m).vflags ≠ none → P { c with vflg := fs } = P c)
    (hmark : ∀ (c : Core sh) u o, P { c with fu2 := u, fuOpen := o } = P c)
    (hpc : ∀ (c : Core sh) p, P { c with pc := p } = P c)
    (hent : ∀ (c : Core sh) e cls a b, (cls = .user → c.csr.sup = false) → P (c.entered m.cfg e cls a b) = P c) : P m'.core = P m.core := by
  rcases perform_ok (exec_next.1 h).2 with h1 | ⟨eff, he, _, _, _, hc⟩
  · obtain ⟨e, cls, saved, a, hu, rfl⟩ := h1
    exact hent _ _ _ _ _ hu
  · have hcom : P (m.committed eff).core = P m.core :=
      committed_keep P he (performed_keep P he hreg hvec hret hset hres) hfl hvf hmark hpc
    rcases hc with rfl | ⟨e, cls, saved, a, hu, rfl⟩
    · exact hcom
    · exact (hent _ _ _ _ _ hu).trans hcom

/-- What a write of a slot keeps, the explicit write of its register keeps. -/
theorem regWrite_keep_sr {α} (P : Core sh → α) (cfg : Params) (j : Fin 32) (v : Nat) (c : Core sh)
    (h : ∀ s, slotAt j = some s → P (writeSlot cfg.csrLayout c v s) = P c) (hmark : ∀ (c : Core sh) u o, P { c with fu2 := u, fuOpen := o } = P c) :
    P (c.regWrite cfg (.sr j) v) = P c := by
  cases hs : slotAt j with
  | none => simp only [Core.regWrite, hs]
  | some s =>
    simp only [Core.regWrite, hs]
    have : P ((writeSlot cfg.csrLayout c v s).markWritten cfg j) = P (writeSlot cfg.csrLayout c v s) := by
      obtain ⟨u, o, hm⟩ := markWritten_form (writeSlot cfg.csrLayout c v s) cfg j
      rw [hm]
      exact hmark _ _ _
    rw [this]; exact h s hs

/-- What entering an event keeps (R204, R209). -/
theorem entered_keep {α} (P : Core sh → α) (cfg : Params)
    (h : ∀ (c : Core sh) u0 u1 s0 s1 pid csr pc fu fo, P { c with ueb0 := u0, ueb1 := u1, seb0 := s0, seb1 := s1, pid := pid, csr := csr, pc := pc, fu2 := fu, fuOpen := fo } = P c)
    (c : Core sh) e cls a b : P (c.entered cfg e cls a b) = P c := by
  cases cls
  · exact h c _ _ c.seb0 c.seb1 c.pid _ _ _ _
  · exact h c c.ueb0 c.ueb1 _ _ _ _ _ _ _

/-- What only writes of file 2 can change. -/
theorem exec_keep_sr {α} (P : Core sh → α) {m m' : Mach sh} {i : Instr} (h : exec i ⟨sh, m⟩ = .next ⟨sh, m'⟩)
    (hres : isRestore (recordOf i m).special = false)
    (hsr : ∀ j, .sr j ∈ destsOf (recordOf i m) → ∀ s, slotAt j = some s → ∀ v (c : Core sh), P (writeSlot m.cfg.csrLayout c v s) = P c)
    (hset : ∀ o, (recordOf i m).special = .setVmsk o → ∀ v, P (m.core.setVmsk m.cfg v) = P m.core)
    (hall : ∀ (c : Core sh) x v vflg u0 u1 s0 s1 pid csr pc f0 f1 f2 fo, (vflg = c.vflg ∨ (recordOf i m).vflags ≠ none) → P { c with x := x, v := v, vflg := vflg, ueb0 := u0, ueb1 := u1, seb0 := s0, seb1 := s1, pid := pid, csr := csr, pc := pc, fu0 := f0, fu1 := f1, fu2 := f2, fuOpen := fo } = P c) :
    P m'.core = P m.core := by
  have hmark : ∀ (c : Core sh) u o, P { c with fu2 := u, fuOpen := o } = P c := fun c u o => hall c c.x c.v c.vflg c.ueb0 c.ueb1 c.seb0 c.seb1 c.pid c.csr c.pc c.fu0 c.fu1 _ _ (.inl rfl)
  refine exec_keep P h ?_ ?_ ?_ hset hres ?_ ?_ hmark ?_ ?_
  · intro d hd v c
    cases d with
    | x j => exact hall c _ c.v c.vflg c.ueb0 c.ueb1 c.seb0 c.seb1 c.pid c.csr c.pc _ c.fu1 _ _ (.inl rfl)
    | sr j => exact regWrite_keep_sr P m.cfg j v c (fun s hs => hsr j hd s hs v c) hmark
  · intro d _ lb res c
    exact hall c c.x _ c.vflg c.ueb0 c.ueb1 c.seb0 c.seb1 c.pid c.csr c.pc c.fu0 _ _ _ (.inl rfl)
  · intro _; exact hall m.core m.core.x m.core.v m.core.vflg m.core.ueb0 m.core.ueb1 m.core.seb0 m.core.seb1 m.core.pid _ m.core.pc m.core.fu0 m.core.fu1 _ _ (.inl rfl)
  · intro c fs _; exact hall c c.x c.v c.vflg c.ueb0 c.ueb1 c.seb0 c.seb1 c.pid _ c.pc c.fu0 c.fu1 c.fu2 c.fuOpen (.inl rfl)
  · intro c fs hn; exact hall c c.x c.v fs c.ueb0 c.ueb1 c.seb0 c.seb1 c.pid c.csr c.pc c.fu0 c.fu1 c.fu2 c.fuOpen (.inr hn)
  · intro c p; exact hall c c.x c.v c.vflg c.ueb0 c.ueb1 c.seb0 c.seb1 c.pid c.csr p c.fu0 c.fu1 c.fu2 c.fuOpen (.inl rfl)
  · intro c e cls a b _; exact entered_keep P m.cfg (fun c u0 u1 s0 s1 pid csr pc fu fo => hall c c.x c.v c.vflg u0 u1 s0 s1 pid csr pc c.fu0 c.fu1 fu fo (.inl rfl)) c e cls a b

/-- The number of a slot (R37). -/
def slotNum : Slot → Fin 32
  | .vr n => ⟨n.val, by omega⟩
  | .br n => ⟨4 + n.val, by omega⟩
  | .bm => 10
  | .pc => 11
  | .ueb0 => 12
  | .ueb1 => 13
  | .vflg => 14
  | .vmsk => 15
  | .smsk => 16
  | .uetp => 18
  | .fu0 => 19
  | .fu1 => 20
  | .fu2 => 21
  | .pid => 22
  | .csr => 23
  | .seb0 => 24
  | .seb1 => 25
  | .setp => 26
  | .ptp => 27
  | .kr n => ⟨28 + n.val, by omega⟩

/-- A slot found at a number has that number. -/
theorem slotNum_of {j s} (h : slotAt j = some s) : slotNum s = j := by
  fin_cases j <;> simp [slotAt] at h <;> subst h <;> rfl

/-- Every number but 17 has a slot (R37, R53). -/
theorem slot_exists (j : Fin 32) (h : j ≠ 17) : ∃ s, slotAt j = some s := by
  fin_cases j <;> first | exact ⟨_, rfl⟩ | exact absurd rfl h

/-- What step 6 of R240 leaves, a restore apart. -/
theorem performed_cases {m : Mach sh} {w r eff} (he : m.evaluate w r = .ok eff) (hres : isRestore r.special = false) :
    (r.special = .none ∧ m.performed eff = (m.core.regWrites m.cfg eff.writes).vectorWrites m.cfg m.core.vmsk eff.vwrites ∧
      eff.writes.map (·.1) = destsOf r ∧ eff.vwrites.map (·.1) = vdestsOf r) ∨
    (r.special = .eventReturn ∧ m.performed eff = m.core.returned m.cfg) ∨ (m.performed eff = m.core ∧ isDump r.special = true) ∨
    ∃ o v, r.special = .setVmsk o ∧ m.performed eff = m.core.setVmsk m.cfg v := by
  obtain ⟨loaded, raccs, plan, chunks, paccs, _, hp, _, hw, hv, _, _, _, hpl⟩ := evaluate_ok he
  rw [generic_special] at hp
  unfold Mach.performed
  rw [hpl]
  cases hsp : r.special with
  | none =>
    rw [hsp] at hp
    simp only [Mach.planSpecial, Except.ok.injEq, Prod.mk.injEq] at hp
    rw [← hp.1]
    have hg : genericEffects r = r := by unfold genericEffects; rw [hsp]; rfl
    rw [hg] at hw hv
    exact .inl ⟨rfl, rfl, by rw [hw, writeVals_dests]; rfl, by rw [hv, vwriteVals_dests]; rfl⟩
  | eventReturn =>
    rw [hsp] at hp
    simp only [Mach.planSpecial, Except.ok.injEq, Prod.mk.injEq] at hp
    rw [← hp.1]; exact .inr (.inl ⟨rfl, rfl⟩)
  | stateDump a =>
    rw [hsp] at hp
    simp only [Mach.planSpecial, Except.ok.injEq, Prod.mk.injEq] at hp
    rw [← hp.1]; exact .inr (.inr (.inl ⟨rfl, rfl⟩))
  | stateRestore a => rw [hsp] at hres; cases hres
  | setVmsk v =>
    rw [hsp] at hp
    simp only [Mach.planSpecial, Except.ok.injEq, Prod.mk.injEq] at hp
    rw [← hp.1]; exact .inr (.inr (.inr ⟨v, _, rfl, rfl⟩))

/-- The memory after an instruction is the one before, or that with the stores of the record. -/
theorem cells_mem {m m' : Mach sh} {i : Instr} (h : exec i ⟨sh, m⟩ = .next ⟨sh, m'⟩) :
    m'.mem = m.mem ∨ ∃ eff, m.evaluate i.word (recordOf i m) = .ok eff ∧ m'.mem = Memory.setAll m.mem eff.cells := by
  rcases perform_ok (exec_next.1 h).2 with h1 | ⟨eff, he, _, _, _, hc⟩
  · obtain ⟨e, cls, saved, a, hu, rfl⟩ := h1
    exact .inl rfl
  · refine .inr ⟨eff, he, ?_⟩
    rcases hc with rfl | ⟨e, cls, saved, a, hu, rfl⟩ <;> rfl

/-- An undisturbed instruction leaves its effects, and no event. -/
theorem undisturbed_next {m m' : Mach sh} {i : Instr} (hu : undisturbed i m) (h : exec i ⟨sh, m⟩ = .next ⟨sh, m'⟩) :
    ∃ eff, m.evaluate i.word (recordOf i m) = .ok eff ∧ m' = { m.committed eff with draws := m.draws + 1 } ∧
      namesEmptySlot (recordReads (recordOf i m)) (destsOf (recordOf i m)) = false := by
  obtain ⟨hb, hx, hv⟩ := hu
  rw [exec_off hb (answered_of_next h), outcome_next, hv] at h
  split at h
  · cases h
  · rename_i hr
    simp only [Bool.false_eq_true, if_false] at h
    split at h
    · cases h
    · rename_i eff he
      rw [complete_off hb (autoExceptions_off _ _ hx)] at h
      cases h
      exact ⟨eff, he, rfl, (refusalOf_none hr).1⟩

/-- More usage bits. -/
theorem usage_or (a b : BitVec 32) : usageGrows a (a ||| b) := by unfold usageGrows; ext k; simp; intro h; exact .inl h

/-- The same usage bits. -/
theorem usage_refl (a : BitVec 32) : usageGrows a a := by simp [usageGrows]

/-- More and more usage bits. -/
theorem usage_trans {a b c : BitVec 32} (h1 : usageGrows a b) (h2 : usageGrows b c) : usageGrows a c := by
  unfold usageGrows at *
  rw [← h1, BitVec.and_assoc, h2]

/-- A usage bit that is there stays. -/
theorem usage_bit {a b : BitVec 32} {j : Nat} (h : usageGrows a b) (ha : a.getLsbD j = true) : b.getLsbD j = true := by
  unfold usageGrows at h
  rw [← h, BitVec.getLsbD_and, Bool.and_eq_true] at ha
  exact ha.2

/-- Usage bits grow along explicit writes. -/
theorem regWrites_grow (G : Core sh → BitVec 32) (cfg) (ws : List (Dest × Nat)) (c : Core sh)
    (h : ∀ w ∈ ws, ∀ c, usageGrows (G c) (G (c.regWrite cfg w.1 w.2))) : usageGrows (G c) (G (c.regWrites cfg ws)) := by
  unfold Core.regWrites
  induction ws generalizing c with
  | nil => exact usage_refl _
  | cons w ws ih =>
    rw [List.foldl_cons]
    exact usage_trans (h w (by simp) c) (ih _ (fun w hw => h w (by simp [hw])))

/-- And along vector writes. -/
theorem vectorWrites_grow (G : Core sh → BitVec 32) (cfg vmsk) (ws : List (Fin 32 × Nat × BitVec sh.vbits)) (c : Core sh)
    (h : ∀ w ∈ ws, ∀ c : Core sh, usageGrows (G c) (G (c.vectorWrite cfg vmsk w.1 w.2.1 w.2.2))) : usageGrows (G c) (G (c.vectorWrites cfg vmsk ws)) := by
  unfold Core.vectorWrites
  induction ws generalizing c with
  | nil => exact usage_refl _
  | cons w ws ih =>
    rw [List.foldl_cons]
    exact usage_trans (h w (by simp) c) (ih _ (fun w hw => h w (by simp [hw])))

/-- Generated flags clear no usage bit. -/
theorem withFlags_fu (m : Mach sh) (eff : Effect sh) (c : Core sh) : (m.withFlags eff c).fu0 = c.fu0 ∧ (m.withFlags eff c).fu1 = c.fu1 ∧ usageGrows c.fu2 (m.withFlags eff c).fu2 := by
  unfold Mach.withFlags
  cases eff.sflags <;> cases eff.vflags <;> refine ⟨rfl, rfl, ?_⟩
  · exact usage_refl _
  · exact usage_or _ _
  · exact usage_or _ _
  · exact usage_trans (usage_or _ _) (usage_or _ _)

/-- Entering an event clears no usage bit. -/
theorem entered_fu (c : Core sh) (cfg e cls a b) : (c.entered cfg e cls a b).fu0 = c.fu0 ∧ (c.entered cfg e cls a b).fu1 = c.fu1 ∧ usageGrows c.fu2 (c.entered cfg e cls a b).fu2 := by
  refine ⟨by simp, by simp, ?_⟩
  cases cls <;> exact usage_or _ _

/-- Steps 7 to 9 clear no usage bit. -/
theorem committed_fu (m : Mach sh) (eff : Effect sh) : (m.committed eff).core.fu0 = (m.performed eff).fu0 ∧ (m.committed eff).core.fu1 = (m.performed eff).fu1 ∧ usageGrows (m.performed eff).fu2 (m.committed eff).core.fu2 := by
  obtain ⟨h0, h1, h2⟩ := withFlags_fu m eff (m.performed eff)
  exact ⟨h0, h1, usage_trans h2 (usage_or _ _)⟩

/-- An explicit write of another register clears no usage bit (R58). -/
theorem regWrite_fu (cfg : Params) (c : Core sh) (d : Dest) (v : Nat) :
    (d ≠ .sr 19 → usageGrows c.fu0 (c.regWrite cfg d v).fu0) ∧ (d ≠ .sr 20 → usageGrows c.fu1 (c.regWrite cfg d v).fu1) ∧
    (d ≠ .sr 21 → usageGrows c.fu2 (c.regWrite cfg d v).fu2) := by
  cases d with
  | x i => exact ⟨fun _ => usage_or _ _, fun _ => usage_refl _, fun _ => usage_or _ _⟩
  | sr i =>
    unfold Core.regWrite
    cases hs : slotAt i with
    | none => simp only [hs]; exact ⟨fun _ => usage_refl _, fun _ => usage_refl _, fun _ => usage_refl _⟩
    | some s =>
      simp only [hs]
      have hn := slotNum_of hs
      have hmk : ∀ c : Core sh, (c.markWritten cfg i).fu0 = c.fu0 ∧ (c.markWritten cfg i).fu1 = c.fu1 ∧ usageGrows c.fu2 (c.markWritten cfg i).fu2 := by
        intro c
        obtain ⟨u, o, hm⟩ := markWritten_form c cfg i
        rw [hm]
        exact ⟨rfl, rfl, usage_or _ _⟩
      obtain ⟨a, b, e⟩ := hmk (writeSlot cfg.csrLayout c v s)
      refine ⟨?_, ?_, ?_⟩
      · intro h
        rw [a, writeSlot_fu0 _ _ _ _ (by rintro rfl; subst hn; exact h rfl)]; exact usage_refl _
      · intro h
        rw [b, writeSlot_fu1 _ _ _ _ (by rintro rfl; subst hn; exact h rfl)]; exact usage_refl _
      · intro h
        refine usage_trans ?_ e
        rw [writeSlot_fu2 _ _ _ _ (by rintro rfl; subst hn; exact h rfl)]; exact usage_refl _

/-- Step 6 clears no usage bit, writes of FU0, FU1, FU2 apart. -/
theorem performed_fu {m : Mach sh} {w r eff} (he : m.evaluate w r = .ok eff) (hres : isRestore r.special = false) :
    (.sr 19 ∉ destsOf r → usageGrows m.core.fu0 (m.performed eff).fu0) ∧
    (.sr 20 ∉ destsOf r → usageGrows m.core.fu1 (m.performed eff).fu1) ∧
    (.sr 21 ∉ destsOf r → usageGrows m.core.fu2 (m.performed eff).fu2) := by
  rcases performed_cases he hres with ⟨_, hp, hd, hv⟩ | ⟨_, hp⟩ | ⟨hp, _⟩ | ⟨o, v, _, hp⟩ <;> rw [hp]
  · have hne : ∀ w ∈ eff.writes, ∀ j, .sr j ∉ destsOf r → w.1 ≠ .sr j := by
      intro w hw j hj he
      apply hj; rw [← hd, ← he]; exact List.mem_map_of_mem hw
    refine ⟨?_, ?_, ?_⟩
    · intro h
      exact usage_trans (regWrites_grow (fun c => c.fu0) _ _ _ (fun w hw c => (regWrite_fu _ _ _ _).1 (hne w hw _ h)))
        (vectorWrites_grow (fun c => c.fu0) _ _ _ _ (fun _ _ _ => usage_refl _))
    · intro h
      exact usage_trans (regWrites_grow (fun c => c.fu1) _ _ _ (fun w hw c => (regWrite_fu _ _ _ _).2.1 (hne w hw _ h)))
        (vectorWrites_grow (fun c => c.fu1) _ _ _ _ (fun _ _ _ => usage_or _ _))
    · intro h
      exact usage_trans (regWrites_grow (fun c => c.fu2) _ _ _ (fun w hw c => (regWrite_fu _ _ _ _).2.2 (hne w hw _ h)))
        (vectorWrites_grow (fun c => c.fu2) _ _ _ _ (fun _ _ _ => usage_or _ _))
  · exact ⟨fun _ => usage_refl _, fun _ => usage_refl _, fun _ => usage_or _ _⟩
  · exact ⟨fun _ => usage_refl _, fun _ => usage_refl _, fun _ => usage_refl _⟩
  · exact ⟨fun _ => usage_refl _, fun _ => usage_refl _, fun _ => usage_trans (usage_or _ _) (usage_or _ _)⟩

/-- A bit one of several writes sets is set after all. -/
theorem regWrites_sets (G : Core sh → BitVec 32) (cfg) (j : Nat) (ws : List (Dest × Nat)) (c : Core sh)
    (h : ∀ w ∈ ws, ∀ c, usageGrows (G c) (G (c.regWrite cfg w.1 w.2)))
    (hs : ∃ w ∈ ws, ∀ c : Core sh, (G (c.regWrite cfg w.1 w.2)).getLsbD j = true) : (G (c.regWrites cfg ws)).getLsbD j = true := by
  induction ws generalizing c with
  | nil => obtain ⟨w, hw, _⟩ := hs; cases hw
  | cons w ws ih =>
    have ht : ∀ w' ∈ ws, ∀ c, usageGrows (G c) (G (c.regWrite cfg w'.1 w'.2)) := fun w hw => h w (by simp [hw])
    show (G ((c.regWrite cfg w.1 w.2).regWrites cfg ws)).getLsbD j = true
    obtain ⟨w', hw', hset⟩ := hs
    rcases List.mem_cons.1 hw' with rfl | hw'
    · exact usage_bit (regWrites_grow G cfg ws _ ht) (hset c)
    · exact ih _ ht ⟨w', hw', hset⟩

/-- The usage bit of a vector destination is set (R179). -/
theorem vectorWrites_sets (cfg vmsk) (d : Fin 32) (ws : List (Fin 32 × Nat × BitVec sh.vbits)) (c : Core sh)
    (hs : d ∈ ws.map (·.1)) : (c.vectorWrites cfg vmsk ws).fu1.getLsbD d.val = true := by
  induction ws generalizing c with
  | nil => cases hs
  | cons w ws ih =>
    show (((c.vectorWrite cfg vmsk w.1 w.2.1 w.2.2).vectorWrites cfg vmsk ws).fu1).getLsbD d.val = true
    by_cases hd : d ∈ ws.map (·.1)
    · exact ih _ hd
    · have : d = w.1 := by simpa [hd] using hs
      subst this
      refine usage_bit (vectorWrites_grow (fun c => c.fu1) cfg vmsk ws _ (fun _ _ _ => usage_or _ _)) ?_
      simp [Core.vectorWrite, usageBit]

/-- In user mode no starred register but the CSR is a destination (R232). -/
theorem user_dests {m : Mach sh} {reads dests} (ha : allowed m reads dests = true) (hu : m.core.csr.sup = false) (j : Fin 32) (hj : .sr j ∈ dests) : starred j = false ∨ j = 23 := by
  unfold allowed at ha
  simp only [Bool.and_eq_true, Bool.not_eq_true', Bool.or_eq_true, hu, Bool.false_eq_true, false_or] at ha
  have := ha.2
  unfold touchesStarred at this
  rw [Bool.or_eq_false_iff] at this
  have h2 := this.2
  rw [← Bool.not_eq_true, List.any_eq_true] at h2
  by_contra hc
  simp only [not_or] at hc
  apply h2
  exact ⟨_, hj, by simp [hc.2]; simpa using hc.1⟩

/-- What writes of unstarred registers keep, an instruction in user mode keeps. -/
theorem user_keep {α} (P : Core sh → α) {m : Mach sh} {w : IWord} {r : Record} {eff : Effect sh} (he : m.evaluate w r = .ok eff)
    (ha : allowed m (recordReads r) (destsOf r) = true) (hs : needsSupervisor r.special = true → m.core.csr.sup = true) (hu : m.core.csr.sup = false)
    (hsr : ∀ s, starred (slotNum s) = false ∨ slotNum s = 23 → ∀ v (c : Core sh), P (writeSlot m.cfg.csrLayout c v s) = P c)
    (hall : ∀ (c : Core sh) x v vmsk vflg csr f0 f1 f2 fo pc, P { c with x := x, v := v, vmsk := vmsk, vflg := vflg, csr := csr, fu0 := f0, fu1 := f1, fu2 := f2, fuOpen := fo, pc := pc } = P c) :
    P (m.committed eff).core = P m.core := by
  have hmark : ∀ (c : Core sh) u o, P { c with fu2 := u, fuOpen := o } = P c := fun c u o => hall c c.x c.v c.vmsk c.vflg c.csr c.fu0 c.fu1 _ _ c.pc
  have hres : isRestore r.special = false := by
    cases h : r.special with
    | stateRestore a => rw [h] at hs; rw [hs rfl] at hu; cases hu
    | _ => rfl
  refine committed_keep P he (performed_keep P he ?_ ?_ ?_ ?_ hres) ?_ ?_ hmark ?_
  · intro d hd v c
    cases d with
    | x j => exact hall c _ c.v c.vmsk c.vflg c.csr _ c.fu1 _ _ c.pc
    | sr j =>
      refine regWrite_keep_sr P m.cfg j v c (fun s hs => hsr s ?_ v c) hmark
      rw [slotNum_of hs]; exact user_dests ha hu j hd
  · intro d _ lb res c; exact hall c c.x _ c.vmsk c.vflg c.csr c.fu0 _ _ _ c.pc
  · intro _; exact hall m.core m.core.x m.core.v m.core.vmsk m.core.vflg _ m.core.fu0 m.core.fu1 _ _ m.core.pc
  · intro o _ v; exact hall m.core m.core.x m.core.v _ m.core.vflg m.core.csr m.core.fu0 m.core.fu1 _ _ m.core.pc
  · intro c fs _; exact hall c c.x c.v c.vmsk c.vflg _ c.fu0 c.fu1 c.fu2 c.fuOpen c.pc
  · intro c fs _; exact hall c c.x c.v c.vmsk fs c.csr c.fu0 c.fu1 c.fu2 c.fuOpen c.pc
  · intro c p; exact hall c c.x c.v c.vmsk c.vflg c.csr c.fu0 c.fu1 c.fu2 c.fuOpen p

/-- Writes that leave SUP as it is leave it. -/
theorem csrWrites_sup (cfg : Params) (bits_sup : Bool) (ws : List (Dest × Nat)) (c : Core sh) (hc : c.csr.sup = bits_sup)
    (h : ∀ w ∈ ws, w.1 = .sr 23 → (csrOfImage cfg.csrLayout (w.2 % 2 ^ sh.csrBits)).sup = bits_sup) : (c.regWrites cfg ws).csr.sup = bits_sup := by
  induction ws generalizing c with
  | nil => exact hc
  | cons w ws ih =>
    show ((c.regWrite cfg w.1 w.2).regWrites cfg ws).csr.sup = bits_sup
    refine ih _ ?_ (fun w hw => h w (by simp [hw]))
    obtain ⟨d, v⟩ := w
    cases d with
    | x i => exact hc
    | sr i =>
      cases hs : slotAt i with
      | none => simp only [Core.regWrite, hs]; exact hc
      | some s =>
        have hn := slotNum_of hs
        simp only [Core.regWrite, hs, markWritten_csr]
        cases s with
        | csr => exact h (.sr i, v) (by simp) (by rw [← hn]; rfl)
        | _ => exact hc

/-- Steps 6 to 9 take a core to supervisor mode only in a return from an event (R231). -/
theorem committed_sup {m : Mach sh} {w : IWord} {r : Record} {eff : Effect sh} (he : m.evaluate w r = .ok eff)
    (hs : needsSupervisor r.special = true → m.core.csr.sup = true) (hu : m.core.csr.sup = false)
    (hc : changesStarred m.cfg.csrLayout sh.csrBits m.core.csr eff.writes = false) (h : (m.committed eff).core.csr.sup = true) :
    r.special = .eventReturn ∧ (csrOfImage m.cfg.csrLayout (m.core.ueb1.toNat % 2 ^ sh.csrBits)).sup = true := by
  have hres : isRestore r.special = false := by
    cases h : r.special with
    | stateRestore a => rw [h] at hs; rw [hs rfl] at hu; cases hu
    | _ => rfl
  have h1 : (m.performed eff).csr.sup = true := by
    have : (m.committed eff).core.csr.sup = (m.performed eff).csr.sup := by
      show (m.withFlags eff (m.performed eff)).csr.sup = _
      unfold Mach.withFlags
      cases eff.sflags <;> cases eff.vflags <;> rfl
    rw [← this]; exact h
  rcases performed_cases he hres with ⟨_, hp, _, _⟩ | ⟨hsp, hp⟩ | ⟨hp, _⟩ | ⟨o, v, _, hp⟩ <;> rw [hp] at h1
  · have h2 : ((m.core.regWrites m.cfg eff.writes).vectorWrites m.cfg m.core.vmsk eff.vwrites).csr = (m.core.regWrites m.cfg eff.writes).csr :=
      vectorWrites_keep (fun c => c.csr) _ _ _ _ (fun _ _ _ => rfl)
    rw [h2, csrWrites_sup m.cfg false eff.writes m.core hu ?_] at h1
    · cases h1
    · intro w hw h23
      unfold changesStarred at hc
      rw [← Bool.not_eq_true, List.any_eq_true] at hc
      have : sameStarred (csrOfImage m.cfg.csrLayout (w.2 % 2 ^ sh.csrBits)) m.core.csr = true := by
        by_contra hn
        apply hc
        refine ⟨w, hw, ?_⟩
        rw [h23]
        simpa using hn
      rw [((sameStarred_iff _ _).1 this).1, hu]
  · refine ⟨hsp, ?_⟩
    simpa [Core.returned, Core.returnPair, hu] using h1
  · rw [hu] at h1; cases h1
  · simp [hu] at h1

end Sys2Proof.Machine
end

