-- ==== Sys2Proof/Laws/Images.lean ====
section
/-! SUPPORT. The images of State dump and State restore (R183, R184). -/

namespace Sys2Proof.Machine

open Sys2Proof

variable {sh : Shape}

/-- The places of a list of chunks with no address translated. -/
theorem storedAt_chunks (e : Endian) (cs : List Chunk) :
    storedAt (cs.flatMap (plainCells sh e)) = cs.flatMap (chunkPlaces sh) := by
  unfold storedAt
  rw [List.map_flatMap]
  congr 1
  funext c
  exact storedAt_plain c

/-- With paging off, an aligned chunk among stores with no overlap reads back, modulo its size. -/
theorem readChunk_plain (m : Mach sh) (mem : Memory) (chunks : List Chunk) (c : Chunk) (hp : m.core.csr.pag = false)
    (hn : (chunks.flatMap (chunkPlaces sh)).Nodup)
    (hm : m.mem = Memory.setAll mem (chunks.flatMap (plainCells sh m.cfg.endian))) (hc : c ∈ chunks)
    (ha : c.addr % c.unit = 0) : m.readChunk c = .ok (c.val % 256 ^ c.size) := by
  have h1 := readBytes_plain m mem c _ hp ((storedAt_chunks m.cfg.endian chunks).symm ▸ hn) hm
    (fun x hx => List.mem_flatMap.2 ⟨c, hc, hx⟩) .read
  simp only [Mach.readChunk, Mach.checkAlign, ha, if_true, h1, ofBytes_toBytes]

/-- A list of chunks read one by one. -/
theorem readChunks_of (m : Mach sh) {α : Type} (rs : List α) (k : α → Chunk) (f : α → Nat)
    (h : ∀ r ∈ rs, m.readChunk (k r) = .ok (f r)) : m.readChunks (rs.map k) = .ok (rs.map f) := by
  induction rs with
  | nil => rfl
  | cons r rs ih =>
    simp only [List.map_cons, Mach.readChunks, h r (by simp), ih (fun r hr => h r (by simp [hr]))]

/-- Where a chunk lies does not depend on what it holds. -/
theorem readChunk_image (m : Mach sh) (d : DumpLayout) (base : Nat) (r : Reg) (v v' : Nat) :
    m.readChunk (imageChunk sh d base r v) = m.readChunk (imageChunk sh d base r v') := by
  rfl

/-- What an image holds of a file, as membership. -/
theorem mem_imageRegs (d : DumpLayout) (fu : Nat) (f : RegFile) (r : Reg) :
    r ∈ imageRegs d fu f ↔ r.file = f ∧ imageHolds d fu f r.idx = true := by
  unfold imageRegs
  obtain ⟨rf, ri⟩ := r
  simp only [List.mem_map, List.mem_filter, List.mem_finRange, true_and, Reg.mk.injEq]
  constructor
  · rintro ⟨i, h, rfl, rfl⟩
    exact ⟨rfl, h⟩
  · rintro ⟨rfl, h⟩
    exact ⟨ri, h, rfl, rfl⟩

/-- The registers of an image are different. -/
theorem imageRegs_nodup (d : DumpLayout) (a b c : Nat) : (heldRegs d a b c).Nodup := by
  have h : ∀ fu f, (imageRegs d fu f).Nodup := by
    intro fu f
    unfold imageRegs
    refine List.Nodup.map ?_ ((List.nodup_finRange 32).filter _)
    intro i j hij
    simpa using hij
  refine List.Nodup.append (List.Nodup.append (h _ _) (h _ _) ?_) (h _ _) ?_
  · intro r h1 h2
    have h1 := ((mem_imageRegs _ _ _ _).1 h1).1
    have h2 := ((mem_imageRegs _ _ _ _).1 h2).1
    rw [h1] at h2
    cases h2
  · intro r h1 h2
    have h2 := ((mem_imageRegs _ _ _ _).1 h2).1
    rcases List.mem_append.1 h1 with h1 | h1 <;>
    · have h1 := ((mem_imageRegs _ _ _ _).1 h1).1
      rw [h1] at h2
      cases h2

/-- What a restore of other registers keeps, a restore keeps. -/
theorem restore_keep {α : Type} (P : Core sh → α) (l : CsrLayout) (f : Reg → Nat) (rs : List Reg) (c : Core sh)
    (h : ∀ r ∈ rs, ∀ (v : Nat) (c : Core sh), P (c.restoreReg l r v) = P c) :
    P (rs.foldl (fun c r => c.restoreReg l r (f r)) c) = P c := by
  induction rs generalizing c with
  | nil => rfl
  | cons r rs ih =>
    rw [List.foldl_cons, ih _ (fun r hr => h r (by simp [hr]))]
    exact h r (by simp) _ c

/-- A restored register holds its saved value in the end, if no other register's restore changes it. -/
theorem restore_sets {α : Type} (P : Core sh → α) (l : CsrLayout) (f : Reg → Nat) (rs : List Reg) (c : Core sh) (r0 : Reg)
    (a : α) (hr : r0 ∈ rs) (hn : rs.Nodup) (h : ∀ r, r ≠ r0 → ∀ (v : Nat) (c : Core sh), P (c.restoreReg l r v) = P c)
    (h0 : ∀ c : Core sh, P (c.restoreReg l r0 (f r0)) = a) : P (rs.foldl (fun c r => c.restoreReg l r (f r)) c) = a := by
  induction rs generalizing c with
  | nil => cases hr
  | cons r rs ih =>
    rw [List.foldl_cons]
    rw [List.nodup_cons] at hn
    rcases List.mem_cons.1 hr with rfl | hr
    · rw [restore_keep P l f rs _ (fun q hq v c => h q (by rintro rfl; exact hn.1 hq) v c)]
      exact h0 c
    · exact ih _ hr hn.2

/-- The slot of a number is its own. -/
theorem slotAt_inj {i j : Fin 32} {s : Slot} (hi : slotAt i = some s) (hj : slotAt j = some s) : i = j := by
  have h : ∀ i : Fin 32, ∀ j : Fin 32, slotAt i = slotAt j → slotAt i ≠ none → i = j := by decide
  exact h i j (hi.trans hj.symm) (by rw [hi]; simp)

/-- A write of one slot leaves the content of another as it was. -/
theorem slotContent_other (l : CsrLayout) (c : Core sh) (v d : Nat) (s s' : Slot) (h : s ≠ s') :
    slotContent l (writeSlot l c v s) d s' = slotContent l c d s' := by
  cases s with
  | vr n =>
    cases s' with
    | vr k =>
      have hk : n.val ≠ k.val := fun e => h (by rw [Fin.ext e])
      simp [slotContent, writeSlot, Vector.getElem_set_ne _ _ hk]
    | _ => rfl
  | br n =>
    cases s' with
    | br k =>
      have hk : n.val ≠ k.val := fun e => h (by rw [Fin.ext e])
      simp [slotContent, writeSlot, Vector.getElem_set_ne _ _ hk]
    | _ => rfl
  | kr n =>
    cases s' with
    | kr k =>
      have hk : n.val ≠ k.val := fun e => h (by rw [Fin.ext e])
      simp [slotContent, writeSlot, Vector.getElem_set_ne _ _ hk]
    | _ => rfl
  | _ => cases s' <;> first | rfl | exact absurd rfl h

/-- No free bit, no unused part. -/
theorem unused_zero (n mask : Nat) : unusedPart n mask 0 = 0 := by simp [unusedPart]

/-- A value cut to whole bytes and then to fewer bits. -/
theorem mod_mod_pow {a k n : Nat} (h : a ≤ 8 * k) : n % 256 ^ k % 2 ^ a = n % 2 ^ a := by
  rw [pow256]
  exact Nat.mod_mod_of_dvd _ (Nat.pow_dvd_pow 2 h)

/-- A register comes back from enough bytes. -/
theorem ofNat_back {a k : Nat} (b : BitVec a) (h : a ≤ 8 * k) : (BitVec.ofNat a (b.toNat % 256 ^ k)).toNat = b.toNat := by
  rw [BitVec.toNat_ofNat, mod_mod_pow h, Nat.mod_eq_of_lt b.isLt]

/-- The bits of VFLG that hold a flag. -/
theorem testBit_lanes127 (n i : Nat) (h : i < 8 * n) (h7 : i % 8 ≠ 7) : (lanesToNat (fun _ => 127) n).testBit i = true := by
  have := testBit_lanes (fun _ => 127) n (i / 8) (i % 8) (by omega) (by omega)
  rw [show 8 * (i / 8) + i % 8 = i by omega] at this
  rw [this]
  have h8 : i % 8 < 7 := by omega
  generalize i % 8 = q at h8
  interval_cases q <;> decide

/-- A FILE 2 register written with its saved content holds what it held; of FU2, which may have open bits, see `fu2_back`. -/
theorem slot_back (l : CsrLayout) (c m : Core sh) (d k : Nat) (s : Slot) (hp : s ≠ .pc) (hf : s ≠ .fu2)
    (hl : csrLayoutWf l sh.csrBits = true) (hw : max sh.bufBits sh.vbits ≤ 8 * k) :
    slotContent l (writeSlot l c (slotContent l m d s % 256 ^ k) s) 0 s = slotContent l m 0 s := by
  have hb : sh.bufBits ≤ 8 * k := le_trans (le_max_left _ _) hw
  have hv : sh.vbits ≤ 8 * k := le_trans (le_max_right _ _) hw
  have hW : sh.W ≤ 8 * k := le_trans (le_max_left _ _) hb
  have hC : sh.csrBits ≤ 8 * k := le_trans (le_max_right _ _) hb
  have h32 : 32 ≤ 8 * k := le_trans (by unfold Shape.W; cases sh.wlen <;> simp [WLen.bits]) hW
  have hn : sh.nl8 ≤ 8 * k := le_trans (by unfold Shape.vbits; omega) hv
  cases s with
  | pc => exact absurd rfl hp
  | bm =>
    simp only [slotContent, writeSlot, unused_zero, Nat.or_zero, BitVec.toNat_ofNat]
    rw [mod_mod_pow (by omega)]
    exact or_unused_mod _ 30 _ _ m.bm.isLt
  | vmsk =>
    simp only [slotContent, writeSlot, unused_zero, Nat.or_zero, BitVec.toNat_ofNat]
    rw [mod_mod_pow hn]
    exact or_unused_mod _ _ _ _ m.vmsk.isLt
  | csr =>
    simp only [slotContent, writeSlot, unused_zero, Nat.or_zero, csrImage_ofImage]
    rw [mod_mod_pow hC]
    apply Nat.eq_of_testBit_eq
    intro i
    simp only [Nat.testBit_and, Nat.testBit_mod_two_pow, Nat.testBit_or, testBit_unused]
    have hlt := image_lt hl m.csr
    by_cases hi : i < sh.csrBits
    · cases hm : (csrFieldMask l).testBit i with
      | true => simp [hi]
      | false =>
        simp only [Bool.and_false]
        symm
        rw [testBit_image, ← Bool.not_eq_true, List.any_eq_true]
        rintro ⟨f, hf, hg⟩
        simp only [Bool.and_eq_true, decide_eq_true_eq] at hg
        have hlt2 : i - csrFieldLow l f < csrFieldWidth f := by
          by_contra hc
          have := Nat.testBit_lt_two_pow (lt_of_lt_of_le (csrFieldVal_lt m.csr f) (Nat.pow_le_pow_right (by norm_num) (not_lt.1 hc)))
          rw [this] at hg; exact absurd hg.2 (by simp)
        have : (csrFieldMask l).testBit i = true := by
          rw [testBit_mask, List.any_eq_true]
          exact ⟨f, hf, by simp [hg.1, hlt2]⟩
        rw [hm] at this; cases this
    · simp only [hi, decide_false, Bool.false_and]
      exact (Nat.testBit_lt_two_pow (lt_of_lt_of_le hlt (Nat.pow_le_pow_right (by norm_num) (not_lt.1 hi)))).symm
  | vflg =>
    simp only [slotContent, writeSlot, unused_zero, Nat.or_zero]
    apply lanes_congr
    intro j hj
    have hl1 : (vflgOfNat sh.nl8 ((lanesToNat (fun k => (m.vflg.toList[k]?.map flagsToNat).getD 0) sh.nl8 ||| unusedPart sh.vbits (lanesToNat (fun _ => 127) sh.nl8) d) % 256 ^ k)).toList[j]? = some (flagsOfNat (lane8 ((lanesToNat (fun k => (m.vflg.toList[k]?.map flagsToNat).getD 0) sh.nl8 ||| unusedPart sh.vbits (lanesToNat (fun _ => 127) sh.nl8) d) % 256 ^ k) j)) := by
      rw [List.getElem?_eq_getElem (by simpa using hj)]
      simp [vflgOfNat]
    rw [hl1]
    simp only [Option.map_some, Option.getD_some]
    rw [flags_roundtrip]
    set g := (fun k : Nat => (m.vflg.toList[k]?.map flagsToNat).getD 0) with hg
    have hgj : g j = flagsToNat m.vflg[j] := by
      simp only [hg]
      rw [List.getElem?_eq_getElem (by simpa using hj)]
      simp
    show _ = g j % 256
    have hlt : g j < 128 := by
      rw [hgj]; unfold flagsToNat
      have h1 := Bool.toNat_le m.vflg[j].covr
      have h2 := Bool.toNat_le m.vflg[j].cund
      have h3 := Bool.toNat_le m.vflg[j].ovfl
      have h4 := Bool.toNat_le m.vflg[j].unfl
      have h5 := Bool.toNat_le m.vflg[j].div0
      have h6 := Bool.toNat_le m.vflg[j].zero
      have h7 := Bool.toNat_le m.vflg[j].sign
      omega
    rw [Nat.mod_eq_of_lt (show g j < 256 by omega)]
    have hsmall : ∀ x : Nat, x % 128 % 256 = x % 128 := by intro x; omega
    rw [hsmall]
    apply Nat.eq_of_testBit_eq
    intro i
    rw [show (128:Nat) = 2 ^ 7 by norm_num, Nat.testBit_mod_two_pow]
    by_cases hi : i < 7
    · simp only [hi, decide_true, Bool.true_and]
      have hij : 8 * j + i < 8 * k := by unfold Shape.vbits at hv; omega
      have hl8 : ∀ n : Nat, (lane8 n j).testBit i = n.testBit (8 * j + i) := by
        intro n
        unfold lane8
        rw [show (256:Nat) ^ j = 2 ^ (8*j) from pow256 j, show (256:Nat) = 2 ^ 8 by norm_num, Nat.testBit_mod_two_pow, Nat.testBit_div_two_pow, Nat.add_comm]
        simp [show i < 8 by omega]
      rw [hl8, pow256, Nat.testBit_mod_two_pow, Nat.testBit_or, testBit_unused, testBit_lanes127 _ _ (by omega) (by omega), testBit_lanes _ _ _ _ hj (by omega)]
      simp [hij]
    · simp only [hi, decide_false, Bool.false_and]
      exact (Nat.testBit_lt_two_pow (lt_of_lt_of_le hlt (by rw [show (128:Nat) = 2 ^ 7 by norm_num]; exact Nat.pow_le_pow_right (by norm_num) (not_lt.1 hi)))).symm
  | vr n => simp only [slotContent, writeSlot, Fin.getElem_fin, Vector.getElem_set_self]; exact ofNat_back _ hW
  | br n => simp only [slotContent, writeSlot, Fin.getElem_fin, Vector.getElem_set_self]; exact ofNat_back _ hW
  | kr n => simp only [slotContent, writeSlot, Fin.getElem_fin, Vector.getElem_set_self]; exact ofNat_back _ hW
  | ueb1 => exact ofNat_back _ hb
  | seb1 => exact ofNat_back _ hb
  | fu0 => exact ofNat_back _ h32
  | fu1 => exact ofNat_back _ h32
  | fu2 => exact absurd rfl hf
  | pid => exact ofNat_back _ h32
  | _ => exact ofNat_back _ hW

/-- FU2 written with its saved content holds it, with its open bits as they were read (R57, R58). -/
theorem fu2_back (l : CsrLayout) (c m : Core sh) (d d' k : Nat) (h : 32 ≤ 8 * k) :
    slotContent l (writeSlot l c (slotContent l m d .fu2 % 256 ^ k) .fu2) d' .fu2 = slotContent l m d .fu2 := by
  simp only [slotContent, writeSlot]
  exact ofNat_back _ h

end Sys2Proof.Machine
end

