-- ==== Sys2Proof/Laws/PerInstr.lean ====
section
/-! SUPPORT. Laws stated per instruction: its bytes have its length, and alone in an instruction set they decode to it. -/

namespace Sys2Proof.Laws.Encoding

open Sys2Proof Sys2Proof.Machine

/-- The encoding of an instruction has the length its word says (R130), and where it is the only instruction of the set, its bytes,
whatever follows them, decode to it (R140). -/
def Statement (i : Instr) : Prop :=
  (∀ o : WordOrder, (encode o i).length = i.word.len.bytes) ∧
    ∀ (o : WordOrder) (rest : List Byte), decode o [i] (encode o i ++ rest) = .ok i

/-- The statement holds of every instruction alike: nothing but the word is encoded. -/
theorem of_any (i : Instr) : Statement i := by
  refine ⟨fun o => encode_length o i, fun o rest => ?_⟩
  · have h : (encode o i).isPrefixOf (encode o i ++ rest) = true := List.isPrefixOf_iff_prefix.2 (List.prefix_append _ _)
    simp [decode, List.find?, h]

/-- EVENT_RETURN. -/
theorem eventReturn (w : IWord) : Statement (.eventReturn w) := of_any _

/-- STATE_DUMP. -/
theorem stateDump (w : IWord) (addr : Operand) : Statement (.stateDump w addr) := of_any _

/-- STATE_RESTORE. -/
theorem stateRestore (w : IWord) (addr : Operand) : Statement (.stateRestore w addr) := of_any _

/-- SET_VMSK. -/
theorem setVmsk (w : IWord) (val : Operand) : Statement (.setVmsk w val) := of_any _

/-- SR_READ. -/
theorem srRead (w : IWord) (d i : Fin 32) : Statement (.srRead w d i) := of_any _

/-- SR_WRITE. -/
theorem srWrite (w : IWord) (i : Fin 32) (val : Operand) : Statement (.srWrite w i val) := of_any _

/-- VECTOR_OP. -/
theorem vectorOp (w : IWord) (d : Fin 32) (lb : Nat) (srcs : List (Fin 32)) (res : VSrc) (flags : Option LaneFlagSrc) :
    Statement (.vectorOp w d lb srcs res flags) := of_any _

/-- CALL. -/
theorem call (w : IWord) (target : Operand) : Statement (.call w target) := of_any _

/-- RETURN. -/
theorem ret (w : IWord) : Statement (.ret w) := of_any _

/-- COMPRESSED. -/
theorem compressed (w : IWord) (b : Body) : Statement (.compressed w b) := of_any _

/-- Every other instruction. -/
theorem general (w : IWord) (b : Body) : Statement (.general w b) := of_any _

end Sys2Proof.Laws.Encoding
end

