-- ==== Sys2Proof/Laws/Steps.lean ====
section
/-! SUPPORT. What a step can do. -/

namespace Sys2Proof.Machine

open Sys2Proof

variable {sh : Shape}

/-- A step that comes to its instruction fetches it (R240 step 3). -/
theorem before_run {sh} {m : Mach sh} (h : atInstruction m) :
    m.untilInstr = match m.ready.fetch with | .error e => .error e | .ok i => .ok (.run i m.ready) := by
  obtain ⟨h1, h2, h3, h4⟩ := h
  cases hf : m.ready.fetch <;> simp [Mach.untilInstr, Mach.before, h1, h2, Mach.beforeInstr, h3, h4, hf]

/-- A halted core with nothing presented waits (R238). -/
theorem step_halted {sh} (t : Mach sh) (he : t.env = []) (hh : t.core.csr.hlt = true) : step ⟨sh, t⟩ = .next ⟨sh, t⟩ := by
  have hr : t.ready = t := by simp [Mach.ready, Mach.nextMove, he, Mach.select]
  have : t.untilInstr = .ok (.over t) := by
    simp [Mach.untilInstr, hr, Mach.before, hh, Mach.nextMove, he, Mach.haltedStep, wakes]
  simp [step, this]

/-- The core that steps is the same one, or another put in its place (R96). -/
theorem ready_cases (m : Mach sh) : (∃ e, m.ready = { m with env := e } ∧ e = m.env.tail) ∨
    ∃ id c, id ≠ m.coreId ∧ (id, c) ∈ m.parked ∧ m.ready = { m with
      env := m.env.tail
      coreId := id
      core := c
      parked := m.parked.map fun p => if p.1 = id then (m.coreId, m.core) else p } := by
  have hsel : ∀ (m : Mach sh) id, m.select id = m ∨ ∃ c, id ≠ m.coreId ∧ (id, c) ∈ m.parked ∧ m.select id = { m with
      coreId := id
      core := c
      parked := m.parked.map fun p => if p.1 = id then (m.coreId, m.core) else p } := by
    intro m id
    unfold Mach.select
    split
    · exact .inl rfl
    · rename_i hne
      split
      · exact .inl rfl
      · rename_i c hc
        refine .inr ⟨c, hne, ?_, rfl⟩
        have := List.lookup_eq_some_iff.1 hc
        obtain ⟨l1, l2, h, _⟩ := this
        rw [h]; simp
  unfold Mach.ready Mach.nextMove
  split
  · rename_i he
    simp only [Mach.select, if_true]
    exact .inl ⟨[], by rw [← he], by rw [he]; rfl⟩
  · rename_i e es he
    rcases hsel { m with env := es } e.core with h | ⟨c, h1, h2, h3⟩
    · exact .inl ⟨es, h, by rw [he]; rfl⟩
    · exact .inr ⟨_, c, h1, h2, by rw [h3, he]; rfl⟩

/-- An instruction leaves the parameters, the instruction set and the other cores. -/
theorem exec_env {m m' : Mach sh} {i : Instr} (h : exec i ⟨sh, m⟩ = .next ⟨sh, m'⟩) :
    m'.cfg = m.cfg ∧ m'.isa = m.isa ∧ m'.coreId = m.coreId ∧ m'.parked = m.parked ∧ m'.env = m.env := by
  rcases perform_ok (exec_next.1 h).2 with h1 | ⟨eff, he, _, _, _, hc⟩
  · obtain ⟨e, cls, saved, a, hu, rfl⟩ := h1
    exact ⟨rfl, rfl, rfl, rfl, rfl⟩
  · rcases hc with rfl | ⟨e, cls, saved, a, hu, rfl⟩ <;> exact ⟨rfl, rfl, rfl, rfl, rfl⟩

/-- A next state of an instruction has the same shape. -/
theorem exec_shape {m : Mach sh} {i : Instr} {t : State} (h : exec i ⟨sh, m⟩ = .next t) : ∃ m', t = ⟨sh, m'⟩ := by
  rw [exec_eq] at h
  split at h
  · obtain ⟨m', rfl, _⟩ := outcome_shape h
    exact ⟨m', rfl⟩
  · cases h

/-- A step that is over before its instruction has entered an event. -/
theorem overWith_ok {x : Res (Mach sh)} {b : Before sh} (h : overWith x = .ok b) : ∃ m', b = .over m' ∧ x = .ok m' := by
  cases x with
  | error e => cases h
  | ok m => cases h; exact ⟨m, rfl, rfl⟩

/-- What an instruction address breakpoint comes to (R221). -/
theorem addressBreak_ok {m : Mach sh} {hits : List (Fin 6 × BrkMode)} {b : Before sh} (h : m.addressBreak hits = .ok b) :
    (∃ m', b = .over m' ∧ m.enter (.breakpoint hits) m.core.pc none false = .ok m') ∨
    ∃ i, b = .run i m ∧ m.fetch = .ok i ∧ answered i m = true := by
  unfold Mach.addressBreak at h
  simp only at h
  split at h
  · split at h
    · rename_i i hf
      split at h
      · rename_i ha
        cases h
        exact .inr ⟨i, rfl, hf, ha⟩
      · exact .inl (overWith_ok h)
    · exact .inl (overWith_ok h)
  · exact .inl (overWith_ok h)

/-- Where no instruction stands at the pc, an instruction address breakpoint is entered at once. -/
theorem addressBreak_alone {m : Mach sh} {hits : List (Fin 6 × BrkMode)} {e : Stop} (h : m.fetch = .error e) :
    m.addressBreak hits = overWith (m.enter (.breakpoint hits) m.core.pc none false) := by
  simp [Mach.addressBreak, h]

/-- A step that is over before an instruction. -/
theorem step_over {m : Mach sh} {x : Res (Mach sh)} (h : m.untilInstr = overWith x) : step ⟨sh, m⟩ = outcome x := by
  cases x with
  | error e => cases e <;> simp [step, h, overWith, outcome]
  | ok m' => simp [step, h, overWith, outcome]

/-- What the steps before the instruction come to: the step is over, with the core halted or an event entered, or the instruction
runs on the machine as it was. -/
theorem before_ok {m : Mach sh} {mv : EnvMove} {b : Before sh} (h : m.before mv = .ok b) :
    (∃ m', b = .over m' ∧ (m' = m.haltedStep mv ∨ Entered m m')) ∨ ∃ i, b = .run i m := by
  unfold Mach.before at h
  split at h
  · cases h
    exact .inl ⟨_, rfl, .inl rfl⟩
  · split at h
    · obtain ⟨m', rfl, he⟩ := overWith_ok h
      exact .inl ⟨m', rfl, .inr (enter_ok he)⟩
    · unfold Mach.beforeInstr at h
      split at h
      · cases h
      · simp only at h
        split at h
        · split at h
          · cases h
          · cases h
            exact .inr ⟨_, rfl⟩
        · rcases addressBreak_ok h with ⟨m', rfl, he⟩ | ⟨i, rfl, _⟩
          · exact .inl ⟨m', rfl, .inr (enter_ok he)⟩
          · exact .inr ⟨i, rfl⟩

/-- What a step can do to the machine. -/
theorem step_cases {m : Mach sh} {t : State} (h : step ⟨sh, m⟩ = .next t) :
    ∃ m' : Mach sh, t = ⟨sh, m'⟩ ∧ m'.cfg = m.ready.cfg ∧ m'.isa = m.ready.isa ∧ m'.coreId = m.ready.coreId ∧
      m'.parked = m.ready.parked ∧ m'.env = m.ready.env ∧
      (m'.mem = m.ready.mem ∨ ∃ i eff, m.ready.evaluate (Instr.word i) (recordOf i m.ready) = .ok eff ∧
        m'.mem = Memory.setAll m.ready.mem eff.cells) := by
  unfold step at h
  split at h
  · cases h
  · cases h
  · rename_i m1 hm
    cases h
    refine ⟨m1, rfl, ?_⟩
    rcases before_ok hm with ⟨m', hb, h | h⟩ | ⟨i, hb⟩
    · cases hb
      subst h
      unfold Mach.haltedStep
      split <;> exact ⟨rfl, rfl, rfl, rfl, rfl, .inl rfl⟩
    · cases hb
      obtain ⟨e, cls, saved, a, hu, rfl⟩ := h
      exact ⟨rfl, rfl, rfl, rfl, rfl, .inl rfl⟩
    · cases hb
  · rename_i i m1 hm
    rcases before_ok hm with ⟨m', hb, _⟩ | ⟨j, hb⟩
    · cases hb
    · cases hb
      obtain ⟨m', rfl⟩ := exec_shape h
      obtain ⟨a1, a2, a3, a4, a5⟩ := exec_env h
      refine ⟨m', rfl, a1, a2, a3, a4, a5, ?_⟩
      rcases cells_mem h with h | ⟨eff, he, h⟩
      · exact .inl h
      · exact .inr ⟨i, eff, he, h⟩

end Sys2Proof.Machine
end

