-- ==== Sys2Proof/Tests/Slice0.lean ====
section
/-! SUPPORT. Small tests. Their expected values are those of 95_test_vectors.md, named beside each, or hand work from the rule
named; the witnesses that meet each statement's hypotheses follow. -/

namespace Sys2Proof.Tests

open Sys2Proof Sys2Proof.Machine

/-- What a function of the next state gives; `none` where there is no next state. -/
def see {α : Type} (f : State → α) : Host.Outcome State Fault Refusal → Option α
  | .next t => some (f t)
  | _ => none

/-- The fault, if that is the outcome. -/
def faultOf : Host.Outcome State Fault Refusal → Option Fault
  | .fault f => some f
  | _ => none

/-- The refusal, if that is the outcome. -/
def refusedAs : Host.Outcome State Fault Refusal → Option Refusal
  | .refused r => some r
  | _ => none

/-- A machine of REF-A, REF-B or REF-C sizes, as it is after reset, with a core and a memory of one's own. -/
def mach (sh : Shape) (f : Core sh → Core sh) (mem : Memory) : Mach sh :=
  let m := Mach.resetWith sh (Params.reference sh) (.ofWords sampleIsa)
  { m with core := f m.core, mem := mem }

/-- The same as a state. -/
def st (sh : Shape) (f : Core sh → Core sh) (mem : Memory) : State := ⟨sh, mach sh f mem⟩

/-- A word of 8 bytes in memory, least significant first. -/
def cells8 (a v : Nat) : Memory := ((List.range 8).map (a + ·)).zip (bytesLittle 8 v)

/-- The user mode CSR of program P2: ZERO = 1, RMD = 1. -/
def userCsr : Csr := { flags := { zero := true }, rmd := 1#2 }

def w32 : IWord := sampleWord 0x7777
def w48 : IWord := ⟨.l48, 0x7777#64⟩

/-! ### Well-formedness refuses an ill-formed term of each kind -/

theorem test_wf_word_too_wide : (Instr.ret ⟨.l16, 0x10000#64⟩).wf = false := by decide
theorem test_wf_loaded_without_read : (Instr.setVmsk w32 (.loaded 0)).wf = false := by decide
theorem test_wf_lane_below_eight_bits : (Instr.vectorOp w32 0 0 [] (.const 0) none).wf = false := by decide
theorem test_wf_write_of_missing_load : ({ writes := [(.x 1, .loaded 0)] } : Record).wf = false := by decide
theorem test_wf_store_of_missing_load : ({ dwrites := [⟨.x 1, .b8, .loaded 1⟩] } : Record).wf = false := by decide
theorem test_wf_address_from_later_load : ({ dreads := [⟨.loaded 0, .b8⟩] } : Record).wf = false := by decide
theorem test_wf_vector_write_lane : ({ vwrites := [⟨0, 0, .const 0⟩] } : Record).wf = false := by decide
theorem test_wf_vector_flags_lane : ({ vflags := some ⟨0, .fixed []⟩ } : Record).wf = false := by decide
theorem test_wf_next_from_missing_load : ({ next := some (.loaded 0) } : Record).wf = false := by decide
theorem test_wf_special_from_load :
    ({ dreads := [⟨.x 1, .b8⟩], special := .stateDump (.loaded 0) } : Record).wf = false := by decide
theorem test_wf_sample_set : isaWf .little sampleIsa = true := by decide

/-! ### Decoding (the words are the model's sample set: the spec has none, R131) -/

theorem test_decode_event_return :
    decode .little sampleIsa [0x01, 0, 0, 0] = .ok (.eventReturn (sampleWord 1)) := by decide
theorem test_decode_compressed :
    decode .little sampleIsa [0x0D, 0, 0xFF, 0xFF] = .ok (.compressed ⟨.l16, 0x0D#64⟩ (.fixed sampleMove)) := by decide
theorem test_decode_vector_op : decode .little sampleIsa [0x09, 0, 0, 0] =
    .ok (.vectorOp (sampleWord 9) 2 1 [] (.const 0x0F0E0D0C0B0A09080706050403020100) none) := by decide
theorem test_decode_call : decode .little sampleIsa [0x0B, 0, 0, 0] = .ok (.call (sampleWord 11) (.const 0x2000)) := by decide
theorem test_decode_truncated : decode .little sampleIsa [0x01, 0] = .error .truncated := by decide
theorem test_decode_illegal : decode .little sampleIsa [0xFF, 0xFF, 0, 0] = .error .illegal := by decide
theorem test_decode_table_word : decodeTableWord 32 0x06 = some (.srRead (sampleWord 0x06) 24 12) := by decide
theorem test_fetch_word_runs :
    see (fun t => t.m.core.pc.toNat) (step (State.reset.withFetchWord 32 0x04)) = some 4 := by decide

/-! ### FILE 2 and the CSR image -/

/-- V3.6. -/
theorem test_csr_image : csrImage CsrLayout.reference
    { flags := { covr := true, zero := true }, len := 2#2, vlen := 63#6, rmd := 1#2, trd := 3#8, exc := true, uint := true,
      sint := true } = 0x0E0068FE21 := by decide
/-- V3.12, back from the image; its unused bit 7 is ignored. -/
theorem test_csr_of_image : csrImage CsrLayout.reference (csrOfImage CsrLayout.reference 0x3FFFFFFFFF) = 0x3FFFFFFF7F := by
  decide
/-- V2.4. -/
theorem test_brk_codes : (List.finRange 6).map (brkCode 0x01262061#30) = [1, 3, 8, 12, 18, 0] := by decide

/-- V4.1 (8-bit lanes 0 and 2 masked). -/
theorem test_masked_write_bytes :
    maskedWrite .lowest (n := 8) 0x05#8 1 0x1111111111111111#64 0xAABBCCDDEEFF0022#64 = 0xAABBCCDDEE110011#64 := by decide
/-- V4.8 (32-bit lanes 0 and 3 masked). -/
theorem test_masked_write_words :
    maskedWrite .lowest (n := 16) 0x1001#16 4 0x11111111222222223333333344444444#128
      0xAAAAAAAABBBBBBBBCCCCCCCCDDDDDDDD#128 = 0x11111111BBBBBBBBCCCCCCCC44444444#128 := by decide

/-! ### The instructions -/

/-- V7.4: a user return. -/
theorem test_event_return_user :
    see (fun t => (t.m.core.pc.toNat, t.m.core.csr == userCsr))
      (exec (.eventReturn w32) (st .refB (fun c => { c with csr := {}, ueb0 := 0x3008#_, ueb1 := 0x80020#_ }) [])) =
      some (0x3008, true) := by decide
/-- V7.6: a supervisor return takes the low 38 bits. -/
theorem test_event_return_supervisor :
    see (fun t => (t.m.core.pc.toNat, t.m.core.csr == userCsr))
      (exec (.eventReturn w32) (st .refB (fun c => { c with seb0 := 0x3010#_, seb1 := 0xFFFFFFC000080020#_ }) [])) =
      some (0x3010, true) := by decide

/-- V17.1: the dump of `x[0]` and `x[6]`. -/
theorem test_state_dump :
    see (fun t => (Memory.get? t.m.mem 0x9000, Memory.get? t.m.mem 0x9010, Memory.get? t.m.mem 0x9041,
        Memory.get? t.m.mem 0x9018))
      (exec (.stateDump w32 (.const 0x9000))
        (st .refB (fun c => { c with fu0 := 0x41#32, x := (c.x.set 0 0xAAAA#_).set 6 0xBBBB#_ }) [])) =
      some (some 0x41#8, some 0xAA#8, some 0xBB#8, none) := by decide
/-- V8.9: user mode. -/
theorem test_state_dump_user :
    see (fun t => (t.m.core.seb0.toNat, t.m.core.pc.toNat, t.m.core.csr.sup))
      (exec (.stateDump w32 (.const 0x9000)) (st .refB (fun c => { c with csr := {}, setp := 0x5000#_ }) (cells8 0x5010 0x5200))) =
      some (0, 0x5200, true) := by decide
/-- V17.2: what was dumped comes back, `x[7]` is not in the image. -/
theorem test_state_restore :
    see (fun t => (t.m.core.x[0].toNat, t.m.core.x[7].toNat, t.m.core.fu0.toNat))
      (exec (.stateRestore w32 (.const 0x9000))
        (st .refB (fun c => { c with x := c.x.set 7 3#_, fu0 := 0xC3#32 })
          (cells8 0x9000 1 ++ cells8 0x9008 0 ++ cells8 0x9010 0xAAAA))) = some (0xAAAA, 3, 1) := by decide

/-- V12.1. -/
theorem test_set_vmsk :
    see (fun t => match t with | ⟨_, m⟩ => (m.core.vmsk.toNat, m.core.fu2.toNat))
      (exec (.setVmsk w32 (.const 0xFFFF00FF)) (st .refB (fun c => { c with csr := {} }) [])) = some (0x00FF, 0x8000) := by
  decide

/-- Program P2 step 5. -/
theorem test_sr_read :
    see (fun t => (t.m.core.x[24].toNat, t.m.core.fu0.toNat, t.m.core.fu2.toNat))
      (exec (.srRead w32 24 12) (st .refB (fun c => { c with csr := {}, ueb0 := 0x3008#_ }) [])) =
      some (0x3008, 0x01000000, 0) := by decide
/-- V8.5, V7.2: user mode reads PTP. -/
theorem test_sr_read_violation :
    see (fun t => (t.m.core.seb0.toNat, t.m.core.seb1.toNat, t.m.core.pid.toNat, csrImage t.m.cfg.csrLayout t.m.core.csr,
        t.m.core.pc.toNat))
      (exec (.srRead w32 5 27)
        (st .refB (fun c => { c with csr := userCsr, pc := 0x300C#_, pid := 0x2A#32, setp := 0x5000#_ })
          (cells8 0x5010 0x5200))) = some (0x300C, 0x80020, 0, 0x1020080020, 0x5200) := by decide
/-- V11.5: every field of the CSR from a 32-bit value. -/
theorem test_sr_write_csr :
    see (fun t => (csrImage t.m.cfg.csrLayout t.m.core.csr, t.m.core.fu2.toNat))
      (exec (.srWrite w32 23 (.const 0x60000000)) (st .refA (fun c => { c with csr := { sup := true, exc := true } }) [])) =
      some (0x60000000, 0x800000) := by decide
/-- V8.8: a user mode write that changes SUP. -/
theorem test_sr_write_csr_user :
    see (fun t => (t.m.core.seb1.toNat, t.m.core.fu2.toNat))
      (exec (.srWrite w32 23 (.const 0x60000000)) (st .refB (fun c => { c with csr := {}, setp := 0x5000#_ })
        (cells8 0x5010 0x5200))) = some (0, 0) := by decide

/-- S4, V5.2: six lanes divide by zero, one event, every flag written. -/
theorem test_vector_op_one_event :
    see (fun t => (t.m.core.pc.toNat, t.m.core.seb0.toNat, t.m.draws, slotContent t.m.cfg.csrLayout t.m.core 0 .vflg))
      (exec (.vectorOp w48 3 1 [] (.const 0xFFEEDDCCBBAA9988)
          (some (.fixed ((List.range 8).map fun k => ⟨{ div0 := true }, { div0 := k != 1 && k != 5 }⟩))))
        (st .refA (fun c => { c with csr := { sup := true, exc := true }, pc := 0x6008#_, setp := 0x5000#_ })
          (cells8 0x5004 0x5300))) = some (0x5300, 0x600E, 1, 0x1010001010100010) := by decide
/-- V4.3: every lane masked, the usage bit set all the same. -/
theorem test_vector_op_all_masked :
    see (fun t => (t.m.core.v[2].toNat, t.m.core.fu1.toNat))
      (exec (.vectorOp w32 2 1 [] (.const 0xAABBCCDDEEFF0022) none)
        (st .refA (fun c => { c with vmsk := 0xFF#_, v := c.v.set 2 0x1111111111111111#_ }) [])) =
      some (0x1111111111111111, 4) := by decide

/-- V13.9: a return address past the top of memory. -/
theorem test_call_wraps :
    see (fun t => (t.m.core.x[31].toNat, t.m.core.pc.toNat, t.m.core.fu0.toNat))
      (exec (.call w32 (.const 0x2000)) (st .refA (fun c => { c with pc := 0xFFFFFFFC#_ }) [])) =
      some (0, 0x2000, 0x80000000) := by decide
/-- V13.8: the length of the call counts. -/
theorem test_call_length :
    see (fun t => t.m.core.x[31].toNat) (exec (.call w48 (.const 0x2000)) (st .refB (fun c => { c with pc := 0x1000#_ }) [])) =
      some 0x1006 := by decide
/-- V13.7. -/
theorem test_ret :
    see (fun t => t.m.core.pc.toNat) (exec (.ret w32) (st .refB (fun c => { c with x := c.x.set 31 0x1004#_ }) [])) =
      some 0x1004 := by decide

/-- Program P1, its last instruction. -/
theorem test_compressed_move :
    see (fun t => (t.m.core.x[24].toNat, t.m.core.pc.toNat))
      (exec (.compressed ⟨.l16, 0x0D#64⟩ (.fixed sampleMove))
        (st .refA (fun c => { c with pc := 0x1014#_, x := c.x.set 6 0x55#_ }) [])) = some (0x55, 0x1016) := by decide

/-- Program P1 at 0x2000, with `ENDIAN = little` (V15.1). -/
theorem test_general_store :
    see (fun t => ((List.range 4).map fun k => Memory.get? t.m.mem (0x8000 + k)))
      (exec (.general w32 (.fixed sampleStore))
        (st .refA (fun c => { c with x := (c.x.set 29 0x8000#_).set 6 0x11223344#_ }) [])) =
      some [some 0x44#8, some 0x33#8, some 0x22#8, some 0x11#8] := by decide
/-- V10.1, V7.3: the flag is written first, the next address is saved. -/
theorem test_general_div0_exception :
    see (fun t => (t.m.core.seb0.toNat, t.m.core.seb1.toNat, csrImage t.m.cfg.csrLayout t.m.core.csr, t.m.core.pc.toNat))
      (exec (.general w48 (.fixed { sflags := some (.fixed ⟨{ div0 := true }, { div0 := true }⟩) }))
        (st .refB (fun c => { c with csr := { sup := true, exc := true }, pc := 0x6008#_, setp := 0x5000#_ })
          (cells8 0x5008 0x5300))) = some (0x600E, 0x220000010, 0x1220000010, 0x5300) := by decide

/-- A user mode core with a breakpoint register 5 of one's own and auto exceptions off, and 8 bytes at 0x8000. -/
def dataMach (code : Nat) : Mach .refB :=
  mach .refB (fun c => { c with
    csr := {}
    pc := 0x3000#_
    bm := BitVec.ofNat 30 (code * 2 ^ 25)
    br := c.br.set 5 0x8000#_
    uetp := 0x4000#_ }) (cells8 0x4000 0x4100 ++ cells8 0x8000 0x11223344)

/-- A load of 4 bytes at an address. -/
def loadAt (a : Nat) : Instr := .general w32 (.fixed { dreads := [⟨.const a, .b32⟩], writes := [(.x 6, .loaded 0)] })

/-- A store of 4 bytes at an address. -/
def storeAt (a : Nat) : Instr := .general w32 (.fixed { dwrites := [⟨.const a, .b32, .const 0xDEADBEEF⟩] })

/-- V9.8, V9.14: a load that matches is made, and the next pc is saved; the same register in a write mode does not match. -/
theorem test_data_read_breakpoint :
    (see (fun t => (t.m.core.x[6].toNat, t.m.core.ueb0.toNat, t.m.core.pc.toNat)) (exec (loadAt 0x8000) ⟨.refB, dataMach 4⟩),
     see (fun t => t.m.core.pc.toNat) (exec (loadAt 0x8000) ⟨.refB, dataMach 8⟩)) =
      (some (0x11223344, 0x3004, 0x4100), some 0x3004) := by decide
/-- V9.12, and the address beside it. -/
theorem test_data_write_breakpoint :
    (see (fun t => (Memory.get? t.m.mem 0x8000, t.m.core.pc.toNat)) (exec (storeAt 0x8000) ⟨.refB, dataMach 8⟩),
     see (fun t => (Memory.get? t.m.mem 0x8004, t.m.core.pc.toNat)) (exec (storeAt 0x8004) ⟨.refB, dataMach 8⟩)) =
      (some (some 0xEF#8, 0x4100), some (some 0xEF#8, 0x3004)) := by decide

/-- R240 steps 5 and 6: the privilege violation of a CSR write comes before the fault of a store of the same record. -/
theorem test_csr_violation_before_fault :
    see (fun t => (t.m.core.csr.sup, t.m.core.pc.toNat))
      (exec (.general w32 (.fixed { writes := [(.sr 23, .const 0x20000000)], dwrites := [⟨.const 0x8001, .b32, .const 0⟩] }))
        (st .refB (fun c => { c with csr := {}, setp := 0x5000#_ }) (cells8 0x5010 0x5200))) = some (true, 0x5200) := by decide

/-- R240 step 5 with R180: the same write listed beside a special operation, which keeps it from being made (log entry 35). -/
theorem test_csr_violation_beside_special :
    see (fun t => (t.m.core.csr.sup, t.m.core.pc.toNat, t.m.core.vmsk.toNat))
      (exec (.general w32 (.fixed { writes := [(.sr 23, .const 0x20000000)], special := .setVmsk (.const 5) }))
        (st .refB (fun c => { c with csr := {}, setp := 0x5000#_ }) (cells8 0x5010 0x5200))) = some (true, 0x5200, 0) := by decide

/-- 95_test_vectors.md section 0.2 with R108: the event table is read with `MemRead`, so with paging on at its physical address. -/
theorem test_table_read_translated :
    see (fun t => t.m.core.pc.toNat) (exec (.srRead w32 1 27) ⟨.refB,
      { mach .refB (fun c => { c with csr := { pag := true }, setp := 0x5000#_ }) (cells8 0x7010 0x5200) with
        cfg := { Params.reference .refB with
          translate := .table ((List.range 8).map fun k => (0x5010 + k, 0x7010 + k)) } }⟩) = some 0x5200 := by decide
/-- The same with a table no page holds: the lookup faults (R108). -/
theorem test_table_page_event :
    faultOf (exec (.srRead w32 1 27) ⟨.refB,
      { mach .refB (fun c => { c with csr := { pag := true }, setp := 0x5000#_ }) (cells8 0x5010 0x5200) with
        cfg := { Params.reference .refB with translate := .table [] } }⟩) = some (.pageEvent 0x5010) := by decide

/-- R106, U12: on a 32 bit machine an aligned access of 32 bits is one memory event, one of 64 bits and a dump's may be several; and
several that meet happen in any order. -/
theorem test_store_events (m : Mach .refA) :
    (m.chunkEvents false 0 ⟨0x8000, 4, 4, 1⟩).length = 1 ∧
    (∀ wide, m.chunkEvents wide 0 ⟨0x8000, 8, 8, 1⟩ =
      pieces (fun j => m.drawBool (.storeSplit 0 j)) (plainCells .refA m.cfg.endian ⟨0x8000, 8, 8, 1⟩)) ∧
    m.chunkEvents true 0 ⟨0x8000, 4, 4, 1⟩ =
      pieces (fun j => m.drawBool (.storeSplit 0 j)) (plainCells .refA m.cfg.endian ⟨0x8000, 4, 4, 1⟩) :=
  ⟨rfl, fun wide => by cases wide <;> rfl, rfl⟩
/-- R106, U12: each access of an instruction that names a vector register may be several events, of one that names none only as R106
says of its width and alignment. -/
theorem test_vector_store_splits :
    maySplit { reads := [⟨.f1, 3⟩], dwrites := [⟨.const 0x8000, .b32, .const 1⟩] } = true ∧
    maySplit { reads := [⟨.f0, 3⟩], dwrites := [⟨.const 0x8000, .b32, .const 1⟩] } = false := by decide
theorem test_store_order :
    (pieces (fun _ => true) [1, 2, 3], pieces (fun _ => false) [1, 2, 3], pieces (· == 1) [1, 2, 3],
      shuffle (fun _ => 0) [1, 2], shuffle (fun _ => 1) [1, 2]) =
    ([[1], [2], [3]], [[1, 2, 3]], [[1, 2], [3]], [1, 2], [2, 1]) := by decide

/-- An image in memory that holds PC alone of the registers. -/
def pcImageMach : Mach .refB := mach .refB id
  (cells8 0x9000 0 ++ cells8 0x9008 0x800 ++ cells8 0x93C0 0x4444 ++ cells8 0x93C8 0)

/-- R184: a restore whose image holds PC goes on there (slot 11 of FILE 2 in the format of section 0.4). -/
theorem test_state_restore_pc :
    see (fun t => (t.m.core.pc.toNat, t.m.core.fu2.toNat)) (exec (.stateRestore w32 (.const 0x9000)) ⟨.refB, pcImageMach⟩) =
      some (0x4444, 0x800) := by decide

/-- R9, R72: a word that is in force while `IMOD = 1` is illegal in another mode. -/
theorem test_imod_word :
    (List.map (fun k => { mach .refB (fun c => { c with csr := { imod := k } }) [] with
        isa := .table .little [⟨.ret (sampleWord 12), [(.imod, 1)]⟩] }.decoded [12, 0, 0, 0]) [0#3, 1#3]) =
      [.error .illegal, .ok (.ret (sampleWord 12))] := by decide

/-- R104: a word lies in memory in the order of its instruction set, which `ENDIAN` does not change. -/
theorem test_word_orders :
    ([WordOrder.little, WordOrder.big, ⟨.little, .big⟩, ⟨.big, .little⟩].map fun o => encode o (.ret ⟨.l32, 0x44332211#64⟩)) =
      [[0x11, 0x22, 0x33, 0x44], [0x44, 0x33, 0x22, 0x11], [0x22, 0x11, 0x44, 0x33], [0x33, 0x44, 0x11, 0x22]] := by decide
theorem test_fetch_ignores_endian :
    { mach .refB id [] with cfg := { Params.reference .refB with endian := .big } }.decoded [12, 0, 0, 0] = .ok (.ret (sampleWord 12)) := by
  decide

/-- R9, R140: an instruction whose data reads go on until one delivers a zero, and the reads it so lists. -/
theorem test_ask_scans :
    ((mach .refB id (cells8 0x8000 0x1122)).ask (fun v =>
        if v.loaded.getLast? == some 0 then .answer v.loaded else .read ⟨.const (0x8000 + v.loaded.length), .b8⟩) [] 4 []) =
      some ([0x22, 0x11, 0], [⟨.const 0x8000, .b8⟩, ⟨.const 0x8001, .b8⟩, ⟨.const 0x8002, .b8⟩]) := by decide

/-- R153: what the convention covers. -/
theorem test_abi_covered :
    (List.map Signature.covered [⟨[.word, .word, .word, .word], [.word, .word], false⟩, ⟨List.replicate 5 .word, [], false⟩,
      ⟨[], List.replicate 3 .word, false⟩, ⟨[.wide], [], false⟩, ⟨[], [.floating], false⟩, ⟨[.word], [], true⟩]) =
      [true, false, false, false, false, false] := by decide
/-- V13.10, its first and second parameter and its result. -/
theorem test_abi_registers :
    PassesParams (sh := .refA) { Core.zero .refA with x := ((Core.zero .refA).x.set 0 7#32).set 1 9#32 } [7#32, 9#32] ∧
    LeavesResults (sh := .refA) { Core.zero .refA with x := (Core.zero .refA).x.set 4 16#32 } [16#32] := by
  refine ⟨fun k p h => ?_, fun k r h => ?_⟩ <;> fin_cases k <;> first | (cases h; rfl) | cases h

/-! ### Steps -/

/-- A user mode core at a breakpoint, where nothing stands. -/
def userBreak : Mach .refB := mach .refB
  (fun c => { c with csr := userCsr, pc := 0x3008#_, bm := 1#30, br := c.br.set 0 0x3008#_, uetp := 0x4000#_ })
  (cells8 0x4000 0x4100)

/-- V7.1, V9.1: a breakpoint before the instruction. -/
theorem test_step_address_breakpoint :
    see (fun t => (t.m.core.ueb0.toNat, t.m.core.ueb1.toNat, csrImage t.m.cfg.csrLayout t.m.core.csr, t.m.core.pc.toNat))
      (step ⟨.refB, userBreak⟩) = some (0x3008, 0x80020, 0x1000080020, 0x4100) := by
  have hb : userBreak.untilInstr = userBreak.addressBreak [(0, .instrAddr)] := by rfl
  have hf : userBreak.fetch = .error (.fault (.unwrittenByte 0x3008)) := by decide
  rw [step_over (hb.trans (addressBreak_alone hf))]
  decide
/-- V2.7: a reserved mode code. -/
theorem test_step_reserved_mode :
    refusedAs (step (st .refB (fun c => { c with bm := 0x13#30 }) [])) = some .reservedBreakpointMode := by decide
/-- V9.29. -/
theorem test_step_mode_too_wide :
    refusedAs (step (st .refA (fun c => { c with bm := 18#30 }) [])) = some .breakpointModeTooWide := by decide
/-- V15.5: an odd pc. -/
theorem test_step_odd_pc : faultOf (step (st .refB (fun c => { c with pc := 0x3001#_ }) [])) = some (.misaligned 0x3001) := by
  decide
/-- V7.8: a user interrupt in supervisor mode. -/
theorem test_step_user_irq_in_supervisor :
    refusedAs (step ⟨.refB, { mach .refB (fun c => { c with csr := { sup := true, uint := true } }) [] with
      env := [⟨0, [⟨0, .user⟩], some 0⟩] }⟩) = some .userEventInSupervisorMode := by decide
/-- V7.7: a supervisor interrupt overwrites the pair. -/
theorem test_step_supervisor_irq :
    see (fun t => (t.m.core.seb0.toNat, t.m.core.seb1.toNat, t.m.core.pc.toNat))
      (step ⟨.refB, { mach .refB
          (fun c => { c with
            csr := csrOfImage CsrLayout.reference 0x1820080020
            pc := 0x5204#_
            seb0 := 0x300C#_
            setp := 0x5000#_ }) (cells8 0x5080 0x5400) with
        env := [⟨0, [⟨0, .supervisor⟩], some 0⟩] }⟩) = some (0x5204, 0x1820080020, 0x5400) := by decide
/-- V14.4, V14.5: only a waking interrupt ends the halted state. -/
theorem test_step_halted :
    (see (fun t => t.m.core.csr.hlt) (step ⟨.refB, { mach .refB (fun c => { c with csr := { hlt := true } }) [] with
        env := [⟨0, [⟨0, .waking⟩], none⟩] }⟩),
     see (fun t => t.m.core.csr.hlt) (step ⟨.refB, { mach .refB (fun c => { c with csr := { hlt := true, sint := true } }) []
        with env := [⟨0, [⟨0, .supervisor⟩], some 0⟩] }⟩)) = (some false, some true) := by decide
/-- R57 with R236: a waking interrupt's write of CSR, where `FU_IMPLICIT` counts it, sets `FU2[23]`. -/
theorem test_step_waking_marks :
    see (fun t => (t.m.core.csr.hlt, t.m.core.fu2.toNat)) (step ⟨.refB, { mach .refB (fun c => { c with csr := { hlt := true } }) [] with
      cfg := { Params.reference .refB with fuSet := [.csrWake] }, env := [⟨0, [⟨0, .waking⟩], none⟩] }⟩) = some (false, 0x800000) := by
  decide
/-- V14.1 with two cores: the other starts halted, at its `WAKE_PC`, and the environment may let it step. -/
theorem test_reset_two_cores :
    (Mach.resetWith .refA { Params.reference .refA with ncores := 2, wakePc := [0, 0x100] } (.ofWords [])).parked.map
      (fun p => (p.1, p.2.csr.hlt, p.2.csr.boot, p.2.pc.toNat)) = [(1, true, false, 0x100)] := by decide
/-- V14.2, V14.1: the boot core. -/
theorem test_reset_boot_core :
    (csrImage CsrLayout.reference State.reset.m.core.csr, State.reset.m.core.pc.toNat) = (0x60000000, 0) := by decide

/-! ### Witnesses: for each statement with hypotheses, a state and operands that meet them -/

/-- An instruction with a next state has one of the same shape. -/
theorem next_of {sh : Shape} {i : Instr} {m : Mach sh} (h : see (fun _ => true) (exec i ⟨sh, m⟩) = some true) :
    ∃ m', exec i ⟨sh, m⟩ = .next ⟨sh, m'⟩ := by
  cases hx : exec i ⟨sh, m⟩ with
  | next t =>
    obtain ⟨m', rfl⟩ := exec_shape hx
    exact ⟨m', rfl⟩
  | fault f => rw [hx] at h; cases h
  | refused r => rw [hx] at h; cases h

/-- A core after reset, in user mode, with a supervisor handler at 0x5200 for privilege violations. -/
def userMach : Mach .refB := mach .refB (fun c => { c with csr := {}, setp := 0x5000#_ }) (cells8 0x5010 0x5200)

/-- The machine right after reset, in supervisor mode. -/
def supMach : Mach .refB := mach .refB id []

theorem witness_DecodeEncodeAgree : isaWf .little sampleIsa = true ∧ .ret (sampleWord 12) ∈ sampleIsa := by decide

/-- The machine about to run SET_VMSK. -/
def fetchMach : Mach .refB := supMach.withFetchWord 32 4

theorem witness_StepRunsDecodedInstruction : atInstruction fetchMach ∧
    fetchMach.ready.checkAlign fetchMach.ready.core.pc.toNat 2 = .ok () ∧
    fetchMach.ready.decoded (fetchMach.ready.fetchable 8 fetchMach.ready.core.pc.toNat) =
      .ok (.setVmsk (sampleWord 4) (.const 0x000F)) ∧ fetchMach.env = [] :=
  ⟨⟨by decide, by decide, by decide, by decide⟩, by decide, by decide, rfl⟩

/-- The last two bytes of memory and the first two: an instruction that wraps. -/
def wrapMach : Mach .refB :=
  mach .refB (fun c => { c with pc := 0xFFFFFFFFFFFFFFFE#_ })
    [(0, 0#8), (1, 0#8), (0xFFFFFFFFFFFFFFFE, 0x0C#8), (0xFFFFFFFFFFFFFFFF, 0#8)]

theorem witness_FetchReadsBytesAtPc : wrapMach.core.csr.pag = false ∧ wrapMach.core.pc.toNat % 2 = 0 ∧
    isaWf wrapMach.isa.order wrapMach.words = true ∧ .ret (sampleWord 12) ∈ wrapMach.words ∧
    ∀ k (hk : k < (encode wrapMach.isa.order (.ret (sampleWord 12))).length),
      Memory.get? wrapMach.mem ((wrapMach.core.pc.toNat + k) % 2 ^ Shape.refB.W) =
        some (encode wrapMach.isa.order (.ret (sampleWord 12)))[k] := by decide

theorem witness_IllegalInstructionFaults :
    atInstruction (supMach.withFetchWord 32 0x100) ∧
    (supMach.withFetchWord 32 0x100).ready.checkAlign (supMach.withFetchWord 32 0x100).ready.core.pc.toNat 2 = .ok () ∧
    (supMach.withFetchWord 32 0x100).ready.decoded ((supMach.withFetchWord 32 0x100).ready.fetchable 8 0) = .error .illegal :=
  ⟨⟨by decide, by decide, by decide, by decide⟩, by decide, by decide⟩

/-- Of an instruction that asks the `ISA` parameter for its record: it is illegal, or it is not. -/
theorem witness_IllegalInstructionFaults_record : legal (.general w32 (.isa 0 [] [])) supMach = false ∨
    answered (.general w32 (.isa 0 [] [])) supMach = true ∨
    (recordOf (.general w32 (.isa 0 [] [])) supMach).wf = false := by
  cases h : legal (.general w32 (.isa 0 [] [])) supMach with
  | false => exact .inl rfl
  | true =>
    cases hw : (recordOf (.general w32 (.isa 0 [] [])) supMach).wf with
    | false => exact .inr (.inr rfl)
    | true => exact .inr (.inl (by simp [answered, h, hw]))

/-- A running machine with a breakpoint mode register of one's own. -/
def bmMach (sh : Shape) (bm : BitVec 30) : Mach sh := mach sh (fun c => { c with bm := bm }) []

theorem witness_RefusedBreakpointModes_reserved :
    (bmMach .refA 19#30).ready.core.csr.hlt = false ∧
    takenIrq (bmMach .refA 19#30).ready.core.csr (bmMach .refA 19#30).nextMove.1 = none ∧
    19 ≤ brkCode (bmMach .refA 19#30).ready.core.bm 0 ∧
    19 ≤ brkCode (bmMach .refA 0x3E000000#30).ready.core.bm 5 ∧ 19 ≤ 31 ∧ 31 ≤ 31 := by decide
theorem witness_RefusedBreakpointModes_wide :
    (bmMach .refA 17#30).ready.core.csr.hlt = false ∧
    takenIrq (bmMach .refA 17#30).ready.core.csr (bmMach .refA 17#30).nextMove.1 = none ∧
    (∀ n, brkCode (bmMach .refA 17#30).ready.core.bm n ≤ 18) ∧ Shape.refA.wlen = .w32 ∧
    17 ≤ brkCode (bmMach .refA 17#30).ready.core.bm 0 := by decide
theorem witness_RefusedBreakpointModes_legal :
    (∀ n, brkCode (bmMach .refB 18#30).ready.core.bm n ≤ 18) ∧ Shape.refB.wlen = .w64 ∧
    (∀ n, brkCode (bmMach .refA 16#30).ready.core.bm n ≤ 16) := by decide

/-- Breakpoint register 5 at the pc, with mode 1. -/
def brkMach : Mach .refB := mach .refB (fun c => { c with pc := 0x3008#_, bm := 0x2000000#30, br := c.br.set 5 0x3008#_ }) []

theorem witness_AddressBreakpointTaken : brkMach.ready.core.csr.hlt = false ∧
    takenIrq brkMach.ready.core.csr brkMach.nextMove.1 = none ∧ brkMach.ready.core.checkModes = .ok () ∧
    brkMach.ready.cfg.brkTiming.instrAddr = .before ∧ brkCode brkMach.ready.core.bm 5 = 1 ∧
    brkMach.ready.core.br[(5 : Fin 6)] = brkMach.ready.core.pc ∧ ∀ i, brkMach.ready.fetch ≠ .ok i := by
  refine ⟨by decide, by decide, by decide, by decide, by decide, by decide, fun i h => ?_⟩
  rw [show brkMach.ready.fetch = .error (.fault (.unwrittenByte 0x3008)) by decide] at h
  cases h

/-- A machine to which the environment presents one interrupt and lets the core take it. -/
def irqMach (k : IrqKind) (c : Csr) : Mach .refB :=
  { mach .refB (fun core => { core with csr := c }) [] with env := [⟨0, [⟨3, k⟩], some 0⟩] }

theorem witness_InterruptTakenWhenEnabled_user :
    (irqMach .user { uint := true }).ready.core.csr.hlt = false ∧
    (irqMach .user { uint := true }).nextMove.1.take = some 0 ∧
    (irqMach .user { uint := true }).nextMove.1.pending[0]? = some ⟨3, .user⟩ ∧
    (irqMach .user { uint := true }).ready.core.csr.uint = true := by decide
theorem witness_InterruptTakenWhenEnabled_supervisor :
    (irqMach .supervisor { sint := true }).ready.core.csr.hlt = false ∧
    (irqMach .supervisor { sint := true }).nextMove.1.take = some 0 ∧
    (irqMach .supervisor { sint := true }).nextMove.1.pending[0]? = some ⟨3, .supervisor⟩ ∧
    (irqMach .supervisor { sint := true }).ready.core.csr.sint = true := by decide
theorem witness_InterruptTakenWhenEnabled_disabled :
    (irqMach .user { sint := true }).ready.core.csr.hlt = false ∧
    (irqMach .user { sint := true }).nextMove.1.take = some 0 ∧
    (irqMach .user { sint := true }).nextMove.1.pending[0]? = some ⟨3, .user⟩ ∧
    (irqMach .user { sint := true }).ready.core.csr.uint = false := by decide

theorem witness_HaltedCoreWaits :
    (irqMach .supervisor { hlt := true }).ready.core.csr.hlt = true ∧
    (∀ i ∈ (irqMach .supervisor { hlt := true }).nextMove.1.pending, i.kind ≠ .waking) ∧
    (irqMach .waking { hlt := true }).ready.core.csr.hlt = true ∧
    (∃ i ∈ (irqMach .waking { hlt := true }).nextMove.1.pending, i.kind = .waking) := by decide

theorem witness_EventReturnRestores : NoBreakpoints supMach ∧ NoBreakpoints userMach := ⟨rfl, rfl⟩

theorem witness_SetVmskWrites : NoBreakpoints userMach ∧ (Operand.x 5).wf 0 = true ∧
    allowed userMach (operandReads (.x 5)) [] = true := ⟨rfl, by decide, by decide⟩

theorem witness_SrReadCompletes_user : NoBreakpoints userMach ∧ (18 : Fin 32) ≠ 17 ∧
    (starred 18 = true → userMach.core.csr.sup = true) := ⟨rfl, by decide, by decide⟩
theorem witness_SrReadCompletes_supervisor : NoBreakpoints supMach ∧ (31 : Fin 32) ≠ 17 ∧
    (starred 31 = true → supMach.core.csr.sup = true) := ⟨rfl, by decide, by decide⟩

theorem witness_SrWriteCompletes_user : NoBreakpoints userMach ∧ (Operand.const 7).wf 0 = true ∧
    allowed userMach (operandReads (.const 7)) [] = true ∧ slotAt 18 = some .uetp ∧ Slot.uetp ≠ .pc ∧
    (starred 18 = true → userMach.core.csr.sup = true) := ⟨rfl, by decide, by decide, rfl, by decide, by decide⟩
theorem witness_SrWriteCompletes_supervisor : NoBreakpoints supMach ∧ (Operand.sr 23).wf 0 = true ∧
    allowed supMach (operandReads (.sr 23)) [] = true ∧ slotAt 31 = some (.kr 3) ∧ Slot.kr 3 ≠ .pc ∧
    (starred 31 = true → supMach.core.csr.sup = true) := ⟨rfl, by decide, by decide, rfl, by decide, by decide⟩

theorem witness_SrWriteCompletes_fu2 : NoBreakpoints supMach ∧ slotAt 21 = some .fu2 ∧ Slot.fu2 ≠ .pc ∧
    supMach.core.csr.sup = true ∧ supMach.cfg.fuSet = [] ∧ supMach.cfg.fuFree = [] ∧
    (supMach.operand (useWrite 0) [] (.const 0x80000000)).testBit 31 = true ∧
    ∃ t, exec (.srWrite w32 21 (.const 0x80000000)) ⟨.refB, supMach⟩ = .next ⟨.refB, t⟩ :=
  ⟨rfl, rfl, by decide, rfl, rfl, rfl, by decide, next_of (by decide)⟩

/-- A user mode core with a value in `x[5]` that would set SUP, and one in memory. -/
def csrMach : Mach .refB :=
  mach .refB (fun c => { c with csr := {}, setp := 0x5000#_, x := c.x.set 5 0x20000000#_ })
    (cells8 0x5010 0x5200 ++ cells8 0x8000 0x20000000)

/-- A load into the CSR. -/
def csrLoad (a : Nat) : Instr := .general w32 (.fixed { dreads := [⟨.const a, .b32⟩], writes := [(.sr 23, .loaded 0)] })

theorem witness_UserCsrAccess : NoBreakpoints csrMach ∧ csrMach.core.csr.sup = false ∧ (Operand.x 5).wf 0 = true ∧
    (Operand.x 6).wf 0 = true ∧ allowed csrMach (operandReads (.x 5)) [] = true ∧
    allowed csrMach (operandReads (.x 6)) [] = true ∧
    ¬ KeepsStarred csrMach.core.csr (csrOfImage csrMach.cfg.csrLayout
      (csrMach.operand (useWrite 0) [] (.x 5) % 2 ^ Shape.refB.csrBits)) ∧
    KeepsStarred csrMach.core.csr (csrOfImage csrMach.cfg.csrLayout
      (csrMach.operand (useWrite 0) [] (.x 6) % 2 ^ Shape.refB.csrBits)) := by
  simp only [← sameStarred_iff]
  exact ⟨rfl, by decide⟩

theorem witness_UserCsrAccess_record : csrMach.core.csr.exc = false ∧ (∀ a, answered (csrLoad a) csrMach = true) ∧
    (∀ a, (recordOf (csrLoad a) csrMach).special = .none) ∧
    (∀ a, allowed csrMach (recordReads (recordOf (csrLoad a) csrMach)) (destsOf (recordOf (csrLoad a) csrMach)) = true) ∧
    csrMach.loadAll (recordOf (csrLoad 0x8000) csrMach).dreads [] = .ok ([0x20000000], [⟨0x8000, 32, false⟩]) ∧
    ¬ KeepsStarred csrMach.core.csr (csrOfImage csrMach.cfg.csrLayout (0x20000000 % 2 ^ Shape.refB.csrBits)) ∧
    csrMach.loadAll (recordOf (csrLoad 0x5010) csrMach).dreads [] = .ok ([0x5200], [⟨0x5010, 32, false⟩]) ∧
    KeepsStarred csrMach.core.csr (csrOfImage csrMach.cfg.csrLayout (0x5200 % 2 ^ Shape.refB.csrBits)) ∧
    ∃ eff, csrMach.evaluate (csrLoad 0x5010).word (recordOf (csrLoad 0x5010) csrMach) = .ok eff := by
  simp only [← sameStarred_iff]
  exact ⟨rfl, fun _ => rfl, fun _ => rfl, fun _ => rfl, by decide, by decide, by decide, by decide, _, rfl⟩

theorem witness_HaltByWrite : NoBreakpoints supMach ∧ supMach.core.csr.sup = true ∧ supMach.env = [] ∧
    (Operand.const 0x2020000000).wf 0 = true ∧ allowed supMach (operandReads (.const 0x2020000000)) [] = true ∧
    (supMach.operand (useWrite 0) [] (.const 0x2020000000) % 2 ^ Shape.refB.csrBits).testBit supMach.cfg.csrLayout.hlt = true :=
  ⟨rfl, by decide, by decide, by decide, by decide, by decide⟩

/-- A machine with two usage bits set, one in file 0 and one in file 2. -/
def dumpMach : Mach .refA :=
  mach .refA (fun c => { c with fu0 := 0x80000001#32, fu2 := 0x10000#32, x := c.x.set 31 0x1234#_, smsk := 5#_ }) []

theorem witness_StateDumpCompletes : NoBreakpoints dumpMach ∧ dumpMach.core.csr.sup = true ∧ dumpMach.core.csr.pag = false ∧
    (Operand.const 0x9000).wf 0 = true ∧ allowed dumpMach (operandReads (.const 0x9000)) [] = true ∧
    (∀ c ∈ dumpMach.dumpChunks (dumpMach.operand useSpecial [] (.const 0x9000) % 2 ^ Shape.refA.W), c.addr % c.unit = 0) ∧
    (storedAt ((dumpMach.dumpChunks (dumpMach.operand useSpecial [] (.const 0x9000) % 2 ^ Shape.refA.W)).flatMap
      (plainCells .refA dumpMach.cfg.endian))).Nodup :=
  ⟨rfl, by decide, by decide, by decide, by decide, by decide, (distinct_iff _).1 (by decide)⟩

/-- A machine with an image in memory that holds `x[0]`. -/
def imageMach : Mach .refB := mach .refB id (cells8 0x9000 1 ++ cells8 0x9008 0 ++ cells8 0x9010 0xAAAA)

theorem witness_StateRestoreCompletes : NoBreakpoints imageMach ∧ imageMach.core.csr.sup = true ∧
    (Operand.const 0x9000).wf 0 = true ∧ allowed imageMach (operandReads (.const 0x9000)) [] = true ∧
    (∃ vals accs, imageMach.planRestore (imageMach.operand useSpecial [] (.const 0x9000) % 2 ^ Shape.refB.W) = .ok (vals, accs)) ∧
    imageMach.cfg.dump = .layout (DumpLayout.reference .refB) ∧ imageMach.memRead .read 0x9000 4 = .ok 1 ∧
    imageMach.memRead .read (wrapAddr .refB (0x9000 + 4)) 4 = .ok 0 ∧
    imageMach.memRead .read (wrapAddr .refB (0x9000 + 8)) 4 = .ok 0 ∧
    imageMach.readChunks ((heldRegs (DumpLayout.reference .refB) 1 0 0).map fun r =>
      imageChunk .refB (DumpLayout.reference .refB) 0x9000 r 0) = .ok [0xAAAA] :=
  ⟨rfl, by decide, by decide, by decide, ⟨_, _, rfl⟩, rfl, by decide, by decide, by decide, by decide⟩

/-- A format with no usage words and room for no FILE 2 slot. -/
def plainLayout : DumpLayout := ⟨false, 0, 0, 0, 0, 0, 0, 1, 0#32⟩

/-- A machine whose dump format that is. -/
def plainImageMach : Mach .refA :=
  { mach .refA id (cells8 0x9000 0x22222222AAAA) with cfg := { Params.reference .refA with dump := .layout plainLayout } }

theorem witness_StateRestoreCompletes_plain : plainImageMach.cfg.dump = .layout plainLayout ∧ plainLayout.holdsFu = false ∧
    NoBreakpoints plainImageMach ∧ plainImageMach.core.csr.sup = true ∧
    plainImageMach.readChunks ((heldRegs plainLayout 0 0 0).map fun r => imageChunk .refA plainLayout 0x9000 r 0) =
      .ok (List.replicate 32 0x2222AAAA ++ List.replicate 32 0x22222222AAAA) :=
  ⟨rfl, rfl, rfl, rfl, by decide⟩

theorem witness_DumpThenRestore : ∃ t s : Mach .refA, NoBreakpoints s ∧ s.core.csr.sup = true ∧
    dumpMach.core.csr.pag = false ∧ s.core.csr.pag = false ∧ dumpMach.cfg.dump = .layout (DumpLayout.reference .refA) ∧
    dumpLayoutWf .refA (DumpLayout.reference .refA) = true ∧
    csrLayoutWf dumpMach.cfg.csrLayout Shape.refA.csrBits = true ∧
    (∀ c ∈ dumpMach.dumpChunks (0x9000 % 2 ^ Shape.refA.W), c.addr % c.unit = 0) ∧ NoBreakpoints dumpMach ∧
    dumpMach.core.csr.sup = true ∧ exec (.stateDump w32 (.const 0x9000)) ⟨.refA, dumpMach⟩ = .next ⟨.refA, t⟩ ∧
    s.cfg = dumpMach.cfg ∧ s.mem = t.mem := by
  obtain ⟨t, ht⟩ : ∃ t, exec (.stateDump w32 (.const 0x9000)) ⟨.refA, dumpMach⟩ = .next ⟨.refA, t⟩ := next_of (by decide)
  exact ⟨t, { dumpMach with mem := t.mem }, rfl, rfl, by decide, rfl, rfl, by decide, by decide, by decide,
    rfl, by decide, ht, rfl, rfl⟩

/-- A machine with lanes 0 and 2 masked. -/
def maskMach : Mach .refA := mach .refA (fun c => { c with csr := {}, vmsk := 5#_, v := c.v.set 2 0x1111111111111111#_ }) []

theorem witness_VectorMaskedWrite : NoBreakpoints maskMach ∧
    ((some (LaneFlagSrc.fixed []) : Option LaneFlagSrc) = none ∨ maskMach.core.csr.exc = false) ∧
    allowed maskMach (vsrcReads (.v 31)) [] = true ∧ allowed maskMach (laneFlagSrcReads (.fixed [])) [] = true ∧
    (0 : Nat) < Shape.refA.nl8 ∧ maskMach.core.vmsk.getLsbD 0 = true ∧ maskMach.core.vmsk.getLsbD 1 = false ∧
    maskMach.core.vmsk.getLsbD 7 = false :=
  ⟨rfl, .inr rfl, by decide, by decide, by decide, by decide, by decide, by decide⟩

theorem witness_VectorOpCompletes : NoBreakpoints maskMach ∧ maskMach.core.csr.exc = false ∧ 1 ≤ 4 ∧
    allowed maskMach (vsrcReads (.isa 0 [⟨.f1, 1⟩])) [] = true ∧
    (∀ f, some (LaneFlagSrc.isa 0 [⟨.f1, 1⟩]) = some f → allowed maskMach (laneFlagSrcReads f) [] = true) := by
  refine ⟨rfl, by decide, by decide, by decide, ?_⟩
  intro f hf
  cases hf
  decide
theorem witness_VectorOpCompletes_wide : maskMach.cfg.laneMask = .lowest ∧ 3 < Shape.refA.nl8 ∧ 7 < Shape.refA.nl8 ∧
    maskMach.core.vmsk.getLsbD (3 / 4 * 4) = true ∧ maskMach.core.vmsk.getLsbD (7 / 4 * 4) = false := by decide

theorem witness_MaskedLaneKeepsValue :
    (∃ m', exec (.vectorOp w32 2 4 [] (.const 7) none) ⟨.refA, maskMach⟩ = .next ⟨.refA, m'⟩) ∧ 3 < Shape.refA.nl8 ∧
    laneMasked maskMach.cfg.laneMask maskMach.core.vmsk 4 (laneOf 4 3) = true :=
  ⟨next_of (by decide), by decide, by decide⟩

theorem witness_VectorMaskPolarity : 0 < 8 ∧ 7 < 8 ∧ 1 ≤ 1 ∧ 1 ≤ 8 ∧ (5#8).getLsbD 0 = true ∧ (5#8).getLsbD 7 = false := by decide

theorem witness_VectorFlagsPerLane_wide : 1 ≤ 4 ∧ (⟨4, by decide⟩ : Fin Shape.refA.nl8).val = 1 * 4 ∧
    maskMach.cfg.laneMask = .lowest ∧ maskMach.cfg.laneFlag = .lowest ∧ maskMach.core.vmsk.getLsbD (1 * 4) = false := by decide
theorem witness_VectorFlagsPerLane : (⟨7, by decide⟩ : Fin Shape.refA.nl8).val = 7 * 1 ∧ maskMach.core.vmsk.getLsbD (⟨7, by decide⟩ : Fin Shape.refA.nl8).val = false ∧
    flagOf (laneGen [⟨{ div0 := true }, {}⟩] 0).which .div0 = true ∧
    flagOf (laneGen [⟨{ div0 := true }, {}⟩] 7).which .div0 = false := by decide

/-- A machine with auto exceptions on, and a handler for DIV0. -/
def excMach : Mach .refA :=
  mach .refA (fun c => { c with csr := { sup := true, exc := true }, setp := 0x5000#_ }) (cells8 0x5004 0x5300)

/-- The same with the low four lanes masked. -/
def halfMach : Mach .refA := { excMach with core := { excMach.core with vmsk := 0x0F#_ } }

theorem witness_VectorDivisionTrapsOnce : NoBreakpoints halfMach ∧ halfMach.core.csr.exc = true ∧
    halfMach.cfg.autoExc.div0 = true ∧ allowed halfMach (vsrcReads (.const 0)) [] = true ∧
    [true, false, false, false, false, false, false, true].getD 7 false = true ∧ 7 < Shape.refA.nl8 ∧
    halfMach.core.vmsk.getLsbD 7 = false ∧ halfMach.core.vmsk.getLsbD 0 = true :=
  ⟨rfl, by decide, by decide, by decide, by decide, by decide, by decide, by decide⟩

theorem witness_CallAndReturn : NoBreakpoints userMach ∧ (Operand.x 31).wf 0 = true ∧
    allowed userMach (operandReads (.x 31)) [] = true ∧
    (∃ s, exec (.call w48 (.x 31)) ⟨.refB, userMach⟩ = .next ⟨.refB, s⟩) ∧
    ∃ t, exec (.ret w32) ⟨.refB, userMach⟩ = .next ⟨.refB, t⟩ :=
  ⟨rfl, by decide, by decide, next_of (by decide), next_of (by decide)⟩

/-- A core in which a function with one parameter and one result has just been called, and has returned at once. -/
theorem witness_CallAndReturn_abi : (⟨[.word], [.word], false⟩ : Signature).covered = true ∧
    (∀ k : Fin 4, ∀ p, [0#64][k.val]? = some p → userMach.core.x[k.val] = p) ∧
    (∀ k : Fin 2, ∀ r, [0#64][k.val]? = some r → userMach.core.x[4 + k.val] = r) ∧
    HoldsGlobalBase (some 0#64) userMach.core ∧
    FollowsAbi ⟨[.word], [.word], false⟩ (some 0#64) [0#64] [0#64] (Core.zero .refB) (Core.zero .refB) := by
  have h4 : ∀ c : Core .refB, c.x = Vector.replicate 32 0#64 → ∀ k : Fin 4, ∀ p, [0#64][k.val]? = some p → c.x[k.val] = p := by
    intro c hc k p h
    rw [List.getElem?_singleton] at h
    split at h
    · cases h; simp only [hc]; exact Vector.getElem_replicate ..
    · cases h
  have h2 : ∀ c : Core .refB, c.x = Vector.replicate 32 0#64 → ∀ k : Fin 2, ∀ r, [0#64][k.val]? = some r → c.x[4 + k.val] = r := by
    intro c hc k p h
    rw [List.getElem?_singleton] at h
    split at h
    · cases h; simp only [hc]; exact Vector.getElem_replicate ..
    · cases h
  have hg : ∀ c : Core .refB, c.x = Vector.replicate 32 0#64 → HoldsGlobalBase (some 0#64) c := by
    intro c hc g h
    cases h
    rw [hc]
    exact Vector.getElem_replicate ..
  have hk : KeepsGlobalBase (some 0#64) [Core.zero .refB, Core.zero .refB] := by
    intro c hc
    simp only [List.mem_cons, List.not_mem_nil, or_false, or_self] at hc
    exact hg c (by rw [hc]; rfl)
  exact ⟨by decide, h4 _ rfl, h2 _ rfl, hg _ rfl, by decide, rfl, rfl, h4 _ rfl, hk, ⟨fun _ _ => rfl, rfl, rfl, rfl, rfl⟩, h2 _ rfl⟩

theorem witness_ScalarWrite : NoBreakpoints userMach ∧ (Operand.sr 15).wf 0 = true ∧
    allowed userMach (operandReads (.sr 15)) [] = true := ⟨rfl, by decide, by decide⟩

/-- An instruction that adds to a register and raises flags. -/
def addInstr : Instr := .general w32 (.fixed sampleAdd)

theorem witness_AnyRecordCompletes : undisturbed addInstr userMach ∧ userMach.record (.fixed sampleAdd) = some sampleAdd ∧
    sampleAdd.wf = true ∧ namesEmptySlot (recordReads sampleAdd) (destsOf sampleAdd) = false ∧ .sr 11 ∉ destsOf sampleAdd ∧
    ∃ eff, userMach.evaluate w32 sampleAdd = .ok eff :=
  ⟨⟨rfl, rfl, by decide⟩, rfl, by decide, by decide, by decide, _, evaluate_pure userMach w32 sampleAdd rfl rfl rfl⟩

theorem witness_StoreCompletes : NoBreakpoints userMach ∧ userMach.core.csr.pag = false ∧ (Operand.const 0x8008).wf 0 = true ∧
    (Operand.x 1).wf 0 = true ∧ allowed userMach (operandReads (.const 0x8008) ++ operandReads (.x 1)) [] = true ∧
    userMach.operand (useStoreAddr 0) [] (.const 0x8008) % 2 ^ Shape.refB.W % Size.b64.bytes = 0 :=
  ⟨rfl, by decide, by decide, by decide, by decide, by decide⟩

theorem witness_LoadCompletesOrFaults : NoBreakpoints userMach ∧ (Operand.const 0x5010).wf 0 = true ∧
    allowed userMach (operandReads (.const 0x5010)) [] = true ∧
    userMach.memRead .read (userMach.operand (useRead 0) [] (.const 0x5010) % 2 ^ Shape.refB.W) Size.b16.bytes = .ok 0x5200 ∧
    userMach.memRead .read (userMach.operand (useRead 0) [] (.const 0x5011) % 2 ^ Shape.refB.W) Size.b16.bytes =
      .error (.fault (.misaligned 0x5011)) ∧
    userMach.memRead .read (userMach.operand (useRead 0) [] (.const 0x5018) % 2 ^ Shape.refB.W) Size.b8.bytes =
      .error (.fault (.unwrittenByte 0x5018)) :=
  ⟨rfl, by decide, by decide, by decide, by decide, by decide⟩

/-- An instruction with a destination in each file. -/
def wideInstr : Instr :=
  .general w32 (.fixed { writes := [(.x 31, .const 1), (.sr 0, .const 2)], vwrites := [⟨31, 1, .const 3⟩] })

/-- In supervisor mode with no breakpoint and auto exceptions off nothing disturbs an instruction. -/
theorem sup_undisturbed (i : Instr) : undisturbed i supMach := ⟨rfl, rfl, rfl⟩

theorem witness_ExplicitWriteSetsUsageBit : undisturbed wideInstr supMach ∧
    (∃ m', exec wideInstr ⟨.refB, supMach⟩ = .next ⟨.refB, m'⟩) ∧ (recordOf wideInstr supMach).special = .none ∧
    (∀ j : Fin 32, 19 ≤ j.val → j.val ≤ 21 → .sr j ∉ destsOf (recordOf wideInstr supMach)) ∧
    .x 31 ∈ destsOf (recordOf wideInstr supMach) ∧ .sr 0 ∈ destsOf (recordOf wideInstr supMach) ∧
    31 ∈ vdestsOf (recordOf wideInstr supMach) :=
  ⟨sup_undisturbed _, next_of (by decide), by decide, by decide, by decide, by decide, by decide⟩

theorem witness_FileTwoSlots : dumpMach.core.fu2.getLsbD 16 = true ∧ dumpMach.core.fuOpen.getLsbD 31 = false ∧ 31 < 32 ∧
    csrLayoutWf dumpMach.cfg.csrLayout Shape.refA.csrBits = true := by decide

theorem witness_CsrImageHoldsEveryField : csrLayoutWf CsrLayout.reference 38 = true := by decide

theorem witness_SlotReadsWhatWasWritten : Slot.kr 3 ≠ .pc ∧ Slot.vflg ≠ .pc ∧ Slot.csr ≠ .pc := by decide

theorem witness_ByteOrder : 0 < [1#8, 2#8].length ∧ 1 < [1#8, 2#8].length := by decide

/-- A memory after a store of 8 bytes in the last place of the address space. -/
def topMach : Mach .refB :=
  { supMach with mem := Memory.setAll supMach.mem (plainCells .refB .little ⟨0xFFFFFFFFFFFFFFF8, 8, 8, 0x0102030405060708⟩) }

theorem witness_MemoryReadAfterWrite : topMach.core.csr.pag = false ∧ 0xFFFFFFFFFFFFFFF8 % Size.b64.bytes = 0 ∧
    topMach.mem = Memory.setAll supMach.mem
      (plainCells .refB topMach.cfg.endian ⟨0xFFFFFFFFFFFFFFF8, Size.b64.bytes, Size.b64.bytes, 0x0102030405060708⟩) ∧
    0 ∉ chunkPlaces .refB ⟨0xFFFFFFFFFFFFFFF8, Size.b64.bytes, Size.b64.bytes, 0x0102030405060708⟩ :=
  ⟨rfl, by decide, rfl, by decide⟩

theorem witness_AlignmentRule : 0x8000 % 4 = 0 ∧ 0x8002 % 4 ≠ 0 ∧ supMach.cfg.misaligned = .fault ∧
    ({ supMach with cfg := { supMach.cfg with misaligned := .split } }).cfg.misaligned = .split ∧
    (mach .refB (fun c => { c with pc := 0x3001#_ }) []).core.pc.toNat % 2 ≠ 0 := by decide

/-- A machine with paging on that maps one byte. -/
def pagedMach : Mach .refB :=
  { mach .refB (fun c => { c with csr := { pag := true } }) [] with
    cfg := { Params.reference .refB with translate := .table [(0x1000, 0x7000)] } }

theorem witness_TranslationRule : supMach.core.csr.pag = false ∧ pagedMach.core.csr.pag = true ∧
    pagedMach.translation .read 0x1000 = some 0x7000 ∧ pagedMach.translation .read 0x1001 = none ∧
    pagedMach.eventCells 1 [(0x1000, 1#8)] = .ok [(0x7000, 1#8)] ∧
    ({ pagedMach with mem := Memory.setAll pagedMach.mem [(0x7000, 1#8)] } : Mach .refB).storeCells [[(0x1000, 2#8)]] =
      .ok [(0x7000, 2#8)] := by decide

theorem witness_EmptySlotAndPcRefused : NoBreakpoints supMach ∧
    answered (.srRead w32 1 17) supMach = true ∧
    namesEmptySlot (recordReads (recordOf (.srRead w32 1 17) supMach)) (destsOf (recordOf (.srRead w32 1 17) supMach)) = true ∧
    answered (.srWrite w32 11 (.const 0)) supMach = true ∧
    namesEmptySlot (recordReads (recordOf (.srWrite w32 11 (.const 0)) supMach))
      (destsOf (recordOf (.srWrite w32 11 (.const 0)) supMach)) = false ∧
    .sr 11 ∈ destsOf (recordOf (.srWrite w32 11 (.const 0)) supMach) :=
  ⟨rfl, by decide, by decide, by decide, by decide, by decide⟩

/-- The premises of the privilege rule hold of an instruction. -/
def violates (i : Instr) : Prop :=
  NoBreakpoints userMach ∧ answered i userMach = true ∧ userMach.core.csr.sup = false ∧
  namesEmptySlot (recordReads (recordOf i userMach)) (destsOf (recordOf i userMach)) = false ∧
  .sr 11 ∉ destsOf (recordOf i userMach)

theorem witness_PrivilegeViolationRaised_source : violates (.srRead w32 1 19) ∧
    ∃ r ∈ recordReads (recordOf (.srRead w32 1 19) userMach), r.file = .f2 ∧ 19 ≤ r.idx.val :=
  ⟨⟨rfl, by decide, by decide, by decide, by decide⟩, ⟨⟨.f2, 19⟩, by decide, by decide, by decide⟩⟩
theorem witness_PrivilegeViolationRaised_destination : violates (.srWrite w32 31 (.const 0)) ∧
    ∃ j : Fin 32, .sr j ∈ destsOf (recordOf (.srWrite w32 31 (.const 0)) userMach) ∧ 19 ≤ j.val ∧ j ≠ 23 :=
  ⟨⟨rfl, by decide, by decide, by decide, by decide⟩, ⟨31, by decide, by decide, by decide⟩⟩
theorem witness_PrivilegeViolationRaised_special : violates (.stateDump w32 (.const 0)) ∧ violates (.stateRestore w32 (.const 0)) ∧
    isDump (recordOf (.stateDump w32 (.const 0)) userMach).special = true ∧
    isRestore (recordOf (.stateRestore w32 (.const 0)) userMach).special = true :=
  ⟨⟨rfl, by decide, by decide, by decide, by decide⟩, ⟨rfl, by decide, by decide, by decide, by decide⟩, by decide, by decide⟩

/-- A core in user mode with a user handler for DIV0. -/
def uetpMach : Mach .refB := mach .refB (fun c => { c with csr := {}, uetp := 0x5000#_ }) (cells8 0x5008 0x5300)

theorem witness_EventEntrySaves : csrLayoutWf userMach.cfg.csrLayout Shape.refB.csrBits = true ∧
    userMach.core.csr.sup = false ∧
    (userMach.saving .privilegeViolation .supervisor 0x3000#_).handler userMach.core.setp .privilegeViolation = .ok 0x5200#_ ∧
    (uetpMach.saving (.flagException .div0) .user 0x3000#_).handler uetpMach.core.uetp (.flagException .div0) = .ok 0x5300#_ ∧
    uetpMach.core.csr.sup = false := by decide

theorem witness_EventClassRule : supMach.classOf (.interrupt ⟨0, .user⟩) = .user ∧ supMach.core.csr.sup = true := by decide

theorem witness_EntryThenReturnResumes : csrLayoutWf userMach.cfg.csrLayout Shape.refB.csrBits = true ∧ NoBreakpoints userMach ∧
    ∃ s, userMach.enter .privilegeViolation 0x3000#_ none false = .ok s := ⟨by decide, rfl, _, rfl⟩

/-- A data mode register, whatever the direction, in the register that a load or a store matches or misses. -/
theorem witness_BreakpointMatches : (dataMach 4).cfg.brkTiming = {} ∧ (dataMach 4).core.csr.exc = false ∧
    (∀ j : Fin 6, brkModeOf (brkCode (dataMach 4).core.bm j) = if j = 5 then some (.dataRead .b32) else some .disabled) ∧
    (Operand.const 0x8000).wf 0 = true ∧ allowed (dataMach 4) (operandReads (.const 0x8000)) [] = true ∧
    (dataMach 4).memRead .read ((dataMach 4).operand (useRead 0) [] (.const 0x8000) % 2 ^ Shape.refB.W) Size.b32.bytes =
      .ok 0x11223344 ∧
    (dataMach 4).operand (useRead 0) [] (.const 0x8000) % 2 ^ Shape.refB.W = (dataMach 4).core.br[(5 : Fin 6)].toNat ∧
    (dataMach 4).memRead .read ((dataMach 4).operand (useRead 0) [] (.const 0x8004) % 2 ^ Shape.refB.W) Size.b32.bytes = .ok 0 ∧
    (dataMach 4).operand (useRead 0) [] (.const 0x8004) % 2 ^ Shape.refB.W ≠ (dataMach 4).core.br[(5 : Fin 6)].toNat :=
  ⟨rfl, by decide, by decide, by decide, by decide, by decide, by decide, by decide, by decide⟩
theorem witness_BreakpointMatches_store : (dataMach 8).cfg.brkTiming = {} ∧ (dataMach 8).core.csr.exc = false ∧
    (∀ j : Fin 6, brkModeOf (brkCode (dataMach 8).core.bm j) = if j = 5 then some (.dataWrite .b32) else some .disabled) ∧
    (Operand.const 0x8000).wf 0 = true ∧ (Operand.const 1).wf 0 = true ∧
    allowed (dataMach 8) (operandReads (.const 0x8000) ++ operandReads (.const 1)) [] = true ∧
    (dataMach 8).core.csr.pag = false ∧
    (dataMach 8).operand (useStoreAddr 0) [] (.const 0x8000) % 2 ^ Shape.refB.W % Size.b32.bytes = 0 ∧
    (dataMach 8).operand (useStoreAddr 0) [] (.const 0x8000) % 2 ^ Shape.refB.W = (dataMach 8).core.br[(5 : Fin 6)].toNat ∧
    (dataMach 8).operand (useStoreAddr 0) [] (.const 0x8004) % 2 ^ Shape.refB.W ≠ (dataMach 8).core.br[(5 : Fin 6)].toNat :=
  ⟨rfl, by decide, by decide, by decide, by decide, by decide, by decide, by decide, by decide, by decide⟩

theorem witness_WordBreakpointTaken : (bmMach .refB 16#30).cfg.brkTiming.instrWord = .before ∧
    answered (.ret ⟨.l32, 0#64⟩) (bmMach .refB 16#30) = true ∧
    brkModeOf (brkCode (bmMach .refB 16#30).core.bm 0) = some (.instrWord .l32) ∧
    (Instr.ret ⟨.l32, 0#64⟩).word.len = .l32 ∧
    (Instr.ret ⟨.l32, 0#64⟩).word.bits.toNat % 2 ^ ILen.l32.bits = (bmMach .refB 16#30).core.br[(0 : Fin 6)].toNat % 2 ^ ILen.l32.bits := by
  decide

theorem witness_FlagBreakpointTaken : (bmMach .refB 0x1C000000#30).cfg.brkTiming = {} ∧
    (bmMach .refB 0x1C000000#30).core.csr.exc = false ∧
    (∀ j : Fin 6, brkModeOf (brkCode (bmMach .refB 0x1C000000#30).core.bm j) = if j = 5 then some (.flag .div0) else some .disabled) ∧
    flagOf ({ div0 := true } : Flags) .div0 = true ∧ flagOf ({ sign := true } : Flags) .div0 = false := by decide
theorem witness_FlagBreakpointTaken_lanes : 1 ≤ 2 ∧ allowed (bmMach .refB 0x1C000000#30) (vsrcReads (.v 3)) [] = true ∧
    allowed (bmMach .refB 0x1C000000#30) (laneFlagSrcReads (.fixed [])) [] = true ∧ 1 * 2 < Shape.refB.nl8 ∧
    laneMasked (bmMach .refB 0x1C000000#30).cfg.laneMask (bmMach .refB 0x1C000000#30).core.vmsk 2 1 = false ∧
    flagOf (laneGen [⟨{}, {}⟩, ⟨{ div0 := true }, { div0 := true }⟩] 1).which .div0 = true ∧
    flagOf (laneGen [⟨{}, {}⟩, ⟨{ div0 := true }, { div0 := true }⟩] 1).val .div0 = true ∧
    ∀ j, ¬ (flagOf (laneGen [] j).which .div0 = true ∧ flagOf (laneGen [] j).val .div0 = true) :=
  ⟨by decide, by decide, by decide, by decide, by decide, by decide, by decide, fun j h => by simp [laneGen, flagOf] at h⟩

theorem witness_ScalarFlagsAndExceptions : NoBreakpoints excMach ∧ excMach.core.csr.exc = true ∧
    flagOf excMach.cfg.autoExc .div0 = true ∧ flagOf ({ div0 := true } : Flags) .div0 = true ∧
    NoBreakpoints supMach ∧ supMach.core.csr.exc = false := ⟨rfl, by decide, by decide, by decide, rfl, by decide⟩

theorem witness_OneEventPerInstruction :
    (∃ m', exec wideInstr ⟨.refB, supMach⟩ = .next ⟨.refB, m'⟩) ∧
    (∃ m', exec (.srRead w32 1 27) ⟨.refB, userMach⟩ = .next ⟨.refB, m'⟩) ∧
    ∃ m', exec (.general w32 (.fixed { sflags := some (.fixed ⟨{ div0 := true }, { div0 := true }⟩) })) ⟨.refA, excMach⟩ =
      .next ⟨.refA, m'⟩ := ⟨next_of (by decide), next_of (by decide), next_of (by decide)⟩

/-- A store of four bytes at 0x8000. -/
def storeInstr : Instr := .general w32 (.fixed { dwrites := [⟨.const 0x8000, .b32, .const 1⟩] })

theorem witness_MemoryFrame_nothing : (∃ m', exec wideInstr ⟨.refB, supMach⟩ = .next ⟨.refB, m'⟩) ∧
    ((recordOf wideInstr supMach).special = .none → (recordOf wideInstr supMach).dwrites = []) ∧
    isDump (recordOf wideInstr supMach).special = false := ⟨next_of (by decide), fun _ => rfl, rfl⟩

/-- A special operation whose record lists a store beside it. -/
def specialStore : Instr :=
  .general w32 (.fixed { dwrites := [⟨.const 0x8000, .b32, .const 1⟩], special := .setVmsk (.const 1) })

theorem witness_MemoryFrame_special : (∃ m', exec specialStore ⟨.refB, supMach⟩ = .next ⟨.refB, m'⟩) ∧
    ((recordOf specialStore supMach).special = .none → (recordOf specialStore supMach).dwrites = []) ∧
    isDump (recordOf specialStore supMach).special = false := ⟨next_of (by decide), (fun h => nomatch h), rfl⟩
theorem witness_MemoryFrame_dump : (∃ m', exec (.stateDump w32 (.const 0x9000)) ⟨.refA, dumpMach⟩ = .next ⟨.refA, m'⟩) ∧
    (recordOf (.stateDump w32 (.const 0x9000)) dumpMach).special = .stateDump (.const 0x9000) ∧
    ∀ cells, dumpMach.cellsOf true (dumpMach.dumpChunks (dumpMach.address useSpecial [] (.const 0x9000))) = .ok cells →
      0x8FFF ∉ storedAt cells := by
  refine ⟨next_of (by decide), rfl, ?_⟩
  intro cells h
  obtain ⟨cells', h', hp, -⟩ := cellsOf_off dumpMach true (dumpMach.dumpChunks (dumpMach.address useSpecial [] (.const 0x9000))) rfl
    (by decide)
  cases h.symm.trans h'
  intro hm
  exact absurd ((hp.map _).mem_iff.1 hm) (by decide)
theorem witness_MemoryFrame_store : (∃ m', exec storeInstr ⟨.refB, supMach⟩ = .next ⟨.refB, m'⟩) ∧
    (recordOf storeInstr supMach).special = .none ∧
    ∀ loaded accs cells, supMach.loadAll (recordOf storeInstr supMach).dreads [] = .ok (loaded, accs) →
      supMach.cellsOf (maySplit (recordOf storeInstr supMach)) (supMach.storeChunks loaded 0 (recordOf storeInstr supMach).dwrites) = .ok cells →
      0x8004 ∉ storedAt cells := by
  refine ⟨next_of (by decide), rfl, ?_⟩
  intro loaded accs cells _ h
  replace h := (cellsOf_one supMach _ ⟨0x8000, 4, 4, 1⟩ rfl (by decide) (by decide)).symm.trans h
  cases h
  decide

theorem witness_RegisterFrame : (∃ m', exec wideInstr ⟨.refB, supMach⟩ = .next ⟨.refB, m'⟩) ∧
    isRestore (recordOf wideInstr supMach).special = false ∧ .x 30 ∉ destsOf (recordOf wideInstr supMach) ∧
    30 ∉ vdestsOf (recordOf wideInstr supMach) ∧ .sr 1 ∉ destsOf (recordOf wideInstr supMach) ∧
    .sr 31 ∉ destsOf (recordOf wideInstr supMach) ∧ (recordOf wideInstr supMach).vflags = none ∧
    (∀ v, (recordOf wideInstr supMach).special ≠ .setVmsk v) := by
  refine ⟨next_of (by decide), by decide, by decide, by decide, by decide, by decide, rfl, ?_⟩
  intro v h
  cases h

theorem witness_EventRegisterFrame : undisturbed wideInstr supMach ∧
    (∃ m', exec wideInstr ⟨.refB, supMach⟩ = .next ⟨.refB, m'⟩) ∧
    isRestore (recordOf wideInstr supMach).special = false ∧ .sr 12 ∉ destsOf (recordOf wideInstr supMach) ∧
    .sr 23 ∉ destsOf (recordOf wideInstr supMach) ∧ .sr 25 ∉ destsOf (recordOf wideInstr supMach) ∧
    (recordOf wideInstr supMach).special ≠ .eventReturn ∧ (recordOf wideInstr supMach).sflags = none :=
  ⟨sup_undisturbed _, next_of (by decide), by decide, by decide, by decide, by decide, by decide, rfl⟩

theorem witness_FileUsageOnlyGrows : (∃ m', exec wideInstr ⟨.refB, supMach⟩ = .next ⟨.refB, m'⟩) ∧
    isRestore (recordOf wideInstr supMach).special = false ∧ .sr 19 ∉ destsOf (recordOf wideInstr supMach) ∧
    .sr 20 ∉ destsOf (recordOf wideInstr supMach) ∧ .sr 21 ∉ destsOf (recordOf wideInstr supMach) :=
  ⟨next_of (by decide), by decide, by decide, by decide, by decide⟩

theorem witness_UserModeKeepsPrivileged : userMach.core.csr.sup = false ∧
    see (fun t => t.m.core.csr.sup) (exec (.setVmsk w32 (.const 1)) ⟨.refB, userMach⟩) = some false ∧
    ∃ m', exec (.setVmsk w32 (.const 1)) ⟨.refB, userMach⟩ = .next ⟨.refB, m'⟩ :=
  ⟨rfl, by decide, next_of (by decide)⟩

/-- A user mode core whose UEB_1 holds a CSR in supervisor mode. -/
def escapeMach : Mach .refB := mach .refB (fun c => { c with csr := {}, ueb1 := 0x20000000#_ }) []

theorem witness_SupervisorOnlyByEvent : userMach.core.csr.sup = false ∧
    see (fun t => t.m.core.csr.sup) (exec (.srRead w32 1 27) ⟨.refB, userMach⟩) = some true ∧
    escapeMach.core.csr.sup = false ∧
    see (fun t => t.m.core.csr.sup) (exec (.eventReturn w32) ⟨.refB, escapeMach⟩) = some true := by decide

theorem witness_ResetState : ({ Params.reference .refA with ncores := 2, bootCore := 1 } : Params).bootCore <
    ({ Params.reference .refA with ncores := 2, bootCore := 1 } : Params).ncores := by decide

theorem witness_StepKeepsInv : Inv ⟨.refB, fetchMach⟩ ∧ see (fun _ => true) (step ⟨.refB, fetchMach⟩) = some true :=
  ⟨⟨by decide, by decide, by decide⟩, by decide⟩

/-- Two cores, the second of which the environment lets step. -/
def twoMach : Mach .refA :=
  { Mach.resetWith .refA { Params.reference .refA with ncores := 2 } (.ofWords []) with env := [⟨1, [⟨0, .waking⟩], none⟩] }

theorem witness_OtherCoresUntouched :
    see (fun t => (t.m.coreId, t.m.core.csr.hlt, t.m.parked.map fun p => (p.1, p.2.csr.boot), t.m.env.length))
      (step ⟨.refA, twoMach⟩) = some (1, false, [(0, true)], 0) := by decide

end Sys2Proof.Tests
end

section
/-! SUPPORT. Proofs of the family 00_scope: the fetch, the completion of a record, the frames of an instruction and of a step. -/

namespace Sys2Proof.Machine

open Sys2Proof

variable {sh : Shape}

/-! ### The fetch -/

/-- An instruction set with words in force is a list of words, and among words told apart the bytes decode to the one they begin
with (R140). -/
theorem decoded_of_prefix {m : Mach sh} {i : Instr} {bytes : List Byte} (hwf : isaWf m.isa.order m.words = true)
    (hi : i ∈ m.words) (hb : encode m.isa.order i <+: bytes) : m.decoded bytes = .ok i := by
  obtain ⟨-, hap⟩ := Bool.and_eq_true_iff.1 hwf
  have hfind := find_of_prefix hap hi hb
  cases hisa : m.isa with
  | table o rows =>
    rw [hisa, Isa.order] at hfind
    simp only [Mach.decoded, hisa, decode, hfind]
  | free o => simp [Mach.words, hisa] at hi

/-- An even pc passes the alignment check, and the fetch is what the bytes there decode to (R240 step 3). -/
theorem fetch_of_decoded {m : Mach sh} {i : Instr} (ha : m.core.pc.toNat % 2 = 0)
    (hd : m.decoded (m.fetchable 8 m.core.pc.toNat) = .ok i) : m.fetch = .ok i := by
  simp only [Mach.fetch, checkAlign_even m _ _ ha, hd]

/-- Settles O4: the bytes of the word begin those that can be fetched, and no other word in force does. -/
theorem fetchReadsBytesAtPc : Obligations.FetchReadsBytesAtPc := by
  intro sh m i hpag heven hwf hi hmem
  exact fetch_of_decoded heven
    (decoded_of_prefix hwf hi (fetchable_prefix m hpag _ 8 _ (encode_length_le _ i) hmem))

/-! ### The completion of a record -/

/-- A record that names neither slot `%17` nor PC as a destination is not refused (R53, R189). -/
theorem refusalOf_eq_none {r : Record} (hs : namesEmptySlot (recordReads r) (destsOf r) = false) (hp : .sr 11 ∉ destsOf r) :
    refusalOf r = none := by
  have hp' : writesPc (destsOf r) = false := by simpa [writesPc] using List.forall_mem_ne'.2 hp
  simp [refusalOf, hs, hp']

/-- An undisturbed instruction that is not refused and whose record is worked out ends in the state its effects leave. -/
theorem exec_undisturbed {m : Mach sh} {i : Instr} {eff : Effect sh} (hu : undisturbed i m) (ha : answered i m = true)
    (hr : refusalOf (recordOf i m) = none) (he : m.evaluate i.word (recordOf i m) = .ok eff) :
    exec i ⟨sh, m⟩ = .next ⟨sh, { m.committed eff with draws := m.draws + 1 }⟩ := by
  obtain ⟨hb, hexc, hv⟩ := hu
  rw [exec_off hb ha, hr, hv, he]
  exact congrArg outcome (complete_off hb (autoExceptions_off m eff.gens hexc))

/-- An instruction with no row of its own performs the record of its body. -/
theorem recordOf_body {m : Mach sh} {i : Instr} {w : IWord} {b : Body} {r : Record} (hi : i = .compressed w b ∨ i = .general w b)
    (hr : m.record b = some r) : i.word = w ∧ recordOf i m = r ∧ legal i m = true := by
  rcases hi with rfl | rfl <;> simp [Instr.word, recordOf, legal, hr]

/-- Settles O27: such a record is neither refused nor a violation, and its evaluation is what the instruction leaves. -/
theorem anyRecordCompletes : Obligations.AnyRecordCompletes := by
  intro sh m w b r eff i hi hrec hwf hu hslot hpc he
  obtain ⟨hw, hrof, hleg⟩ := recordOf_body hi hrec
  subst hw hrof
  exact exec_undisturbed hu (by rw [answered, hleg, hwf]; rfl) (refusalOf_eq_none hslot hpc) he

/-! ### The frame of memory -/

/-- A special operation other than a dump stores nothing. -/
theorem planSpecial_chunks {m : Mach sh} {loaded : List Nat} {s : Special} {plan : Plan} {chunks : List Chunk} {accs : List Access}
    (h : m.planSpecial loaded s = .ok (plan, chunks, accs)) (hd : isDump s = false) : chunks = [] := by
  cases s with
  | stateDump a => cases hd
  | stateRestore a =>
    simp only [Mach.planSpecial] at h
    split at h <;> cases h
    rfl
  | _ => cases h; rfl

/-- A record with no special operation performs all its generic effects. -/
theorem genericEffects_of_none {r : Record} (h : r.special = .none) : genericEffects r = r := by simp [genericEffects, h]

/-- A special operation takes the place of the record's data reads and writes (R180). -/
theorem genericEffects_special {r : Record} (h : r.special ≠ .none) :
    (genericEffects r).dreads = [] ∧ (genericEffects r).dwrites = [] := by simp [genericEffects, h]

/-- A record that stores nothing writes no byte (R180). -/
theorem cells_of_no_store {m : Mach sh} {w : IWord} {r : Record} {eff : Effect sh} (he : m.evaluate w r = .ok eff)
    (hn : r.special = .none → r.dwrites = []) (hd : isDump r.special = false) : eff.cells = [] := by
  obtain ⟨loaded, raccs, plan, chunks, paccs, -, hp, hc, -⟩ := evaluate_ok he
  have hw : (genericEffects r).dwrites = [] := by
    by_cases hs : r.special = .none
    · rw [genericEffects_of_none hs, hn hs]
    · exact (genericEffects_special hs).2
  rw [generic_special] at hp
  rw [hw, planSpecial_chunks hp hd] at hc
  exact (Except.ok.inj ((cellsOf_nil m _).symm.trans hc)).symm

/-- A dump writes the bytes of its image (R183). -/
theorem cells_of_dump {m : Mach sh} {w : IWord} {r : Record} {eff : Effect sh} {a : Operand} (he : m.evaluate w r = .ok eff)
    (hs : r.special = .stateDump a) : m.cellsOf true (m.dumpChunks (m.address useSpecial [] a)) = .ok eff.cells := by
  have hne : r.special ≠ .none := by simp [hs]
  obtain ⟨hdr, hdw⟩ := genericEffects_special hne
  obtain ⟨loaded, raccs, plan, chunks, paccs, hl, hp, hc, -⟩ := evaluate_ok he
  rw [hdr] at hl
  rw [generic_special, hs] at hp
  cases hl
  cases hp
  rwa [hdw, maySplit_special hne] at hc

/-- A record with no special operation writes the bytes of its data writes (R9). -/
theorem cells_of_stores {m : Mach sh} {w : IWord} {r : Record} {eff : Effect sh} (he : m.evaluate w r = .ok eff)
    (hs : r.special = .none) : ∃ loaded accs, m.loadAll r.dreads [] = .ok (loaded, accs) ∧
      m.cellsOf (maySplit r) (m.storeChunks loaded 0 r.dwrites) = .ok eff.cells := by
  obtain ⟨loaded, raccs, plan, chunks, paccs, hl, hp, hc, -⟩ := evaluate_ok he
  rw [genericEffects_of_none hs] at hl hp hc
  rw [planSpecial_chunks hp (by rw [hs]; rfl), List.append_nil] at hc
  exact ⟨loaded, raccs, hl, hc⟩

/-- An instruction keeps every byte that its record, if it is worked out, does not write to. -/
theorem exec_keeps_byte {m m' : Mach sh} {i : Instr} {p : Nat} (h : exec i ⟨sh, m⟩ = .next ⟨sh, m'⟩)
    (hp : ∀ eff, m.evaluate i.word (recordOf i m) = .ok eff → p ∉ storedAt eff.cells) :
    Memory.get? m'.mem p = Memory.get? m.mem p := by
  rcases cells_mem h with hm | ⟨eff, he, hm⟩
  · rw [hm]
  · rw [hm, get_setAll_other _ _ _ (hp eff he)]

/-- Settles O51: memory changes by the cells of the worked-out record alone, and each kind of record says which those are. -/
theorem memoryFrame : Obligations.MemoryFrame := by
  intro sh m m' i h
  refine ⟨fun hn hd => ?_, fun a p hs hp => ?_, fun p hs hp => ?_⟩
  · rcases cells_mem h with hm | ⟨eff, he, hm⟩
    · exact hm
    · rw [hm, cells_of_no_store he hn hd]
      rfl
  · exact exec_keeps_byte h fun eff he => hp _ (cells_of_dump he hs)
  · refine exec_keeps_byte h fun eff he => ?_
    obtain ⟨loaded, accs, hl, hc⟩ := cells_of_stores he hs
    exact hp loaded accs _ hl hc

/-! ### The frames of the registers -/

/-- An explicit write keeps every other register of FILE 0. -/
theorem regWrite_x_other (cfg : Params) (c : Core sh) {d : Dest} {j : Fin 32} (v : Nat) (h : d ≠ .x j) :
    (c.regWrite cfg d v).x[j] = c.x[j] := by
  cases d with
  | x i =>
    have hij : i.val ≠ j.val := fun he => h (congrArg Dest.x (Fin.ext he))
    exact Vector.getElem_set_ne i.isLt j.isLt hij
  | sr i => exact regWrite_keep_sr (fun c => c.x[j]) cfg i v c (fun s _ => by simp) (fun _ _ _ => rfl)

/-- An explicit write keeps FILE 1. -/
theorem regWrite_v (cfg : Params) (c : Core sh) (d : Dest) (v : Nat) : (c.regWrite cfg d v).v = c.v := by
  cases d with
  | x i => rfl
  | sr i => exact regWrite_keep_sr (fun c => c.v) cfg i v c (fun s _ => by simp) (fun _ _ _ => rfl)

/-- A vector write keeps every other register of FILE 1. -/
theorem vectorWrite_v_other (cfg : Params) (c : Core sh) (vmsk : BitVec sh.nl8) {d j : Fin 32} (lb : Nat) (res : BitVec sh.vbits)
    (h : d ≠ j) : (c.vectorWrite cfg vmsk d lb res).v[j] = c.v[j] :=
  Vector.getElem_set_ne d.isLt j.isLt fun he => h (Fin.ext he)

/-- A write of another slot keeps each of VR_04 to VR_07. -/
theorem writeSlot_vr_other (l : CsrLayout) {n : Fin 4} (c : Core sh) (v : Nat) (s : Slot) (h : s ≠ .vr n) :
    (writeSlot l c v s).vr[n] = c.vr[n] := by
  cases s with
  | vr k => exact Vector.getElem_set_ne k.isLt n.isLt fun he => h (congrArg Slot.vr (Fin.ext he))
  | _ => rfl

/-- A write of another slot keeps each of BR_00 to BR_05. -/
theorem writeSlot_br_other (l : CsrLayout) {n : Fin 6} (c : Core sh) (v : Nat) (s : Slot) (h : s ≠ .br n) :
    (writeSlot l c v s).br[n] = c.br[n] := by
  cases s with
  | br k => exact Vector.getElem_set_ne k.isLt n.isLt fun he => h (congrArg Slot.br (Fin.ext he))
  | _ => rfl

/-- A write of another slot keeps each of KR_0 to KR_3. -/
theorem writeSlot_kr_other (l : CsrLayout) {n : Fin 4} (c : Core sh) (v : Nat) (s : Slot) (h : s ≠ .kr n) :
    (writeSlot l c v s).kr[n] = c.kr[n] := by
  cases s with
  | kr k => exact Vector.getElem_set_ne k.isLt n.isLt fun he => h (congrArg Slot.kr (Fin.ext he))
  | _ => rfl

/-- A slot whose number is no destination is another than that of any destination. -/
theorem slot_ne_of_not_dest {dests : List Dest} {t s : Slot} {j : Fin 32} (ht : .sr (slotNum t) ∉ dests) (hj : .sr j ∈ dests)
    (hs : slotAt j = some s) : s ≠ t := by
  rintro rfl
  exact ht (slotNum_of hs ▸ hj)

/-- What only writes of slot `t` can change, an instruction keeps that does not have it among its destinations, whether or not it
enters an event. The last two hypotheses hold by unfolding where `P` is one register of a slot alone. -/
theorem exec_keep_slot {α} (P : Core sh → α) (t : Slot) {m m' : Mach sh} {i : Instr}
    (h : exec i ⟨sh, m⟩ = .next ⟨sh, m'⟩) (hres : isRestore (recordOf i m).special = false)
    (ht : .sr (slotNum t) ∉ destsOf (recordOf i m))
    (hslot : ∀ (c : Core sh) v s, s ≠ t → P (writeSlot m.cfg.csrLayout c v s) = P c)
    (hset : ∀ o, (recordOf i m).special = .setVmsk o → ∀ v, P (m.core.setVmsk m.cfg v) = P m.core := by intros; rfl)
    (hall : ∀ (c : Core sh) x v vflg u0 u1 s0 s1 pid csr pc f0 f1 f2 fo, (vflg = c.vflg ∨ (recordOf i m).vflags ≠ none) →
      P { c with x := x, v := v, vflg := vflg, ueb0 := u0, ueb1 := u1, seb0 := s0, seb1 := s1, pid := pid, csr := csr, pc := pc,
                 fu0 := f0, fu1 := f1, fu2 := f2, fuOpen := fo } = P c := by intros; rfl) :
    P m'.core = P m.core :=
  exec_keep_sr P h hres (fun _ hj _ hs v c => hslot c v _ (slot_ne_of_not_dest ht hj hs)) hset hall

/-- An instruction keeps every register of FILE 0 that is no destination. -/
theorem exec_keeps_x {m m' : Mach sh} {i : Instr} (h : exec i ⟨sh, m⟩ = .next ⟨sh, m'⟩)
    (hres : isRestore (recordOf i m).special = false) {j : Fin 32} (hj : .x j ∉ destsOf (recordOf i m)) :
    m'.core.x[j] = m.core.x[j] :=
  exec_keep (fun c => c.x[j]) h
    (hreg := fun _ hd v c => regWrite_x_other _ c v fun he => hj (he ▸ hd))
    (hvec := fun _ _ _ _ _ => rfl) (hret := fun _ => rfl) (hset := fun _ _ _ => rfl) hres
    (hfl := fun _ _ _ => rfl) (hvf := fun _ _ _ => rfl) (hmark := fun _ _ _ => rfl) (hpc := fun _ _ => rfl)
    (hent := fun _ _ _ _ _ _ => by simp)

/-- An instruction keeps every register of FILE 1 that is no destination. -/
theorem exec_keeps_v {m m' : Mach sh} {i : Instr} (h : exec i ⟨sh, m⟩ = .next ⟨sh, m'⟩)
    (hres : isRestore (recordOf i m).special = false) {j : Fin 32} (hj : j ∉ vdestsOf (recordOf i m)) :
    m'.core.v[j] = m.core.v[j] :=
  exec_keep (fun c => c.v[j]) h
    (hreg := fun d _ v c => by rw [regWrite_v])
    (hvec := fun _ hd _ _ c => vectorWrite_v_other _ c _ _ _ fun he => hj (he ▸ hd))
    (hret := fun _ => rfl) (hset := fun _ _ _ => rfl) hres
    (hfl := fun _ _ _ => rfl) (hvf := fun _ _ _ => rfl) (hmark := fun _ _ _ => rfl) (hpc := fun _ _ => rfl)
    (hent := fun _ _ _ _ _ _ => by simp)

/-- Settles O52: each register changes only by writes of its own slot; VFLG also by vector flags, VMSK by SET_VMSK. -/
theorem registerFrame : Obligations.RegisterFrame := by
  intro sh m m' i h hres kept
  refine ⟨fun j => exec_keeps_x h hres, fun j => exec_keeps_v h hres,
    ?vflg, ?vr, ?br, ?bm, ?vmsk, ?smsk, ?uetp, ?setp, ?ptp, ?kr⟩
  case vflg =>
    intro hk hv
    refine exec_keep_slot (·.vflg) .vflg h hres hk (writeSlot_vflg _) (hall := ?_)
    intro c _ _ vflg _ _ _ _ _ _ _ _ _ _ _ hvf
    exact hvf.resolve_right (absurd hv)
  case vmsk =>
    intro hk hv
    exact exec_keep_slot (·.vmsk) .vmsk h hres hk (writeSlot_vmsk _) (hset := fun o ho => absurd ho (hv o))
  case vr => exact fun n hk => exec_keep_slot (·.vr[n]) (.vr n) h hres hk (writeSlot_vr_other _)
  case br => exact fun n hk => exec_keep_slot (·.br[n]) (.br n) h hres hk (writeSlot_br_other _)
  case bm => exact fun hk => exec_keep_slot (·.bm) .bm h hres hk (writeSlot_bm _)
  case smsk => exact fun hk => exec_keep_slot (·.smsk) .smsk h hres hk (writeSlot_smsk _)
  case uetp => exact fun hk => exec_keep_slot (·.uetp) .uetp h hres hk (writeSlot_uetp _)
  case setp => exact fun hk => exec_keep_slot (·.setp) .setp h hres hk (writeSlot_setp _)
  case ptp => exact fun hk => exec_keep_slot (·.ptp) .ptp h hres hk (writeSlot_ptp _)
  case kr => exact fun n hk => exec_keep_slot (·.kr[n]) (.kr n) h hres hk (writeSlot_kr_other _)

/-- What only writes of slot `t`, a return from an event and generated scalar flags can change, an undisturbed instruction keeps
that does not have the slot among its destinations. The last three hypotheses hold by unfolding where `P` is one register alone. -/
theorem undisturbed_keep_slot {α} (P : Core sh → α) (t : Slot) {m m' : Mach sh} {i : Instr} (hu : undisturbed i m)
    (h : exec i ⟨sh, m⟩ = .next ⟨sh, m'⟩) (hres : isRestore (recordOf i m).special = false)
    (ht : .sr (slotNum t) ∉ destsOf (recordOf i m))
    (hslot : ∀ (c : Core sh) v s, s ≠ t → P (writeSlot m.cfg.csrLayout c v s) = P c)
    (hret : (recordOf i m).special = .eventReturn → P (m.core.returned m.cfg) = P m.core := by intros; rfl)
    (hfl : ∀ (c : Core sh) fs, (recordOf i m).sflags ≠ none → P { c with csr := { c.csr with flags := fs } } = P c :=
      by intros; rfl)
    (hall : ∀ (c : Core sh) x v vmsk vflg pc f0 f1 f2 fo,
      P { c with x := x, v := v, vmsk := vmsk, vflg := vflg, pc := pc, fu0 := f0, fu1 := f1, fu2 := f2, fuOpen := fo } = P c :=
      by intros; rfl) :
    P m'.core = P m.core := by
  obtain ⟨eff, he, rfl, -⟩ := undisturbed_next hu h
  have hmark : ∀ (c : Core sh) u o, P { c with fu2 := u, fuOpen := o } = P c :=
    fun c u o => hall c c.x c.v c.vmsk c.vflg c.pc c.fu0 c.fu1 u o
  have hreg : ∀ d ∈ destsOf (recordOf i m), ∀ v (c : Core sh), P (c.regWrite m.cfg d v) = P c := by
    intro d hd v c
    cases d with
    | x j => exact hall c _ c.v c.vmsk c.vflg c.pc _ c.fu1 _ _
    | sr j => exact regWrite_keep_sr P m.cfg j v c (fun s hs => hslot c v s (slot_ne_of_not_dest ht hd hs)) hmark
  have hperf : P (m.performed eff) = P m.core :=
    performed_keep P he hreg (fun _ _ _ _ c => hall c c.x _ c.vmsk c.vflg c.pc c.fu0 _ _ _) hret
      (fun _ _ _ => hall m.core m.core.x m.core.v _ m.core.vflg m.core.pc m.core.fu0 m.core.fu1 _ _) hres
  exact committed_keep P he hperf hfl (fun c fs _ => hall c c.x c.v c.vmsk fs c.pc c.fu0 c.fu1 c.fu2 c.fuOpen) hmark
    (fun c p => hall c c.x c.v c.vmsk c.vflg p c.fu0 c.fu1 c.fu2 c.fuOpen)

/-- A CSR with its flags left out: every other field. -/
def csrWithoutFlags (c : Csr) : Csr := { c with flags := {} }

/-- Two CSRs that agree but for their flags differ by flags alone. -/
theorem csr_eq_with_flags {a b : Csr} (h : csrWithoutFlags a = csrWithoutFlags b) : a = { b with flags := a.flags } :=
  congrArg (fun c : Csr => { c with flags := a.flags }) h

/-- Settles O53: with no event to enter, each register changes only by writes of its own slot; the CSR also by a return, and in its
flags by generated ones. -/
theorem eventRegisterFrame : Obligations.EventRegisterFrame := by
  intro sh m m' i hu h hres kept
  refine ⟨?ueb0, ?ueb1, ?seb0, ?seb1, ?pid, ?fields, ?csr⟩
  case ueb0 => exact fun hk => undisturbed_keep_slot (·.ueb0) .ueb0 hu h hres hk (writeSlot_ueb0 _)
  case ueb1 => exact fun hk => undisturbed_keep_slot (·.ueb1) .ueb1 hu h hres hk (writeSlot_ueb1 _)
  case seb0 => exact fun hk => undisturbed_keep_slot (·.seb0) .seb0 hu h hres hk (writeSlot_seb0 _)
  case seb1 => exact fun hk => undisturbed_keep_slot (·.seb1) .seb1 hu h hres hk (writeSlot_seb1 _)
  case pid => exact fun hk => undisturbed_keep_slot (·.pid) .pid hu h hres hk (writeSlot_pid _)
  case fields =>
    intro hk hnr
    have hrest : csrWithoutFlags m'.core.csr = csrWithoutFlags m.core.csr :=
      undisturbed_keep_slot (fun c => csrWithoutFlags c.csr) .csr hu h hres hk
        (fun c v s hs => congrArg csrWithoutFlags (writeSlot_csr _ c v s hs)) (hret := fun hr => absurd hr hnr)
    exact ⟨_, csr_eq_with_flags hrest⟩
  case csr =>
    intro hk hnr hsf
    exact undisturbed_keep_slot (·.csr) .csr hu h hres hk (writeSlot_csr _) (hret := fun hr => absurd hr hnr)
      (hfl := fun _ _ hf => absurd hsf hf)

/-! ### The other cores -/

/-- Choosing the core that steps takes the environment's move, and changes neither the parameters nor the instruction set. -/
theorem ready_keeps (m : Mach sh) : m.ready.cfg = m.cfg ∧ m.ready.isa = m.isa ∧ m.ready.env = m.env.tail := by
  rcases ready_cases m with ⟨e, hr, rfl⟩ | ⟨id, c, -, -, hr⟩ <;> rw [hr] <;> exact ⟨rfl, rfl, rfl⟩

/-- A core that does not step is among the others with the registers it had (R96). -/
theorem mem_ready_parked (m : Mach sh) {j : Nat} (c : Core sh) (hj : j ≠ m.ready.coreId) :
    (j, c) ∈ m.ready.parked ↔ (j, c) ∈ (m.coreId, m.core) :: m.parked := by
  rcases ready_cases m with ⟨e, hr, -⟩ | ⟨id, d, -, hd, hr⟩ <;> rw [hr] at hj ⊢ <;> simp only at hj ⊢
  · have hne : (j, c) ≠ (m.coreId, m.core) := fun he => hj (congrArg Prod.fst he)
    exact ⟨List.mem_cons_of_mem _, fun h => (List.mem_cons.1 h).resolve_left hne⟩
  · rw [List.mem_map, List.mem_cons]
    constructor
    · rintro ⟨p, hp, he⟩
      split at he
      · exact .inl he.symm
      · exact .inr (he ▸ hp)
    · rintro (he | hp)
      · exact ⟨(id, d), hd, (if_pos rfl).trans he.symm⟩
      · exact ⟨(j, c), hp, if_neg hj⟩

/-- Settles O60: the step itself changes the core that steps alone, and choosing it only changes places with the one before. -/
theorem otherCoresUntouched : Obligations.OtherCoresUntouched := by
  intro sh m t h
  obtain ⟨m', rfl, hcfg, hisa, hid, hparked, henv, -⟩ := step_cases h
  obtain ⟨rcfg, risa, renv⟩ := ready_keeps m
  refine ⟨m', rfl, hcfg.trans rcfg, hisa.trans risa, hid, hparked, henv.trans renv, fun j c hj => ?_⟩
  rw [hid] at hj
  rw [hparked]
  exact mem_ready_parked m c hj

end Sys2Proof.Machine
end

section
/-! SUPPORT. Proofs of the family 10_state: the invariant of the machine, the layout of FILE 2 and of its images, usage bits, and
what an instruction that writes registers or flags comes to. -/

namespace Sys2Proof.Machine

open Sys2Proof

variable {sh : Shape}

/-! ### The invariant -/

/-- Putting the core that steps in its place only exchanges two indexes (R96). -/
theorem coreIds_ready_nodup {m : Mach sh} (h : (coreIds m).Nodup) : (coreIds m.ready).Nodup := by
  rcases ready_cases m with ⟨e, hr, -⟩ | ⟨id, c, -, -, hr⟩ <;> rw [hr]
  · exact h
  · have hswap : coreIds { m with
        env := m.env.tail
        coreId := id
        core := c
        parked := m.parked.map fun p => if p.1 = id then (m.coreId, m.core) else p } =
        (coreIds m).map (Equiv.swap m.coreId id) := by
      have hparked : ∀ p ∈ m.parked, (if p.1 = id then (m.coreId, m.core) else p).1 = Equiv.swap m.coreId id p.1 := by
        intro p hp
        have hne : p.1 ≠ m.coreId := fun he => (List.nodup_cons.1 h).1 (he ▸ List.mem_map_of_mem hp)
        by_cases hid : p.1 = id
        · rw [if_pos hid, hid, Equiv.swap_apply_right]
        · rw [if_neg hid, Equiv.swap_apply_of_ne_of_ne hne hid]
      simpa [coreIds] using hparked
    rw [hswap]
    exact h.map (Equiv.injective _)

/-- Choosing the core that steps changes no byte of memory. -/
theorem ready_mem (m : Mach sh) : m.ready.mem = m.mem := by
  rcases ready_cases m with ⟨e, hr, -⟩ | ⟨id, c, -, -, hr⟩ <;> rw [hr]

/-- Every address a record that is worked out stores at has `WLEN` bits (R100). -/
theorem evaluate_cells_lt {m : Mach sh} {w : IWord} {r : Record} {eff : Effect sh} (he : m.evaluate w r = .ok eff) :
    ∀ c ∈ eff.cells, c.1 < 2 ^ sh.W := by
  obtain ⟨loaded, raccs, plan, chunks, paccs, -, -, hc, -⟩ := evaluate_ok he
  exact cellsOf_lt m _ _ _ hc

/-- Settles O59: a step exchanges indexes of cores at most, and writes memory, if at all, the cells of a worked-out record. -/
theorem stepKeepsInv : Obligations.StepKeepsInv := by
  rintro ⟨sh, m⟩ t ⟨hwf, haddr, hids⟩ h
  obtain ⟨m', rfl, -, -, hid, hparked, -, hmem⟩ := step_cases h
  have hids' : (coreIds m').Nodup := by
    simpa only [coreIds, hid, hparked] using coreIds_ready_nodup hids
  rw [ready_mem] at hmem
  rcases hmem with hmem | ⟨i, eff, he, hmem⟩
  · exact ⟨by rw [hmem]; exact hwf, by rw [hmem]; exact haddr, hids'⟩
  · refine ⟨by rw [hmem]; exact wf_setAll _ _ hwf, ?_, hids'⟩
    rw [hmem]
    exact mem_setAll _ _ (· < 2 ^ sh.W) haddr (evaluate_cells_lt he)

/-- Settles O58: memory is empty at reset, and there is one core. -/
theorem invAtReset : Obligations.InvAtReset :=
  ⟨rfl, fun _ hc => absurd hc List.not_mem_nil, by decide⟩

/-! ### Breakpoint modes -/

/-- The code of breakpoint register `n` is five bits of BM (R43). -/
theorem brkCode_eq_extract (bm : BitVec 30) (n : Fin 6) : brkCode bm n = (bm.extractLsb' (5 * n.val) 5).toNat := by
  rw [BitVec.extractLsb'_toNat, Nat.shiftRight_eq_div_pow, pow_mul]
  rfl

/-- The check of the modes is made of every breakpoint register. -/
theorem any_mode_iff (c : Core sh) (p : Option BrkMode → Bool) :
    ((List.finRange 6).map fun n => brkModeOf (brkCode c.bm n)).any p = true ↔ ∃ n, p (brkModeOf (brkCode c.bm n)) = true := by
  simp

/-- A reserved mode code is refused (R45). -/
theorem checkModes_reserved {c : Core sh} (h : ∃ n, 19 ≤ brkCode c.bm n) :
    c.checkModes = .error (.refuse .reservedBreakpointMode) := by
  obtain ⟨n, hn⟩ := h
  exact if_pos ((any_mode_iff c (· == none)).2 ⟨n, beq_iff_eq.2 ((mode_none _).2 hn)⟩)

/-- With no reserved mode code the check turns on the modes too wide for the registers (R225). -/
theorem checkModes_of_le {c : Core sh} (h : ∀ n, brkCode c.bm n ≤ 18) :
    c.checkModes = if sh.wlen = .w32 ∧ ∃ n, 17 ≤ brkCode c.bm n then .error (.refuse .breakpointModeTooWide) else .ok () := by
  have hres : ¬ ((List.finRange 6).map fun n => brkModeOf (brkCode c.bm n)).any (· == none) = true := by
    rw [any_mode_iff]
    rintro ⟨n, hn⟩
    have := (mode_none _).1 (beq_iff_eq.1 hn)
    have := h n
    omega
  have hwide : ((List.finRange 6).map fun n => brkModeOf (brkCode c.bm n)).any (modeTooWide sh) = true ↔
      sh.wlen = .w32 ∧ ∃ n, 17 ≤ brkCode c.bm n := by
    simp only [any_mode_iff, mode_wide sh _ (h _), exists_and_left]
  unfold Core.checkModes
  simp only [if_neg hres, hwide]

/-- A running core whose modes the check refuses is refused its step, if it takes no interrupt first (R240 step 2). -/
theorem step_of_checkModes_error {m : Mach sh} {r : Refusal} (hh : m.ready.core.csr.hlt = false)
    (hi : takenIrq m.ready.core.csr m.nextMove.1 = none) (hc : m.ready.core.checkModes = .error (.refuse r)) :
    step ⟨sh, m⟩ = .refused r := by
  have hu : m.untilInstr = .error (.refuse r) := by
    simp [Mach.untilInstr, Mach.before, hh, hi, Mach.beforeInstr, hc]
  simp [step, hu]

/-- Settles O6: the codes by their place in BM, and the check of the modes by the codes. -/
theorem refusedBreakpointModes : Obligations.RefusedBreakpointModes := by
  refine ⟨brkCode_eq_extract, fun k hk _ => (mode_none k).2 hk, fun sh m hh hi =>
    ⟨fun hres => ?_, fun hle => ⟨fun hwide => ?_, fun hok => ?_⟩⟩⟩
  · exact step_of_checkModes_error hh hi (checkModes_reserved hres)
  · exact step_of_checkModes_error hh hi ((checkModes_of_le hle).trans (if_pos hwide))
  · refine (checkModes_of_le hle).trans (if_neg ?_)
    rintro ⟨hw, n, hn⟩
    rcases hok with h64 | h16
    · simp [hw] at h64
    · exact absurd (h16 n) (by omega)

/-- Settles O31: the table of R44, code by code. -/
theorem breakpointModeTable : Obligations.BreakpointModeTable := by
  unfold Obligations.BreakpointModeTable
  decide

/-! ### The vector mask -/

/-- A masked write in which no lane is masked is the result (R51). -/
theorem maskedWrite_unmasked {rule : LaneMaskRule} {n : Nat} {vmsk : BitVec n} {lb : Nat} (old res : BitVec (8 * n))
    (h : ∀ j, laneMasked rule vmsk lb j = false) : maskedWrite rule vmsk lb old res = res := by
  apply BitVec.eq_of_toNat_eq
  simp only [maskedWrite_toNat, h, Bool.false_eq_true, if_false]
  rw [lanesToNat_lane8, pow256, Nat.mod_eq_of_lt res.isLt]

/-- Settles O22: an 8-bit lane is masked by its own bit, and a mask of 0s masks no lane. -/
theorem vectorMaskPolarity : Obligations.VectorMaskPolarity := by
  intro n rule old res
  refine ⟨fun vmsk k hk => ?_, fun lb hlb => maskedWrite_unmasked old res fun j => laneMasked_zero rule lb j hlb⟩
  rw [lane8_masked rule vmsk 1 old res k hk, laneOf_one, laneMasked_one]

/-! ### VFLG, the CSR image and the slots of FILE 2 -/

/-- A read of VFLG takes lane `k` from flag group `k` (R49). -/
theorem vflg_lane {n : Nat} (g : Vector Flags n) (k : Nat) (hk : k < n) :
    (g.toList[k]?.map flagsToNat).getD 0 = flagsToNat g[k] := by
  simp [hk]

/-- Bit `8k + j` of a read of VFLG is flag `j` of group `k`; bit 7 of a group is none (R49). -/
theorem testBit_slot_vflg (l : CsrLayout) (c : Core sh) (d : Nat) (k : Fin sh.nl8) (j : Nat) (hj : j < 7) :
    (slotContent l c d .vflg).testBit (8 * k.val + j) = flagOf c.vflg[k] (allFlags.getD j .covr) := by
  have hused : (lanesToNat (fun _ => 127) sh.nl8).testBit (8 * k.val + j) = true :=
    testBit_lanes127 _ _ (by omega) (by omega)
  simp only [slotContent]
  rw [Nat.testBit_or, testBit_unused, hused, testBit_lanes _ _ _ _ k.isLt (by omega), vflg_lane _ _ k.isLt, testBit_flags _ _ hj]
  simp

/-- Settles O33: the seven flags of a group in turn. -/
theorem vflgLayout : Obligations.VflgLayout := by
  intro sh m u k
  have h := testBit_slot_vflg m.cfg.csrLayout m.core (m.draw (.unusedBits u 14)) k
  exact ⟨h 0 (by omega), h 1 (by omega), h 2 (by omega), h 3 (by omega), h 4 (by omega), h 5 (by omega), h 6 (by omega)⟩

/-- Under a legal layout the image of the CSR, whatever its unused bits, reads back as the CSR (R85). -/
theorem csrOfImage_image {l : CsrLayout} {bits : Nat} (h : csrLayoutWf l bits = true) (c : Csr) (d : Nat) :
    csrOfImage l (csrImage l c ||| unusedPart bits (csrFieldMask l) d) = c := by
  refine csrOfImage_eq fun f j hj => ?_
  obtain ⟨himage, hmask, -⟩ := field_bit h c f j hj
  rw [Nat.testBit_or, testBit_unused, hmask, himage]
  simp

/-- Settles O34: the image fits, and no unused bit lies on a field. -/
theorem csrImageHoldsEveryField : Obligations.CsrImageHoldsEveryField :=
  fun _ _ c d h => ⟨image_lt h c, csrOfImage_image h c d⟩

/-- A flag group written into VFLG reads back, its eighth bit ignored (R49). -/
theorem vflg_lane_written (n v k : Nat) (hk : k < n) :
    ((vflgOfNat n v).toList[k]?.map flagsToNat).getD 0 = lane8 v k % 128 := by
  rw [vflg_lane _ _ hk, ← flags_roundtrip]
  simp [vflgOfNat]

/-- Settles O35: each register keeps its own bits of what is written. -/
theorem slotReadsWhatWasWritten : Obligations.SlotReadsWhatWasWritten := by
  intro sh cfg c s v d hpc
  cases s with
  | pc => exact absurd rfl hpc
  | vflg =>
    have hlanes := lanes_congr _ _ sh.nl8 fun k hk => congrArg (· % 256) (vflg_lane_written sh.nl8 v k hk)
    simp only [writeSlot, slotContent, storedContent, hlanes]
  | csr => simp only [writeSlot, slotContent, storedContent, csrImage_ofImage]
  | _ => simp [writeSlot, slotContent, storedContent]

/-- A bit of FU2 reads as it is where the hardware has left it open whether it is set, if it is 1, and everywhere else. -/
theorem testBit_slot_fu2 (l : CsrLayout) (c : Core sh) (d j : Nat) (hj : j < 32) :
    (slotContent l c d .fu2).testBit j = (c.fu2.getLsbD j || (d.testBit j && c.fuOpen.getLsbD j)) := by
  simp only [slotContent, fu2Read_eq]
  rw [BitVec.testBit_toNat, BitVec.getLsbD_or, BitVec.getLsbD_and, BitVec.getLsbD_ofNat]
  simp [hj]

/-- Settles O32: a slot with no unused bit reads as its register by definition; the others apart. -/
theorem fileTwoSlots : Obligations.FileTwoSlots := by
  intro sh m u
  have hfu2 := testBit_slot_fu2 m.cfg.csrLayout m.core (m.draw (.unusedBits u 21))
  refine ⟨rfl, rfl, rfl, rfl, rfl, rfl, rfl, rfl, rfl, rfl, ?bm, rfl, rfl, rfl, ?vmsk, rfl, rfl, rfl, rfl, ?fu2Set, ?fu2, ?csr,
    rfl, rfl, rfl, rfl, rfl, rfl, rfl, rfl, rfl⟩
  case bm => exact or_unused_mod _ _ _ _ m.core.bm.isLt
  case vmsk => exact or_unused_mod _ _ _ _ m.core.vmsk.isLt
  case fu2Set =>
    intro j hj hset
    exact (hfu2 j hj).trans (by simp [hset])
  case fu2 =>
    intro j hj hopen
    exact (hfu2 j hj).trans (by simp [hopen])
  case csr => exact fun hl => csrOfImage_image hl m.core.csr _

/-! ### Usage bits -/

/-- Settles O54: neither the effects of a record nor an event clears a bit. -/
theorem fileUsageOnlyGrows : Obligations.FileUsageOnlyGrows := by
  intro sh m m' i h hres
  rcases perform_ok (exec_next.1 h).2 with ⟨e, cls, saved, a, -, rfl⟩ | ⟨eff, he, -, -, -, hc⟩
  · obtain ⟨h0, h1, h2⟩ := entered_fu m.core m.cfg e cls saved a
    refine ⟨fun _ => ?_, fun _ => ?_, fun _ => h2⟩
    · exact h0 ▸ usage_refl _
    · exact h1 ▸ usage_refl _
  · obtain ⟨p0, p1, p2⟩ := performed_fu he hres
    obtain ⟨c0, c1, c2⟩ := committed_fu m eff
    have hafter : m'.core.fu0 = (m.committed eff).core.fu0 ∧ m'.core.fu1 = (m.committed eff).core.fu1 ∧
        usageGrows (m.committed eff).core.fu2 m'.core.fu2 := by
      rcases hc with rfl | ⟨e, cls, saved, a, -, rfl⟩
      · exact ⟨rfl, rfl, usage_refl _⟩
      · exact entered_fu _ _ e cls saved a
    obtain ⟨a0, a1, a2⟩ := hafter
    rw [a0, a1, c0, c1]
    exact ⟨p0, p1, fun hd => usage_trans (p2 hd) (usage_trans c2 a2)⟩

/-- An explicit write to `x[j]` sets bit `j` of FU0 (R26). -/
theorem regWrite_x_usage (cfg : Params) (c : Core sh) (j : Fin 32) (v : Nat) :
    (c.regWrite cfg (.x j) v).fu0.getLsbD j.val = true := by
  simp [Core.regWrite, usageBit]

/-- An explicit write to a slot other than FU0, FU1, FU2 sets its bit of FU2 (R57). -/
theorem regWrite_sr_usage (cfg : Params) (c : Core sh) {j : Fin 32} (v : Nat) (h17 : j ≠ 17) (hfu : ¬(19 ≤ j.val ∧ j.val ≤ 21)) :
    (c.regWrite cfg (.sr j) v).fu2.getLsbD j.val = true := by
  obtain ⟨s, hs⟩ := slot_exists j h17
  simp only [Core.regWrite, hs]
  rw [markWritten_bit _ _ _ hfu]
  simp [usageBit]

/-- A record that does not name slot `%17` does not write it. -/
theorem dest_ne_empty {reads : List Reg} {dests : List Dest} {j : Fin 32} (h : namesEmptySlot reads dests = false)
    (hj : .sr j ∈ dests) : j ≠ 17 := by
  rintro rfl
  have : namesEmptySlot reads dests = true := by
    rw [namesEmptySlot, Bool.or_eq_true]
    exact .inr (List.any_eq_true.2 ⟨_, hj, by simp⟩)
  simp [this] at h

/-- A usage bit that the write of one destination sets is set after all the writes, if none of them clears usage bits. -/
theorem regWrites_usage (G : Core sh → BitVec 32) (cfg : Params) {j : Nat} {ws : List (Dest × Nat)} {d : Dest} (c : Core sh)
    (hgrow : ∀ e ∈ ws.map (·.1), ∀ v c, usageGrows (G c) (G (c.regWrite cfg e v))) (hd : d ∈ ws.map (·.1))
    (hset : ∀ v (c : Core sh), (G (c.regWrite cfg d v)).getLsbD j = true) : (G (c.regWrites cfg ws)).getLsbD j = true := by
  obtain ⟨w, hw, rfl⟩ := List.mem_map.1 hd
  exact regWrites_sets G cfg j ws c (fun w hw c => hgrow w.1 (List.mem_map_of_mem hw) w.2 c) ⟨w, hw, fun c => hset w.2 c⟩

/-- Step 6 of R240 for a record with no special operation: its explicit writes, then its vector writes. -/
theorem performed_of_none {m : Mach sh} {w : IWord} {r : Record} {eff : Effect sh} (he : m.evaluate w r = .ok eff)
    (hs : r.special = .none) :
    m.performed eff = (m.core.regWrites m.cfg eff.writes).vectorWrites m.cfg m.core.vmsk eff.vwrites ∧
      eff.writes.map (·.1) = destsOf r ∧ eff.vwrites.map (·.1) = vdestsOf r := by
  rcases performed_cases he (by rw [hs]; rfl) with ⟨-, h⟩ | ⟨h, -⟩ | ⟨-, h⟩ | ⟨o, v, h, -⟩
  · exact h
  all_goals rw [hs] at h; cases h

/-- Settles O30: the write itself sets the bit, and nothing after it clears it. -/
theorem explicitWriteSetsUsageBit : Obligations.ExplicitWriteSetsUsageBit := by
  intro sh m m' i hu h hs hfu
  obtain ⟨eff, he, rfl, h17⟩ := undisturbed_next hu h
  obtain ⟨hp, hd, hv⟩ := performed_of_none he hs
  obtain ⟨c0, c1, c2⟩ := committed_fu m eff
  rw [hp] at c0 c1 c2
  have hne : ∀ d ∈ eff.writes.map (·.1), ∀ j : Fin 32, 19 ≤ j.val → j.val ≤ 21 → d ≠ .sr j := by
    rintro d hmem j h1 h2 rfl
    exact hfu j h1 h2 (hd ▸ hmem)
  refine ⟨fun j hj => ?_, fun j hj => ?_, fun d hmem => ?_⟩
  · have hset := regWrites_usage (·.fu0) m.cfg m.core
      (fun e he v c => (regWrite_fu _ c e v).1 (hne e he 19 (by decide) (by decide))) (hd ▸ hj)
      (fun v c => regWrite_x_usage _ c j v)
    exact (congrArg (·.getLsbD j.val) c0).trans
      (usage_bit (vectorWrites_grow (·.fu0) _ _ _ _ fun _ _ _ => usage_refl _) hset)
  · have hset := regWrites_usage (·.fu2) m.cfg m.core
      (fun e he v c => (regWrite_fu _ c e v).2.2 (hne e he 21 (by decide) (by decide))) (hd ▸ hj)
      (fun v c => regWrite_sr_usage _ c v (dest_ne_empty h17 hj) fun hr => hfu j hr.1 hr.2 hj)
    exact usage_bit c2 (usage_bit (vectorWrites_grow (·.fu2) _ _ _ _ fun _ _ _ => usage_or _ _) hset)
  · exact (congrArg (·.getLsbD d.val) c1).trans (vectorWrites_sets _ _ d _ _ (hv ▸ hmem))

/-! ### Instructions that write registers or flags -/

/-- PC among the destinations of a record (R189). -/
theorem writesPc_of_mem {dests : List Dest} (h : .sr 11 ∈ dests) : writesPc dests = true :=
  List.any_eq_true.2 ⟨_, h, beq_self_eq_true _⟩

/-- With no breakpoint register active a record that is refused stops its instruction (R240 step 5). -/
theorem exec_refused {m : Mach sh} {i : Instr} {x : Refusal} (hb : NoBreakpoints m) (ha : answered i m = true)
    (hx : refusalOf (recordOf i m) = some x) : exec i ⟨sh, m⟩ = .refused x := by
  rw [exec_off hb ha, hx]
  rfl

/-- Settles O40: both are refusals of the record, the one of slot `%17` first. -/
theorem emptySlotAndPcRefused : Obligations.EmptySlotAndPcRefused := by
  intro sh m i hb ha
  refine ⟨fun h => exec_refused hb ha (if_pos h), fun hn hpc => exec_refused hb ha ?_⟩
  simp [refusalOf, hn, writesPc_of_mem hpc]

/-- An instruction, compressed or not, with a record written out that is allowed, is worked out and lists no change of a starred CSR
field performs its effects (R240 steps 6 to 8). -/
theorem exec_fixed {m : Mach sh} {w : IWord} {r : Record} {eff : Effect sh} {i : Instr}
    (hi : i = .compressed w (.fixed r) ∨ i = .general w (.fixed r)) (hb : NoBreakpoints m) (hwf : r.wf = true)
    (ha : allowed m (recordReads r) (destsOf r) = true) (hs : r.special = .none) (he : m.evaluate w r = .ok eff)
    (hc : changesStarred m.cfg.csrLayout sh.csrBits m.core.csr (m.listedWrites r) = false) :
    exec i ⟨sh, m⟩ = outcome (m.complete w eff) := by
  obtain ⟨hw, hr, hleg⟩ := recordOf_body (m := m) hi rfl
  subst hw hr
  exact exec_complete hb (by rw [answered, hleg, hwf]; rfl) ha (by rw [hs]; exact fun h => nomatch h) he fun _ => hc

/-- A destination in FILE 0 needs no more than the sources do. -/
theorem allowed_x {m : Mach sh} {reads : List Reg} (d : Fin 32) (h : allowed m reads [] = true) : allowed m reads [.x d] = true := by
  simpa [allowed, namesEmptySlot, writesPc, touchesStarred] using h

/-- Settles O26: the record's one write is its whole effect. -/
theorem scalarWrite : Obligations.ScalarWrite := by
  intro sh m w d o i hb hwf ha hi
  have hreads : recordReads { writes := [(.x d, o)] } = operandReads o := by simp [recordReads, specialReads]
  refine (exec_fixed hi hb ?_ ?_ rfl (evaluate_pure m w _ rfl rfl rfl) ?_).trans ?_
  · simp [Record.wf, Record.loads, dreadsWf, Special.wf, hwf]
  · rw [hreads]; exact allowed_x d ha
  · rw [listedWrites_pure rfl rfl]; rfl
  · rw [complete_off hb (by simpa using autoExceptions_none m)]
    rfl

/-- The flags a scalar instruction generates as 1 (R227). -/
theorem generated_scalar (m : Mach sh) (g : FlagGen) : m.generated (some g) none = generatedFlags g := union_empty _

/-- With no breakpoint register active and an exception due an instruction enters one of those due (R240 step 8). -/
theorem complete_raises {m : Mach sh} {w : IWord} {eff : Effect sh} (hb : NoBreakpoints m) (hx : m.autoExceptions eff.gens ≠ []) :
    ∃ f, flagOf m.cfg.autoExc f = true ∧ flagOf eff.gens f = true ∧
      m.complete w eff = (m.committed eff).enter (.flagException f) m.core.pc (some eff.next) true := by
  obtain ⟨e, es, hes⟩ := List.exists_cons_of_ne_nil hx
  have hpick : m.pick e es ∈ m.autoExceptions eff.gens := hes ▸ pick_mem m e es
  obtain ⟨-, f, hf, hauto, hgen⟩ := (mem_auto m _ _).1 hpick
  exact ⟨f, hauto, hgen, by rw [complete_exc hb hes, hf]⟩

/-- What an instruction that only generates scalar flags comes to: they are laid over the CSR's, and PC goes on (R61). -/
theorem evaluate_scalarFlags (m : Mach sh) (w : IWord) (g : FlagGen) :
    ∃ eff, m.evaluate w { sflags := some (.fixed g) } = .ok eff ∧ eff.gens = generatedFlags g ∧ eff.next = afterPc m w ∧
      m.committed eff = settled m ({ m.core with
        csr := { m.core.csr with flags := mergeFlags g m.core.csr.flags } }.markImplicit m.cfg [.csrFlags]) m.mem (afterPc m w) :=
  ⟨_, evaluate_pure m w _ rfl rfl rfl, generated_scalar m g, rfl, rfl⟩

/-- Settles O49: the flags are laid over the old ones, and the exceptions due are those of the flags generated as 1. -/
theorem scalarFlagsAndExceptions : Obligations.ScalarFlagsAndExceptions := by
  intro sh m w g i hb hi
  obtain ⟨eff, he, hgens, hnext, hcom⟩ := evaluate_scalarFlags m w g
  have hallowed : allowed m (recordReads { sflags := some (.fixed g) }) [] = true := by
    simp [recordReads, specialReads, flagSrcReads, allowed, namesEmptySlot, writesPc, touchesStarred]
  have hrun : exec i ⟨sh, m⟩ = outcome (m.complete w eff) :=
    exec_fixed hi hb rfl hallowed rfl he (by rw [listedWrites_nil rfl]; rfl)
  have hgen : ∀ f, flagOf eff.gens f = true ↔ flagOf g.which f = true ∧ flagOf g.val f = true := by
    intro f
    rw [hgens, flagOf_gen, Bool.and_eq_true]
  refine ⟨mergeFlags g m.core.csr.flags, flagOf_merge g _, ?_⟩
  rw [hrun, ← hcom, ← hnext]
  refine ⟨fun hnone => ?_, fun ⟨hexc, f, hauto, hf⟩ => ?_⟩
  · have hx : m.autoExceptions eff.gens = [] := by
      refine List.eq_nil_iff_forall_not_mem.2 fun e hmem => ?_
      obtain ⟨hexc, f, -, hauto, hf⟩ := (mem_auto m _ e).1 hmem
      rcases hnone with h0 | hn
      · simp [h0] at hexc
      · exact hn f hauto ((hgen f).1 hf)
    rw [complete_off hb hx]
    rfl
  · have hx : m.autoExceptions eff.gens ≠ [] :=
      List.ne_nil_of_mem ((mem_auto m _ _).2 ⟨hexc, f, rfl, hauto, (hgen f).2 hf⟩)
    obtain ⟨f', hauto', hf', hcomp⟩ := complete_raises (w := w) hb hx
    exact ⟨f', hauto', ((hgen f').1 hf').1, ((hgen f').1 hf').2, congrArg outcome hcomp⟩

/-! ### The CSR in user mode -/

/-- A list of writes changes a starred field where a value it writes to the CSR does (R86). -/
theorem changesStarred_iff (l : CsrLayout) (bits : Nat) (c : Csr) (ws : List (Dest × Nat)) :
    changesStarred l bits c ws = true ↔ ∃ v, (.sr 23, v) ∈ ws ∧ ¬ KeepsStarred c (csrOfImage l (v % 2 ^ bits)) := by
  unfold changesStarred
  rw [List.any_eq_true]
  constructor
  · rintro ⟨⟨d, v⟩, hw, h⟩
    cases d with
    | x j => cases h
    | sr j =>
      simp only [Bool.and_eq_true, beq_iff_eq, Bool.not_eq_true'] at h
      obtain ⟨rfl, hs⟩ := h
      exact ⟨v, hw, fun hk => by rw [(sameStarred_iff _ _).2 hk] at hs; cases hs⟩
  · rintro ⟨v, hw, hk⟩
    refine ⟨_, hw, ?_⟩
    simpa [← sameStarred_iff] using hk

/-- In user mode a record that is allowed and has no special operation is a violation exactly where it changes a starred field. -/
theorem violates_user {m : Mach sh} {r : Record} (hu : m.core.csr.sup = false) (hs : r.special = .none)
    (ha : allowed m (recordReads r) (destsOf r) = true) :
    m.violates r = changesStarred m.cfg.csrLayout sh.csrBits m.core.csr (m.listedWrites r) := by
  have ht : touchesStarred (recordReads r) (destsOf r) = false := by simp_all [allowed]
  simp [Mach.violates, hu, ht, hs, needsSupervisor]

/-- With no breakpoint register active an instruction that is no refusal and a violation enters that (R240 step 5). -/
theorem exec_violation {m : Mach sh} {i : Instr} (hb : NoBreakpoints m) (ha : answered i m = true)
    (hr : refusalOf (recordOf i m) = none) (hv : m.violates (recordOf i m) = true) :
    exec i ⟨sh, m⟩ = outcome (m.enter .privilegeViolation m.core.pc (m.knownNext i.word (recordOf i m)) false) := by
  rw [exec_off hb ha, hr, hv]
  rfl

/-- Once its reads are made, the values a record lists are those of its writes. -/
theorem listedWrites_loaded {m : Mach sh} {r : Record} {loaded : List Nat} {accs : List Access} (hs : r.special = .none)
    (hl : m.loadAll r.dreads [] = .ok (loaded, accs)) : m.listedWrites r = m.writeVals loaded 0 r.writes := by
  rw [Mach.listedWrites, genericEffects_of_none hs, peek_of_loadAll hl]

/-- An allowed write that changes a starred field of the CSR is a violation in user mode (R232). -/
theorem exec_user_changes {m : Mach sh} {i : Instr} (hb : NoBreakpoints m) (hu : m.core.csr.sup = false)
    (hw : answered i m = true) (hs : (recordOf i m).special = .none)
    (ha : allowed m (recordReads (recordOf i m)) (destsOf (recordOf i m)) = true) {v : Nat}
    (hv : (.sr 23, v) ∈ m.listedWrites (recordOf i m))
    (hk : ¬ KeepsStarred m.core.csr (csrOfImage m.cfg.csrLayout (v % 2 ^ sh.csrBits))) :
    exec i ⟨sh, m⟩ = outcome (m.enter .privilegeViolation m.core.pc (m.knownNext i.word (recordOf i m)) false) :=
  exec_violation hb hw (refusalOf_allowed ha) ((violates_user hu hs ha).trans ((changesStarred_iff _ _ _ _).2 ⟨v, hv, hk⟩))

/-- An allowed instruction whose writes of the CSR change no starred field completes, in user mode too, if no exception is due. -/
theorem exec_keeps_starred {m : Mach sh} {i : Instr} {eff : Effect sh} (hb : NoBreakpoints m)
    (hw : answered i m = true) (hs : (recordOf i m).special = .none)
    (ha : allowed m (recordReads (recordOf i m)) (destsOf (recordOf i m)) = true)
    (hk : ∀ v, (.sr 23, v) ∈ m.listedWrites (recordOf i m) →
      KeepsStarred m.core.csr (csrOfImage m.cfg.csrLayout (v % 2 ^ sh.csrBits)))
    (he : m.evaluate i.word (recordOf i m) = .ok eff) (hx : m.autoExceptions eff.gens = []) :
    exec i ⟨sh, m⟩ = .next ⟨sh, { m.committed eff with draws := m.draws + 1 }⟩ := by
  refine exec_completes hb hw ha (by rw [hs]; exact fun h => nomatch h) he (fun _ => ?_) hx
  rw [← Bool.not_eq_true, changesStarred_iff]
  rintro ⟨v, hv, hn⟩
  exact hn (hk v hv)

/-- The CSR as a destination needs no more than the sources do: whether a write of it is a violation its value says (R86). -/
theorem allowed_csr {m : Mach sh} {reads : List Reg} (h : allowed m reads [] = true) : allowed m reads [.sr 23] = true := by
  simpa [allowed, namesEmptySlot, writesPc, touchesStarred] using h

/-- In user mode a read of the CSR as a whole is a violation (R232). -/
theorem violates_srRead_csr {m : Mach sh} (hu : m.core.csr.sup = false) (d : Fin 32) : m.violates (srReadRecord d 23) = true := by
  simp [Mach.violates, hu, srReadRecord, recordReads, operandReads, touchesStarred, starred]

/-- Settles O14: the privilege check compares the values a record lists for the CSR, a move to it among them, with the CSR as it is. -/
theorem userCsrAccess : Obligations.UserCsrAccess := by
  intro sh m hb hu new
  refine ⟨fun w val hwf ha => ?_, fun w d => ?_, fun i loaded accs hw hs ha hl =>
    ⟨fun ⟨v, hv, hk⟩ => ?_, fun hk hexc eff he => ?_⟩⟩
  · have hreads : recordReads (srWriteRecord 23 val) = operandReads val := by simp [recordReads, specialReads]
    have hans : answered (.srWrite w 23 val) m = true := by
      simp [answered, legal, recordOf, Record.wf, Record.loads, dreadsWf, Special.wf, hwf]
    have hall : allowed m (recordReads (srWriteRecord 23 val)) [.sr 23] = true := hreads ▸ allowed_csr ha
    have hval : m.listedWrites (srWriteRecord 23 val) = [(.sr 23, m.operand (useWrite 0) [] val)] := listedWrites_pure rfl rfl
    have heval := evaluate_pure m w (srWriteRecord 23 val) rfl rfl rfl
    refine ⟨fun hk => ?_, fun hk => ?_⟩
    · refine (exec_keeps_starred hb hans rfl hall ?_ heval (by simpa using autoExceptions_none m)).trans rfl
      intro v hv
      obtain rfl : v = _ := congrArg Prod.snd (List.mem_singleton.1 (hval ▸ hv))
      exact hk
    · refine (exec_user_changes hb hu hans rfl hall (hval ▸ List.mem_singleton_self _) hk).trans ?_
      exact congrArg (fun n => outcome (m.enter .privilegeViolation m.core.pc n false)) (knownNext_eq heval)
  · refine (exec_violation (i := .srRead w d 23) hb rfl ?_ (violates_srRead_csr hu d)).trans ?_
    · exact refusalOf_eq_none (by simp [recordOf, recordReads, specialReads, operandReads, destsOf, namesEmptySlot])
        (by simp [recordOf, destsOf])
    · exact congrArg (fun n => outcome (m.enter .privilegeViolation m.core.pc n false))
        (knownNext_eq (evaluate_pure m w (srReadRecord d 23) rfl rfl rfl))
  · exact exec_user_changes hb hu hw hs ha (listedWrites_loaded hs hl ▸ hv) hk
  · exact exec_keeps_starred hb hw hs ha (fun v hv => hk v (listedWrites_loaded hs hl ▸ hv)) he (autoExceptions_off m _ hexc)

end Sys2Proof.Machine
end

section
/-! SUPPORT. Proofs of the family 20_memory: byte order, alignment, translation, and what a load or a store comes to. -/

namespace Sys2Proof.Machine

open Sys2Proof

variable {sh : Shape}

/-! ### Byte order -/

/-- In `big` order the byte at the `k`-th address is the `k`-th from the last of the value (R104). -/
theorem ofBytes_big_get (bs : List Byte) (k : Nat) (hk : k < bs.length) :
    ofBytes .big bs / 256 ^ (bs.length - 1 - k) % 256 = bs[k].toNat := by
  have hrev : bs.length - 1 - k < bs.reverse.length := by rw [List.length_reverse]; omega
  have hback : bs.length - 1 - (bs.length - 1 - k) = k := by omega
  simpa [ofBytes, List.getElem_reverse, hback] using valLittle_get bs.reverse (bs.length - 1 - k) hrev

/-- The value of `n` bytes is below `256^n` in either byte order. -/
theorem ofBytes_lt (e : Endian) (bs : List Byte) : ofBytes e bs < 256 ^ bs.length := by
  cases e with
  | little => exact valLittle_lt bs
  | big => simpa [ofBytes] using valLittle_lt bs.reverse

/-- Settles O36: the bytes of a value are its digits of base 256, read from the first address or from the last. -/
theorem byteOrder : Obligations.ByteOrder :=
  ⟨fun bs k hk => ⟨valLittle_get bs k hk, ofBytes_big_get bs k hk, ofBytes_lt .little bs, ofBytes_lt .big bs⟩,
    fun e n v => ⟨toBytes_length e n v, ofBytes_toBytes e n v⟩⟩

/-! ### Alignment -/

/-- Under `MISALIGNED = split` no access faults for its alignment (R105). -/
theorem checkAlign_split {m : Mach sh} (a n : Nat) (h : m.cfg.misaligned = .split) : m.checkAlign a n = .ok () := by
  simp [Mach.checkAlign, h]

/-- An access passes the alignment check or faults for its address, whatever `MISALIGNED` is (R105). -/
theorem checkAlign_cases (m : Mach sh) (a n : Nat) :
    m.checkAlign a n = .ok () ∨ m.checkAlign a n = .error (.fault (.misaligned a)) := by
  unfold Mach.checkAlign
  split
  · exact .inl rfl
  · split
    · exact .inr rfl
    · exact .inl rfl
    · split
      · exact .inr rfl
      · exact .inl rfl

/-- Under `MISALIGNED = fault` a misaligned access faults (R105). -/
theorem checkAlign_fault {m : Mach sh} {a n : Nat} (h : m.cfg.misaligned = .fault) (ha : a % n ≠ 0) :
    m.checkAlign a n = .error (.fault (.misaligned a)) := by
  simp [Mach.checkAlign, h, ha]

/-- A read that fails its alignment check stops with it (R104). -/
theorem memRead_of_checkAlign_error {m : Mach sh} {a n : Nat} {e : Stop} (k : AccessKind) (h : m.checkAlign a n = .error e) :
    m.memRead k a n = .error e := by
  simp [Mach.memRead, h]

/-- Stores whose first chunk fails its alignment check stop with it (R104). -/
theorem cellsOf_of_checkAlign_error {m : Mach sh} {c : Chunk} {e : Stop} (wide : Bool) (cs : List Chunk)
    (h : m.checkAlign c.addr c.unit = .error e) : m.cellsOf wide (c :: cs) = .error e := by
  simp [Mach.cellsOf, Mach.checkChunks, h]

/-- A fetch whose pc fails its alignment check stops with it (R240 step 3). -/
theorem fetch_of_checkAlign_error {m : Mach sh} {e : Stop} (h : m.checkAlign m.core.pc.toNat 2 = .error e) :
    m.fetch = .error e := by
  simp [Mach.fetch, h]

/-- Settles O38: every access asks `checkAlign` first, which has one case for each value of `MISALIGNED`. -/
theorem alignmentRule : Obligations.AlignmentRule := by
  intro sh m a n
  refine ⟨checkAlign_even m a n, checkAlign_split a n, fun _ => checkAlign_cases m a n, fun hf ha => ⟨fun k => ?read, ?store⟩,
    fun hf hpc => fetch_of_checkAlign_error (checkAlign_fault hf hpc)⟩
  case read => exact memRead_of_checkAlign_error k (checkAlign_fault hf ha)
  case store =>
    rintro wide c cs rfl rfl
    exact cellsOf_of_checkAlign_error wide cs (checkAlign_fault hf ha)

/-! ### Translation -/

/-- With paging on an address is where `TRANSLATE` puts it, modulo `2^WLEN` (R108). -/
theorem translate_mapped {m : Mach sh} {k : AccessKind} {a p : Nat} (hp : m.core.csr.pag = true)
    (h : m.translation k a = some p) : m.translate k a = .ok (p % 2 ^ sh.W) := by
  simp [Mach.translate, hp, h, wrapAddr]

/-- With paging on a page event faults (R108). -/
theorem translate_pageEvent {m : Mach sh} {k : AccessKind} {a : Nat} (hp : m.core.csr.pag = true)
    (h : m.translation k a = none) : m.translate k a = .error (.fault (.pageEvent a)) := by
  simp [Mach.translate, hp, h]

/-- A byte is read where its address is translated to. -/
theorem readByte_of_translate {m : Mach sh} {k : AccessKind} {a p : Nat} (h : m.translate k a = .ok p) :
    m.readByte k a = m.physByte p := by
  simp [Mach.readByte, h]

/-- A byte whose address is not translated is not read. -/
theorem readByte_of_translate_error {m : Mach sh} {k : AccessKind} {a : Nat} {e : Stop} (h : m.translate k a = .error e) :
    m.readByte k a = .error e := by
  simp [Mach.readByte, h]

/-- A byte is stored where its address is translated to. -/
theorem translateCells_of_translate {m : Mach sh} {a p : Nat} (b : Byte) (h : m.translate .write a = .ok p) :
    m.translateCells [(a, b)] = .ok [(p, b)] := by
  simp [Mach.translateCells, h]

/-- A byte whose address is not translated is not stored. -/
theorem translateCells_of_translate_error {m : Mach sh} {a : Nat} {e : Stop} (b : Byte) (h : m.translate .write a = .error e) :
    m.translateCells [(a, b)] = .error e := by
  simp [Mach.translateCells, h]

/-- The events after the first write what they do over the memory that the first has left (R109). -/
theorem storeCells_cons {m : Mach sh} {event : List Host.Cell} {events : List (List Host.Cell)} {cells rest : List Host.Cell}
    (h : m.eventCells events.length event = .ok cells)
    (hr : ({ m with mem := Memory.setAll m.mem cells } : Mach sh).storeCells events = .ok rest) :
    m.storeCells (event :: events) = .ok (cells ++ rest) := by
  simp only [Mach.storeCells, h, hr]

/-- Settles O39: fetches, reads and stores all go through `translate`, the stores of later events over the new memory. -/
theorem translationRule : Obligations.TranslationRule := by
  refine ⟨fun sh m k a b => ⟨fun hp => ?off, fun hp p hmap => ?mapped, fun hp hpage => ?pageEvent⟩,
    fun sh m event events cells rest hev hrest => ⟨storeCells_cons hev hrest, ?events⟩⟩
  case off => exact ⟨translate_off m k a hp, readByte_of_translate (translate_off m k a hp), translateCells_off m _ hp⟩
  case mapped =>
    have ht := translate_mapped hp hmap
    refine ⟨ht, readByte_of_translate ht, ?_⟩
    rintro rfl
    exact translateCells_of_translate b ht
  case pageEvent =>
    have ht := translate_pageEvent hp hpage
    refine ⟨ht, readByte_of_translate_error ht, ?_⟩
    rintro rfl
    exact translateCells_of_translate_error b ht
  case events =>
    obtain ⟨translated, ht, hperm, -⟩ := eventCells_ok hev
    exact ⟨translated, ht, hperm⟩

/-! ### Reading after writing -/

/-- A data access is small enough for its bytes to lie apart in either address space (R3, R102). -/
theorem size_bytes_le (sz : Size) : sz.bytes ≤ 2 ^ 32 := by cases sz <;> decide

/-- An access has as many values by its bytes as by its bits (R102). -/
theorem pow_size_bytes (sz : Size) : 256 ^ sz.bytes = 2 ^ sz.bits := by cases sz <;> rfl

/-- An aligned read whose bytes are those of a value delivers it modulo their size (R104). -/
theorem memRead_of_readBytes {m : Mach sh} {k : AccessKind} {a n v : Nat} (ha : a % n = 0)
    (h : m.readBytes k a n = .ok (toBytes m.cfg.endian n v)) : m.memRead k a n = .ok (v % 256 ^ n) := by
  simp [Mach.memRead, checkAlign_even m a n ha, h, ofBytes_toBytes]

/-- A data access stores its bytes at different addresses, wrapping included (R100). -/
theorem storedAt_access_nodup (e : Endian) (sz : Size) (a v : Nat) :
    (storedAt (plainCells sh e ⟨a, sz.bytes, sz.bytes, v⟩)).Nodup := by
  rw [storedAt_plain]
  exact places_nodup sh _ (size_bytes_le sz)

/-- Settles O37: the bytes of the access lie at different addresses, so that each is read back as it was written. -/
theorem memoryReadAfterWrite : Obligations.MemoryReadAfterWrite := by
  intro sh m m' sz addr v hpag halign hmem
  refine ⟨?_, fun p hp => ?_⟩
  · have hread := readBytes_plain m' m.mem ⟨addr, sz.bytes, sz.bytes, v⟩ _ hpag
      (storedAt_access_nodup _ sz addr v) hmem (fun _ h => h) .read
    rw [← pow_size_bytes]
    exact memRead_of_readBytes halign hread
  · rw [hmem]
    exact get_setAll_other _ _ _ (by rwa [storedAt_plain])

/-! ### Loads and stores -/

/-- An instruction whose record is written out, generates no flag and lists no change of a starred CSR field ends in the state its
effects leave (R240 steps 6 to 9). -/
theorem exec_fixed_noFlags {m : Mach sh} {w : IWord} {r : Record} {eff : Effect sh} {i : Instr}
    (hi : i = .compressed w (.fixed r) ∨ i = .general w (.fixed r)) (hb : NoBreakpoints m) (hwf : r.wf = true)
    (ha : allowed m (recordReads r) (destsOf r) = true) (hs : r.special = .none) (he : m.evaluate w r = .ok eff)
    (hc : changesStarred m.cfg.csrLayout sh.csrBits m.core.csr (m.listedWrites r) = false) (hg : eff.gens = {}) :
    exec i ⟨sh, m⟩ = .next ⟨sh, { m.committed eff with draws := m.draws + 1 }⟩ := by
  rw [exec_fixed hi hb hwf ha hs he hc, complete_off hb (by rw [hg]; exact autoExceptions_none m)]
  rfl

/-- An instruction whose record is written out, allowed, and cannot be worked out stops with that and has no effect (R209). -/
theorem exec_fixed_error {m : Mach sh} {w : IWord} {r : Record} {e : Stop} {i : Instr}
    (hi : i = .compressed w (.fixed r) ∨ i = .general w (.fixed r)) (hb : NoBreakpoints m) (hwf : r.wf = true)
    (ha : allowed m (recordReads r) (destsOf r) = true) (hs : r.special = .none) (he : m.evaluate w r = .error e)
    (hc : changesStarred m.cfg.csrLayout sh.csrBits m.core.csr (m.listedWrites r) = false) :
    exec i ⟨sh, m⟩ = outcome (.error e : Res (Mach sh)) := by
  obtain ⟨hw, hr, hleg⟩ := recordOf_body (m := m) hi rfl
  subst hw hr
  have hv : m.violates (recordOf i m) = false := violates_allowed ha (by rw [hs]; exact fun h => nomatch h) fun _ => hc
  rw [exec_off hb (by rw [answered, hleg, hwf]; rfl), refusalOf_allowed ha]
  simp [hv, he]

/-- A record with one store. -/
def storeRecord (a : Operand) (sz : Size) (v : Operand) : Record := { dwrites := [⟨a, sz, v⟩] }

/-- A record with one load into `x[d]`. -/
def loadRecord (a : Operand) (sz : Size) (d : Fin 32) : Record := { dreads := [⟨a, sz⟩], writes := [(.x d, .loaded 0)] }

/-- A store names the sources of its address and of its value. -/
theorem recordReads_store (a : Operand) (sz : Size) (v : Operand) :
    recordReads (storeRecord a sz v) = operandReads a ++ operandReads v := by
  simp [storeRecord, recordReads, specialReads]

/-- A load names the sources of its address. -/
theorem recordReads_load (a : Operand) (sz : Size) (d : Fin 32) : recordReads (loadRecord a sz d) = operandReads a := by
  simp [loadRecord, recordReads, specialReads, operandReads]

/-- A store whose operands use no loaded value is a record R9 allows. -/
theorem storeRecord_wf {a v : Operand} (sz : Size) (ha : a.wf 0 = true) (hv : v.wf 0 = true) : (storeRecord a sz v).wf = true := by
  simp [storeRecord, Record.wf, Record.loads, dreadsWf, Special.wf, ha, hv]

/-- A load whose address uses no loaded value is a record R9 allows. -/
theorem loadRecord_wf {a : Operand} (sz : Size) (d : Fin 32) (ha : a.wf 0 = true) : (loadRecord a sz d).wf = true := by
  have hval : (Operand.loaded 0).wf 1 = true := rfl
  simp [loadRecord, Record.wf, Record.loads, dreadsWf, Special.wf, ha, hval]

/-- A record with no special operation whose reads and stores are made is worked out (R9). -/
theorem evaluate_data {m : Mach sh} (w : IWord) {r : Record} {loaded : List Nat} {accs : List Access} {cells : List Host.Cell}
    (hs : r.special = .none) (hl : m.loadAll r.dreads [] = .ok (loaded, accs))
    (hc : m.cellsOf (maySplit r) (m.storeChunks loaded 0 r.dwrites) = .ok cells) :
    m.evaluate w r = .ok {
      writes := m.writeVals loaded 0 r.writes
      vwrites := m.vwriteVals loaded 0 r.vwrites
      accs := accs ++ (m.storeChunks loaded 0 r.dwrites).flatMap (chunkAccesses sh)
      cells := cells
      sflags := r.sflags.map (m.flagGen useFlags loaded)
      vflags := r.vflags.map fun f => (f.laneBytes, m.laneGens useLaneFlags loaded f.src)
      gens := m.generated (r.sflags.map (m.flagGen useFlags loaded))
        (r.vflags.map fun f => (f.laneBytes, m.laneGens useLaneFlags loaded f.src))
      next := m.nextPc w loaded r .none
      plan := .none } := by
  simp [Mach.evaluate, genericEffects_of_none hs, hl, hs, Mach.planSpecial, hc]

/-- A record whose data reads fault is not worked out (R9, R209). -/
theorem evaluate_of_loadAll_error {m : Mach sh} (w : IWord) {r : Record} {e : Stop} (hs : r.special = .none)
    (hl : m.loadAll r.dreads [] = .error e) : m.evaluate w r = .error e := by
  simp [Mach.evaluate, genericEffects_of_none hs, hl]

/-- A data read that stops stops the reads of a record. -/
theorem loadAll_of_memRead_error {m : Mach sh} {d : DRead} {ds : List DRead} {loaded : List Nat} {e : Stop}
    (h : m.memRead .read (m.address (useRead loaded.length) loaded d.addr) d.size.bytes = .error e) :
    m.loadAll (d :: ds) loaded = .error e := by
  simp [Mach.loadAll, h]

/-- One data read that is made delivers what memory holds. -/
theorem loadAll_one {m : Mach sh} {d : DRead} {v : Nat}
    (h : m.memRead .read (m.address (useRead 0) [] d.addr) d.size.bytes = .ok v) :
    m.loadAll [d] [] = .ok ([v], [⟨m.address (useRead 0) [] d.addr, d.size.bits, false⟩]) := by
  simp [Mach.loadAll, h]

/-- What an aligned store comes to with paging off: its bytes in memory, and PC goes on (R104). -/
theorem evaluate_store {m : Mach sh} (w : IWord) {a : Operand} {sz : Size} (v : Operand) (hp : m.core.csr.pag = false)
    (ha : m.address (useStoreAddr 0) [] a % sz.bytes = 0) :
    ∃ eff, m.evaluate w (storeRecord a sz v) = .ok eff ∧ eff.gens = {} ∧
      m.committed eff = settled m m.core (Memory.setAll m.mem (plainCells sh m.cfg.endian
        ⟨m.address (useStoreAddr 0) [] a, sz.bytes, sz.bytes, m.operand (useStoreVal 0) [] v⟩)) (afterPc m w) :=
  ⟨_, evaluate_data w rfl rfl (cellsOf_one m _ _ hp ha (size_bytes_le sz)), generated_none m, rfl⟩

/-- What a load comes to whose read is made: `x[d]` holds what memory did, and PC goes on (R104). -/
theorem evaluate_load {m : Mach sh} (w : IWord) {a : Operand} {sz : Size} (d : Fin 32) {v : Nat}
    (h : m.memRead .read (m.address (useRead 0) [] a) sz.bytes = .ok v) :
    ∃ eff, m.evaluate w (loadRecord a sz d) = .ok eff ∧ eff.gens = {} ∧
      m.committed eff = settled m (m.core.regWrite m.cfg (.x d) v) m.mem (afterPc m w) :=
  ⟨_, evaluate_data w rfl (loadAll_one h) (cellsOf_nil m _), generated_none m, rfl⟩

/-- Settles O28: the store's one chunk is its whole effect. -/
theorem storeCompletes : Obligations.StoreCompletes := by
  intro sh m w a v sz i hb hpag ha hv hallowed hi addr halign
  have hall : allowed m (recordReads (storeRecord a sz v)) [] = true := by rw [recordReads_store]; exact hallowed
  obtain ⟨eff, he, hg, hcom⟩ := evaluate_store w v hpag halign
  rw [exec_fixed_noFlags hi hb (storeRecord_wf sz ha hv) hall rfl he rfl hg, hcom]
  rfl

/-- Settles O29: the load's one read is all that can fault, and the write of what it delivers is its whole effect. -/
theorem loadCompletesOrFaults : Obligations.LoadCompletesOrFaults := by
  intro sh m w a d sz i hb ha hallowed hi addr
  have hall : allowed m (recordReads (loadRecord a sz d)) [.x d] = true := by
    rw [recordReads_load]; exact allowed_x d hallowed
  refine ⟨fun v hv => ?_, fun f hf => ?_⟩
  · obtain ⟨eff, he, hg, hcom⟩ := evaluate_load w d hv
    rw [exec_fixed_noFlags hi hb (loadRecord_wf sz d ha) hall rfl he rfl hg, hcom]
    rfl
  · have he : m.evaluate w (loadRecord a sz d) = .error (.fault f) :=
      evaluate_of_loadAll_error w rfl (loadAll_of_memRead_error hf)
    exact exec_fixed_error hi hb (loadRecord_wf sz d ha) hall rfl he rfl

end Sys2Proof.Machine
end

section
/-! SUPPORT. Proofs of the family 30_encoding: decoding what an instruction set encodes, and what bytes it does not know come to. -/

namespace Sys2Proof.Machine

open Sys2Proof

variable {sh : Shape}

/-! ### Decoding -/

/-- Among words told apart, bytes decode to the one they begin with (R140). -/
theorem decode_of_prefix {o : WordOrder} {isa : List Instr} {i : Instr} {bytes : List Byte} (hwf : isaWf o isa = true)
    (hi : i ∈ isa) (hb : encode o i <+: bytes) : decode o isa bytes = .ok i := by
  obtain ⟨-, hap⟩ := Bool.and_eq_true_iff.1 hwf
  rw [decode, find_of_prefix hap hi hb]

/-- Settles O1: the bytes of a word begin themselves followed by anything, and no other word of the set does. -/
theorem decodeEncodeAgree : Obligations.DecodeEncodeAgree := fun _ _ _ rest hwf hi =>
  decode_of_prefix hwf hi (List.prefix_append _ rest)

/-- The words of the sample set are told apart, so that bytes decode to the one they begin with. -/
theorem decode_sample {i : Instr} {bytes : List Byte} (hi : i ∈ sampleIsa) (hb : encode .little i <+: bytes) :
    decode .little sampleIsa bytes = .ok i :=
  decode_of_prefix (by decide) hi hb

/-- Settles O2: each of the first five begins with a word of the set, and the last neither begins nor is begun by one. -/
theorem sampleWordsDecode : Obligations.SampleWordsDecode := by
  refine ⟨?eventReturn, ?srRead, ?ret, ?move, ?load, ?unknown⟩
  case unknown => decide
  all_goals exact decode_sample (by decide) (by decide)

/-! ### Illegal bytes -/

/-- At an aligned pc, bytes that the instruction set does not know fault in the fetch (R136). -/
theorem fetch_of_decoded_illegal {m : Mach sh} (ha : m.checkAlign m.core.pc.toNat 2 = .ok ())
    (hd : m.decoded (m.fetchable 8 m.core.pc.toNat) = .error .illegal) : m.fetch = .error (.fault .illegalInstruction) := by
  simp only [Mach.fetch, ha, hd]

/-- A step that comes to its instruction faults where the fetch does (R240 step 3). -/
theorem step_of_fetch_fault {m : Mach sh} {f : Fault} (hat : atInstruction m) (hf : m.ready.fetch = .error (.fault f)) :
    step ⟨sh, m⟩ = .fault f := by
  have hu : m.untilInstr = .error (.fault f) := by rw [before_run hat, hf]
  simp only [step, hu]

/-- An instruction for which the `ISA` parameter answers `illegal` faults (R136). -/
theorem exec_of_not_legal {i : Instr} {m : Mach sh} (h : legal i m = false) : exec i ⟨sh, m⟩ = .fault .illegalInstruction := by
  rw [exec_eq, h]
  rfl

/-- Settles O5: bytes not known stop the step at its fetch, and a body with no record stops the instruction. -/
theorem illegalInstructionFaults : Obligations.IllegalInstructionFaults :=
  ⟨fun _ _ hat ha hd => step_of_fetch_fault hat (fetch_of_decoded_illegal ha hd), fun _ _ _ h => exec_of_not_legal h⟩

end Sys2Proof.Machine
end

section
/-! SUPPORT. Proofs of the family 40_calling_convention: what CALL and RETURN come to, and what the convention asks across them. -/

namespace Sys2Proof.Machine

open Sys2Proof

variable {sh : Shape}

/-! ### What CALL and RETURN come to -/

/-- A call names the sources of its target (R161). -/
theorem recordReads_call (pc : BitVec sh.W) (w : IWord) (target : Operand) :
    recordReads (callRecord pc w target) = operandReads target := by
  simp [recordReads, specialReads, operandReads]

/-- A call whose target uses no loaded value is an instruction R9 allows. -/
theorem answered_call (m : Mach sh) (w : IWord) {target : Operand} (h : target.wf 0 = true) :
    answered (.call w target) m = true := by
  have hlink : ∀ v, (Operand.const v).wf 0 = true := fun _ => rfl
  simp [answered, legal, recordOf, Record.wf, Record.loads, dreadsWf, Special.wf, hlink, h]

/-- CALL puts the address of the instruction after it into `x[31]` and goes to the target (R161). -/
theorem exec_call {m : Mach sh} (w : IWord) {target : Operand} (hb : NoBreakpoints m) (hwf : target.wf 0 = true)
    (ha : allowed m (operandReads target) [] = true) :
    exec (.call w target) ⟨sh, m⟩ = .next (advanced m
      ({ m.core with x := m.core.x.set 31 (afterPc m w), fu0 := m.core.fu0 ||| usageBit 31 }.markImplicit m.cfg [.fu0]) m.mem
      (BitVec.ofNat sh.W (m.operand useNext [] target))) := by
  have hall : allowed m (recordReads (callRecord m.core.pc w target)) [.x 31] = true := by
    rw [recordReads_call]; exact allowed_x 31 ha
  have hlink : BitVec.ofNat sh.W (afterPc m w).toNat = afterPc m w := by simp
  refine (exec_pure (.call w target) hb (answered_call m w hwf) rfl rfl rfl hall (fun _ => rfl)
    (by simpa [recordOf] using autoExceptions_none m)).trans ?_
  rw [← hlink]
  rfl

/-- RETURN goes to `x[31]` (R161). -/
theorem exec_ret {m : Mach sh} (w : IWord) (hb : NoBreakpoints m) :
    exec (.ret w) ⟨sh, m⟩ = .next (advanced m m.core m.mem m.core.x[31]) := by
  have hall : allowed m (recordReads retRecord) [] = true := by
    simp [recordReads, specialReads, operandReads, allowed, namesEmptySlot, writesPc, touchesStarred]
  have hlink : BitVec.ofNat sh.W m.core.x[31].toNat = m.core.x[31] := by simp
  refine (exec_pure (.ret w) hb rfl rfl rfl rfl hall (fun _ => rfl)
    (by simpa [recordOf] using autoExceptions_none m)).trans ?_
  rw [← hlink]
  rfl

/-- A call changes no register of FILE 0 but the link register, which holds the address after it, and no breakpoint mode. -/
theorem call_next {m s : Mach sh} {w : IWord} {target : Operand} (hb : NoBreakpoints m) (hwf : target.wf 0 = true)
    (ha : allowed m (operandReads target) [] = true) (h : exec (.call w target) ⟨sh, m⟩ = .next ⟨sh, s⟩) :
    (∀ j (_ : j < 31), s.core.x[j] = m.core.x[j]) ∧ s.core.x[31] = afterPc m w ∧ NoBreakpoints s := by
  rw [exec_call w hb hwf ha] at h
  cases h
  exact ⟨fun j hj => Vector.getElem_set_ne (by decide) (by omega) (by omega), Vector.getElem_set_self (by decide), hb⟩

/-- A return changes no register of FILE 0 and goes on at the link register's address. -/
theorem ret_next {s t : Mach sh} {w : IWord} (hb : NoBreakpoints s) (h : exec (.ret w) ⟨sh, s⟩ = .next ⟨sh, t⟩) :
    t.core.x = s.core.x ∧ t.core.pc = s.core.x[31] := by
  rw [exec_ret w hb] at h
  cases h
  exact ⟨rfl, rfl⟩

/-! ### The convention -/

/-- A callee that only goes to its return address owes nothing else: it has kept every register (R164). -/
theorem calleeOwes_of_same_x {s t : Core sh} (hx : t.x = s.x) (hpc : t.pc = s.x[31]) : CalleeOwes s t := by
  simp [CalleeOwes, hx, hpc]

/-- The global base is kept in a run all of whose states have the GP of one that holds it (R157). -/
theorem keepsGlobalBase_of_gp_eq {base : Option (BitVec sh.W)} {c : Core sh} {run : List (Core sh)} (h : HoldsGlobalBase base c)
    (hgp : ∀ d ∈ run, d.x[28] = c.x[28]) : KeepsGlobalBase base run :=
  fun d hd g hg => (hgp d hd).trans (h g hg)

/-- The functions covered: not variadic, at most four parameters and two results, and every one a word (R153). -/
theorem covered_iff (f : Signature) : f.covered = true ↔
    f.variadic = false ∧ f.params.length ≤ 4 ∧ f.results.length ≤ 2 ∧ ∀ ty ∈ f.params ++ f.results, ty = .word := by
  simp only [Signature.covered, Bool.and_eq_true, Bool.not_eq_true', decide_eq_true_eq, List.all_eq_true, beq_iff_eq, and_assoc]

/-- A call that follows the convention is of a covered function, and GP holds the global base at its two ends (R153, R157). -/
theorem FollowsAbi.limits {f : Signature} {base : Option (BitVec sh.W)} {ps rs : List (BitVec sh.W)} {s t : Core sh}
    (h : FollowsAbi f base ps rs s t) :
    ps.length ≤ 4 ∧ rs.length ≤ 2 ∧ f.variadic = false ∧ (∀ ty ∈ f.params ++ f.results, ty = .word) ∧
    ∀ g, base = some g → s.x[28] = g ∧ t.x[28] = g := by
  obtain ⟨hcov, hps, hrs, -, hgp, -, -⟩ := h
  obtain ⟨hvar, hparams, hresults, hword⟩ := (covered_iff f).1 hcov
  exact ⟨hps ▸ hparams, hrs ▸ hresults, hvar, hword,
    fun g hg => ⟨hgp s (by simp) g hg, hgp t (by simp) g hg⟩⟩

/-- Settles O25: a call changes only the link register of FILE 0 and a return none, so that what the convention asks of the
registers at the call holds at both its ends. -/
theorem callAndReturn : Obligations.CallAndReturn := by
  refine ⟨fun sh m w target hb => ⟨exec_call w hb, exec_ret w hb, fun s t w' hwf ha hcall hret => ?_⟩,
    fun _ _ _ _ _ _ _ h => h.limits⟩
  obtain ⟨hs, hlink, hsb⟩ := call_next hb hwf ha hcall
  obtain ⟨htx, hpc⟩ := ret_next hsb hret
  have howes : CalleeOwes s.core t.core := calleeOwes_of_same_x htx hpc
  have ht : ∀ j (_ : j < 31), t.core.x[j] = m.core.x[j] := by simpa only [htx] using hs
  refine ⟨howes, hpc.trans hlink, fun f base ps rs hbase => ?_⟩
  have hkeep : KeepsGlobalBase base [m.core, s.core, t.core] :=
    keepsGlobalBase_of_gp_eq hbase (by simp [hs 28 (by decide), ht 28 (by decide)])
  refine ⟨hkeep, fun hcov hps hrs hparams hresults => ⟨hcov, hps, hrs, ?params, ?base, howes, ?results⟩⟩
  case params => exact fun k p hp => (hs k.val (by omega)).trans (hparams k p hp)
  case base => exact fun c hc => hkeep c (List.mem_cons_of_mem _ hc)
  case results => exact fun k r hr => (ht (4 + k.val) (by omega)).trans (hresults k r hr)

end Sys2Proof.Machine
end

section
/-! SUPPORT. Proofs of the family 41_vector_operations: the events of one instruction, the flags its lanes generate, and what a vector
instruction comes to. -/

namespace Sys2Proof.Machine

open Sys2Proof

variable {sh : Shape}

/-! ### The events of one instruction -/

/-- No breakpoint exception is due exactly where no register matches (R214). -/
theorem brkEvents_eq_nil {hits : List (Fin 6 × BrkMode)} : brkEvents hits = [] ↔ hits = [] := by
  simp [brkEvents]

/-- Nothing is due before the effects exactly where no register matches then and there is no privilege violation (R240 steps 2, 4
and 5). -/
theorem beforeEvents_eq_nil {m : Mach sh} {w : IWord} {r : Record} :
    m.beforeEvents w r = [] ↔ m.beforeHits w (m.evaluate w r) = [] ∧ m.violates r = false := by
  simp [Mach.beforeEvents, brkEvents_eq_nil]

/-- Settles O50: a record has a next state by an event before its effects, or by its effects and at most one event after them. -/
theorem oneEventPerInstruction : Obligations.OneEventPerInstruction := by
  intro sh m m' i h
  obtain ⟨-, hperform⟩ := exec_next.1 h
  refine (perform_cases hperform).imp_right fun ⟨eff, he, _, hbefore, hcomplete⟩ => ?_
  obtain ⟨hhits, hviolates⟩ := beforeEvents_eq_nil.1 hbefore
  refine ⟨eff, he, hviolates, he ▸ hhits, (complete_ok hcomplete).imp_right fun ⟨e, es, hdue, henter⟩ => ?_⟩
  exact ⟨m.pick e es, hdue ▸ pick_mem m e es, henter⟩

/-! ### The flags of the lanes -/

/-- Settles O23: the lane is the only one that writes its group, and it is allowed. -/
theorem vectorFlagsPerLane : Obligations.VectorFlagsPerLane := by
  intro sh m lb gens j k f hlb hk hrules hallowed
  have hwriter : laneWriters m.cfg.laneFlag lb sh.nl8 k.val = [j] := by
    rcases hrules with rfl | ⟨-, hflag⟩
    · rw [laneWriters_one, hk, Nat.mul_one]
    · rw [hflag, hk, laneWriters_lowest lb _ j hlb]
  have hmask : laneMasked m.cfg.laneMask m.core.vmsk lb j = false := by
    rcases hrules with rfl | ⟨hrule, -⟩
    · rwa [laneMasked_one, ← Nat.mul_one j]
    · rwa [hrule]
  have hgroup : (m.newVflg lb gens m.core.vflg)[k] = mergeFlags (laneGen gens j) m.core.vflg[k] := by
    simp [Mach.newVflg, newGroup_own m lb gens j k.val _ hwriter, hmask]
  rw [hgroup, flagOf_merge]

/-- Of no flags none is set. -/
theorem flagOf_empty (f : Flag) : flagOf {} f = false := by cases f <;> rfl

/-- A flag counts toward an event exactly where some lane's count has it (R224). -/
theorem flagOf_lanesCounted (m : Mach sh) (lb : Nat) (gens : List FlagGen) (f : Flag) :
    flagOf (m.lanesCounted lb gens) f = true ↔
      ∃ k < sh.nl8, k % lb = 0 ∧ flagOf (m.laneCounted lb gens (laneOf lb k)) f = true := by
  simp [Mach.lanesCounted, flagOf_fold, flagOf_empty]

/-- A flag that an allowed lane generates as 1 counts (R175, R224). -/
theorem lanesCounted_of_allowed {m : Mach sh} {lb j : Nat} {gens : List FlagGen} {f : Flag} (hlb : 1 ≤ lb) (hj : j * lb < sh.nl8)
    (hmask : laneMasked m.cfg.laneMask m.core.vmsk lb j = false) (hf : flagOf (generatedFlags (laneGen gens j)) f = true) :
    flagOf (m.lanesCounted lb gens) f = true := by
  refine (flagOf_lanesCounted m lb gens f).2 ⟨j * lb, hj, Nat.mul_mod_left j lb, ?_⟩
  simp [Mach.laneCounted, flagOf_flagsBy, laneOf, Nat.mul_div_cancel j hlb, hmask, hf]

/-- A flag that counts is generated as 1 by some lane (R224). -/
theorem generated_of_lanesCounted {m : Mach sh} {lb : Nat} {gens : List FlagGen} {f : Flag}
    (h : flagOf (m.lanesCounted lb gens) f = true) : ∃ j, flagOf (generatedFlags (laneGen gens j)) f = true := by
  obtain ⟨k, -, -, hk⟩ := (flagOf_lanesCounted m lb gens f).1 h
  rw [Mach.laneCounted, flagOf_flagsBy, Bool.and_eq_true] at hk
  exact ⟨laneOf lb k, hk.1⟩

/-- The flags a vector instruction generates as 1 are those of its lanes (R174, R224). -/
theorem flagOf_generated_lanes (m : Mach sh) (lb : Nat) (gens : List FlagGen) (f : Flag) :
    flagOf (m.generated none (some (lb, gens))) f = flagOf (m.lanesCounted lb gens) f := by
  simp [Mach.generated, flagOf_union, flagOf_empty]

/-! ### What a vector instruction comes to -/

/-- The result of a vector instruction under the mask (R171, R172). -/
def Mach.vectorResult (m : Mach sh) (d : Fin 32) (lb : Nat) (res : VSrc) : BitVec sh.vbits :=
  maskedWrite m.cfg.laneMask m.core.vmsk lb m.core.v[d] (m.vsource (useVector 0) [] res)

/-- VFLG after a vector instruction (R174). -/
def Mach.vectorFlags (m : Mach sh) (lb : Nat) (flags : Option LaneFlagSrc) : Vector Flags sh.nl8 :=
  match flags with
  | none => m.core.vflg
  | some f => m.newVflg lb (m.laneGens useLaneFlags [] f) m.core.vflg

/-- The registers after a vector instruction, PC apart: its destination, VFLG and FU1 are written (R170, R174, R179). -/
def Mach.vectorDone (m : Mach sh) (d : Fin 32) (lb : Nat) (res : VSrc) (flags : Option LaneFlagSrc) : Core sh :=
  { m.core with
    v := m.core.v.set d (m.vectorResult d lb res)
    vflg := m.vectorFlags lb flags
    fu1 := m.core.fu1 ||| usageBit d.val }.markImplicit m.cfg (if flags = none then [.fu1] else [.fu1, .vflg])

/-- A lane of the result keeps its old value where it is masked and takes the computed one where it is not (R171 to R173). -/
theorem lane8_vectorResult (m : Mach sh) (d : Fin 32) (lb : Nat) (res : VSrc) {k : Nat} (hk : k < sh.nl8) :
    lane8 (m.vectorResult d lb res).toNat k =
      if laneMasked m.cfg.laneMask m.core.vmsk lb (laneOf lb k) then lane8 m.core.v[d].toNat k
      else lane8 (m.vsource (useVector 0) [] res).toNat k :=
  lane8_masked _ _ lb _ _ k hk

/-- Of 8-bit lanes, lane `k` has bit `k` of VMSK (R171). -/
theorem lane8_vectorResult_one (m : Mach sh) (d : Fin 32) (res : VSrc) {k : Nat} (hk : k < sh.nl8) :
    lane8 (m.vectorResult d 1 res).toNat k =
      if m.core.vmsk.getLsbD k then lane8 m.core.v[d].toNat k else lane8 (m.vsource (useVector 0) [] res).toNat k := by
  rw [lane8_vectorResult m d 1 res hk, laneOf_one, laneMasked_one]

/-- Its destination then holds the result (R171). -/
theorem settled_vectorDone_dest (m : Mach sh) (d : Fin 32) (lb : Nat) (res : VSrc) (flags : Option LaneFlagSrc) (mem : Memory)
    (next : BitVec sh.W) : (settled m (m.vectorDone d lb res flags) mem next).core.v[d] = m.vectorResult d lb res :=
  Vector.getElem_set_self d.isLt

/-- What a vector instruction is worked out to: the flags its lanes generate, and the registers it leaves (R170, R174, R179). -/
theorem evaluate_vectorOp (m : Mach sh) (w : IWord) (d : Fin 32) (lb : Nat) (srcs : List (Fin 32)) (res : VSrc)
    (flags : Option LaneFlagSrc) :
    ∃ eff, m.evaluate w (vectorOpRecord d lb srcs res flags) = .ok eff ∧
      eff.gens = m.generated none (flags.map fun f => (lb, m.laneGens useLaneFlags [] f)) ∧ eff.next = afterPc m w ∧
      m.committed eff = settled m (m.vectorDone d lb res flags) m.mem (afterPc m w) := by
  cases flags with
  | none => exact ⟨_, evaluate_pure m w _ rfl rfl rfl, rfl, rfl, rfl⟩
  | some f =>
    refine ⟨_, evaluate_pure m w _ rfl rfl rfl, rfl, rfl, ?_⟩
    have hmarks : m.vectorDone d lb res (some f) =
        (({ m.vectorDone d lb res none with vflg := m.vectorFlags lb (some f) } : Core sh)).markImplicit m.cfg [.vflg] :=
      (markImplicit_append _ m.cfg [.fu1] [.vflg]).symm
    rw [hmarks]
    rfl

/-- Sources named in two places are allowed where both are (R232). -/
theorem allowed_append {m : Mach sh} {rs ts : List Reg} (hr : allowed m rs [] = true) (ht : allowed m ts [] = true) :
    allowed m (rs ++ ts) [] = true := by
  cases hsup : m.core.csr.sup <;> simp_all [allowed, namesEmptySlot, writesPc, touchesStarred]

/-- No source at all is allowed. -/
theorem allowed_nil (m : Mach sh) : allowed m [] [] = true := by
  simp [allowed, namesEmptySlot, writesPc, touchesStarred]

/-- A vector instruction may use the registers it names where its result and its flags may use theirs (R232). -/
theorem allowed_vectorOp {m : Mach sh} (d : Fin 32) (lb : Nat) (srcs : List (Fin 32)) {res : VSrc} {flags : Option LaneFlagSrc}
    (hres : allowed m (vsrcReads res) [] = true) (hflags : ∀ f, flags = some f → allowed m (laneFlagSrcReads f) [] = true) :
    allowed m (recordReads (vectorOpRecord d lb srcs res flags)) [] = true := by
  have hvec : allowed m ((srcs.map fun i => ⟨.f1, i⟩) ++ vsrcReads res) [] = true := vreads_ok m srcs _ hres
  cases flags with
  | none => simpa [recordReads, specialReads] using hvec
  | some f => simpa [recordReads, specialReads] using allowed_append hvec (hflags f rfl)

/-- A vector instruction whose registers are allowed does its work, and then enters what is due after it (R240 steps 6 to 8). -/
theorem exec_vectorOp {m : Mach sh} (w : IWord) (d : Fin 32) {lb : Nat} (srcs : List (Fin 32)) {res : VSrc}
    {flags : Option LaneFlagSrc} (hb : NoBreakpoints m) (hlb : 1 ≤ lb) (hres : allowed m (vsrcReads res) [] = true)
    (hflags : ∀ f, flags = some f → allowed m (laneFlagSrcReads f) [] = true) :
    ∃ eff, exec (.vectorOp w d lb srcs res flags) ⟨sh, m⟩ = outcome (m.complete w eff) ∧
      eff.gens = m.generated none (flags.map fun f => (lb, m.laneGens useLaneFlags [] f)) ∧ eff.next = afterPc m w ∧
      m.committed eff = settled m (m.vectorDone d lb res flags) m.mem (afterPc m w) := by
  obtain ⟨eff, he, heff⟩ := evaluate_vectorOp m w d lb srcs res flags
  have hanswered : answered (.vectorOp w d lb srcs res flags) m = true := by
    cases flags <;> simp [answered, legal, recordOf, Record.wf, dreadsWf, Special.wf, hlb]
  exact ⟨eff, exec_complete hb hanswered (allowed_vectorOp d lb srcs hres hflags) (fun h => nomatch h) he
    (fun _ => by rw [listedWrites_nil rfl]; rfl), heff⟩

/-- A vector instruction that generates no flags, or does so with auto exceptions off, ends in the state its work leaves (R227). -/
theorem exec_vectorOp_next {m : Mach sh} (w : IWord) (d : Fin 32) {lb : Nat} (srcs : List (Fin 32)) {res : VSrc}
    {flags : Option LaneFlagSrc} (hb : NoBreakpoints m) (hlb : 1 ≤ lb) (hquiet : flags = none ∨ m.core.csr.exc = false)
    (hres : allowed m (vsrcReads res) [] = true) (hflags : ∀ f, flags = some f → allowed m (laneFlagSrcReads f) [] = true) :
    exec (.vectorOp w d lb srcs res flags) ⟨sh, m⟩ =
      .next (advanced m (m.vectorDone d lb res flags) m.mem (afterPc m w)) := by
  obtain ⟨eff, hexec, hgens, -, hcom⟩ := exec_vectorOp w d srcs hb hlb hres hflags
  have hx : m.autoExceptions eff.gens = [] := by
    rcases hquiet with rfl | hexc
    · rw [hgens]; exact (congrArg _ (generated_none m)).trans (autoExceptions_none m)
    · exact autoExceptions_off m _ hexc
  rw [hexec, complete_off hb hx, hcom]
  rfl

/-- Settles O19: bit `k` of VMSK masks lane `k` of the result, and the rest of the state is the instruction's own. -/
theorem vectorMaskedWrite : Obligations.VectorMaskedWrite := by
  intro sh m w d srcs res flags hb hquiet hres hflags
  exact ⟨m.vectorResult d 1 res, fun k hk => lane8_vectorResult_one m d res hk,
    exec_vectorOp_next w d srcs hb (Nat.le_refl 1) hquiet hres hflags⟩

/-- Settles O20: under the reference rule a lane is masked by the bit of its lowest byte. -/
theorem vectorOpCompletes : Obligations.VectorOpCompletes := by
  intro sh m w d lb srcs res flags hb hexc hlb hres hflags val
  refine ⟨exec_vectorOp_next w d srcs hb hlb (.inr hexc) hres hflags, fun hrule k hk => ?_⟩
  refine (lane8_vectorResult m d lb res hk).trans ?_
  rw [hrule]
  rfl

/-- A vector instruction leaves its destination as it was, where it is turned away before its effects, or with its result, whatever
event is entered (R173, R209). -/
theorem vectorOp_dest {m m' : Mach sh} {w : IWord} {d : Fin 32} {lb : Nat} {srcs : List (Fin 32)} {res : VSrc}
    {flags : Option LaneFlagSrc} (h : exec (.vectorOp w d lb srcs res flags) ⟨sh, m⟩ = .next ⟨sh, m'⟩) :
    m'.core.v[d] = m.core.v[d] ∨ m'.core.v[d] = m.vectorResult d lb res := by
  obtain ⟨eff, he, -, -, hcom⟩ := evaluate_vectorOp m w d lb srcs res flags
  rcases perform_ok (exec_next.1 h).2 with ⟨e, cls, saved, a, -, rfl⟩ | ⟨eff', he', -, -, -, hdone⟩
  · exact .inl (by simp)
  · obtain rfl : eff = eff' := Except.ok.inj (he.symm.trans he')
    have hset : (m.committed eff).core.v[d] = m.vectorResult d lb res := by rw [hcom, settled_vectorDone_dest]
    rcases hdone with rfl | ⟨e, cls, saved, a, -, rfl⟩
    · exact .inr hset
    · exact .inr (by simpa using hset)

/-- Settles O21: neither the destination as it was nor the result changes a masked lane. -/
theorem maskedLaneKeepsValue : Obligations.MaskedLaneKeepsValue := by
  intro sh m m' w d lb srcs res flags k h hk hmask
  rcases vectorOp_dest h with hold | hres
  · rw [hold]
  · rw [hres, lane8_vectorResult m d lb res hk, if_pos hmask]

/-! ### Division by zero in several lanes -/

/-- The flags of lanes that generate DIV0, as 1 where their entry says so, and no other flag. -/
def div0Gens (lanes : List Bool) : List FlagGen := lanes.map fun b => ⟨{ div0 := true }, { div0 := b }⟩

/-- What such a lane generates, where it is listed. -/
theorem laneGen_div0 (lanes : List Bool) {j : Nat} (hj : j < lanes.length) :
    laneGen (div0Gens lanes) j = ⟨{ div0 := true }, { div0 := lanes.getD j false }⟩ := by
  simp [laneGen, div0Gens, hj]

/-- Such lanes generate no flag but DIV0 as 1, and that where their entry says so. -/
theorem generated_div0 (lanes : List Bool) (j : Nat) (f : Flag) :
    flagOf (generatedFlags (laneGen (div0Gens lanes) j)) f = true ↔ f = .div0 ∧ lanes.getD j false = true := by
  by_cases hj : j < lanes.length
  · rw [laneGen_div0 lanes hj, flagOf_gen]
    cases f <;> simp [flagOf]
  · have hnone : laneGen (div0Gens lanes) j = ⟨{}, {}⟩ := by simp [laneGen, div0Gens, hj]
    rw [hnone, flagOf_gen]
    simp [flagOf_empty, hj]

/-- Settles O24: DIV0 is the one flag that counts, so that one exception is due, after the effects. -/
theorem vectorDivisionTrapsOnce : Obligations.VectorDivisionTrapsOnce := by
  intro sh m w d srcs res lanes j hb hexc hauto hres hlane hj hmask
  obtain ⟨eff, hexec, hgens, hnext, hcom⟩ := exec_vectorOp (flags := some (.fixed (div0Gens lanes))) w d srcs hb
    (Nat.le_refl 1) hres (fun f hf => by cases hf; exact allowed_nil m)
  have hcounted : ∀ f, flagOf eff.gens f = flagOf (m.lanesCounted 1 (div0Gens lanes)) f :=
    fun f => hgens ▸ flagOf_generated_lanes m 1 (div0Gens lanes) f
  have hraised : flagOf eff.gens .div0 = true := by
    rw [hcounted]
    exact lanesCounted_of_allowed (Nat.le_refl 1) (by rwa [Nat.mul_one]) (by rwa [laneMasked_one])
      ((generated_div0 lanes j .div0).2 ⟨rfl, hlane⟩)
  have honly : ∀ f, flagOf eff.gens f = true → f = .div0 := by
    intro f hf
    obtain ⟨i, hi⟩ := generated_of_lanesCounted (hcounted f ▸ hf)
    exact ((generated_div0 lanes i f).1 hi).1
  obtain ⟨f, -, hf, hcomplete⟩ := complete_raises (w := w) hb
    (List.ne_nil_of_mem ((mem_auto m eff.gens _).2 ⟨hexc, .div0, rfl, hauto, hraised⟩))
  obtain rfl := honly f hf
  refine ⟨m.committed eff, ?entered, ?flags, ?lanes, ?pc, ?csr⟩
  case entered => exact hexec.trans (congrArg outcome (hnext ▸ hcomplete))
  case flags =>
    intro k hk hkm
    have hgroup := vectorFlagsPerLane sh m 1 (div0Gens lanes) k.val k .div0 (Nat.le_refl 1) (Nat.mul_one _).symm (.inl rfl)
      (by rwa [Nat.mul_one])
    rw [laneGen_div0 lanes hk] at hgroup
    rw [hcom]
    exact hgroup
  case lanes =>
    intro k hk
    rw [hcom, settled_vectorDone_dest, lane8_vectorResult_one m d res hk]
  case pc => rw [hcom]; rfl
  case csr => rw [hcom]; rfl

end Sys2Proof.Machine
end

section
/-! SUPPORT. Proofs of the family 42_system_operations: a return from an event, SET_VMSK, reads and writes of FILE 2, and the images
of State dump and State restore. -/

namespace Sys2Proof.Machine

open Sys2Proof

variable {sh : Shape}

/-! ### Special operations -/

/-- What an instruction that is a special operation alone comes to: its plan, its accesses and stores, and the pc after it (R180). -/
def specialEffect (plan : Plan) (accs : List Access) (cells : List Host.Cell) (next : BitVec sh.W) : Effect sh where
  writes := []
  vwrites := []
  accs := accs
  cells := cells
  sflags := none
  vflags := none
  gens := {}
  next := next
  plan := plan

/-- A special operation that is planned and whose stores are made is worked out. -/
theorem evaluate_special {m : Mach sh} (w : IWord) {s : Special} {plan : Plan} {chunks : List Chunk} {accs : List Access}
    {cells : List Host.Cell} (hs : s ≠ .none) (hp : m.planSpecial [] s = .ok (plan, chunks, accs))
    (hc : m.cellsOf true chunks = .ok cells) :
    m.evaluate w { special := s } = .ok (specialEffect plan (accs ++ chunks.flatMap (chunkAccesses sh)) cells
      (m.nextPc w [] { special := s } plan)) := by
  have hsplit : maySplit { special := s } = true := maySplit_special hs
  have hgen : genericEffects { special := s } = { special := s } := by simp [genericEffects]
  simp [Mach.evaluate, hgen, Mach.loadAll, hp, Mach.storeChunks, hsplit, hc, specialEffect, Mach.writeVals, Mach.vwriteVals]

/-- An instruction that is a special operation alone, with its registers allowed, its plan made and its stores too, ends in the state
its effects leave (R240 steps 6 to 9). -/
theorem exec_special {m : Mach sh} {i : Instr} {s : Special} {plan : Plan} {chunks : List Chunk} {accs : List Access}
    {cells : List Host.Cell} (hi : legal i m = true) (hr : recordOf i m = { special := s }) (hb : NoBreakpoints m) (hs : s ≠ .none)
    (hwf : s.wf 0 = true) (ha : allowed m (specialReads s) [] = true) (hsup : needsSupervisor s = true → m.core.csr.sup = true)
    (hp : m.planSpecial [] s = .ok (plan, chunks, accs)) (hc : m.cellsOf true chunks = .ok cells) :
    exec i ⟨sh, m⟩ = .next ⟨sh, { m.committed (specialEffect plan (accs ++ chunks.flatMap (chunkAccesses sh)) cells
      (m.nextPc i.word [] { special := s } plan)) with draws := m.draws + 1 }⟩ := by
  have hloads : ({ special := s } : Record).loads = 0 := by simp [Record.loads]
  have hanswered : answered i m = true := by simp [answered, hi, hr, Record.wf, hloads, dreadsWf, hwf]
  have hreads : recordReads { special := s } = specialReads s := by simp [recordReads]
  refine exec_completes hb hanswered ?_ ?_ ?_ ?_ (autoExceptions_none m) <;> rw [hr]
  · rw [hreads]; exact ha
  · exact hsup
  · exact evaluate_special i.word hs hp hc
  · exact fun _ => by rw [listedWrites_nil rfl]; rfl

/-- The pair a return uses, its saved pc and its saved CSR (R182). -/
theorem returnPair_eq (c : Core sh) :
    c.returnPair = (if c.csr.sup then c.seb0 else c.ueb0, if c.csr.sup then c.seb1 else c.ueb1) := by
  unfold Core.returnPair
  split <;> rfl

/-- The registers after a return from an event, with both the writes of the hardware's own in one list (R57, R181). -/
theorem returned_settled (c : Core sh) (cfg : Params) :
    { c.returned cfg with pc := c.returnPair.1 }.markImplicit cfg [.pcReturn] = { c with
      pc := if c.csr.sup then c.seb0 else c.ueb0
      csr := csrOfImage cfg.csrLayout ((if c.csr.sup then c.seb1 else c.ueb1).toNat % 2 ^ sh.csrBits) }.markImplicit cfg
        [.csrReturn, .pcReturn] := by
  rw [Core.returned, returnPair_eq]
  exact markImplicit_append { c with
    pc := if c.csr.sup then c.seb0 else c.ueb0
    csr := csrOfImage cfg.csrLayout ((if c.csr.sup then c.seb1 else c.ueb1).toNat % 2 ^ sh.csrBits) } cfg [.csrReturn] [.pcReturn]

/-- Settles O10: the return's registers are its whole effect. -/
theorem eventReturnRestores : Obligations.EventReturnRestores := by
  intro sh m w hb
  rw [← returned_settled]
  exact exec_special (i := .eventReturn w) rfl rfl hb (by simp) rfl (allowed_nil m) (fun h => nomatch h) rfl (cellsOf_nil m true)

/-- Settles O11: the plan holds the value, and the operation names no register but its operand's. -/
theorem setVmskWrites : Obligations.SetVmskWrites := by
  intro sh m w val hb hwf ha
  exact exec_special (i := .setVmsk w val) rfl rfl hb (by simp) hwf ha (fun h => nomatch h) rfl (cellsOf_nil m true)

/-! ### Reads and writes of FILE 2 -/

/-- A slot that exists, a starred one in supervisor mode, may be read (R186, R232). -/
theorem allowed_sr_source {m : Mach sh} {i : Fin 32} {dests : List Dest} (h17 : i ≠ 17) (hst : starred i = true → m.core.csr.sup = true)
    (ha : allowed m [] dests = true) : allowed m [⟨.f2, i⟩] dests = true := by
  cases hsup : m.core.csr.sup <;> simp_all [allowed, namesEmptySlot, touchesStarred]

/-- Settles O12: the record's one write takes what the slot reads as. -/
theorem srReadCompletes : Obligations.SrReadCompletes := by
  intro sh m w d i hb h17 hst
  have hall : allowed m (recordReads (srReadRecord d i)) [.x d] = true := by
    simpa [recordReads, specialReads, operandReads] using allowed_sr_source h17 hst (allowed_x d (allowed_nil m))
  have hpc : m.readSr (useWrite 0) 11 = m.core.pc.toNat := rfl
  refine ⟨exec_pure (.srRead w d i) hb rfl rfl rfl rfl hall (fun _ => rfl) (by simpa [recordOf] using autoExceptions_none m), ?_⟩
  rw [hpc, BitVec.ofNat_toNat, BitVec.setWidth_eq]

/-- A slot other than PC, a starred one in supervisor mode, may be a destination where the sources are allowed (R187, R189, R232). -/
theorem allowed_sr {m : Mach sh} {reads : List Reg} {i : Fin 32} {s : Slot} (hs : slotAt i = some s) (hpc : s ≠ .pc)
    (hst : starred i = true → m.core.csr.sup = true) (ha : allowed m reads [] = true) : allowed m reads [.sr i] = true := by
  have h17 : i ≠ 17 := by rintro rfl; cases hs
  have h11 : i ≠ 11 := by rintro rfl; cases hs; exact hpc rfl
  cases hsup : m.core.csr.sup <;> simp_all [allowed, namesEmptySlot, writesPc, touchesStarred]

/-- SR_WRITE of a slot that may be written ends with the register written and its usage bit set (R187). -/
theorem exec_srWrite {m : Mach sh} (w : IWord) {i : Fin 32} {s : Slot} {val : Operand} (hb : NoBreakpoints m) (hwf : val.wf 0 = true)
    (ha : allowed m (operandReads val) [] = true) (hs : slotAt i = some s) (hpc : s ≠ .pc)
    (hst : starred i = true → m.core.csr.sup = true) :
    exec (.srWrite w i val) ⟨sh, m⟩ = .next (advanced m
      ((writeSlot m.cfg.csrLayout m.core (m.operand (useWrite 0) [] val) s).markWritten m.cfg i) m.mem (afterPc m w)) := by
  have hans : answered (.srWrite w i val) m = true := by
    simp [answered, legal, recordOf, Record.wf, Record.loads, dreadsWf, Special.wf, hwf]
  have hreads : recordReads (srWriteRecord i val) = operandReads val := by simp [recordReads, specialReads]
  have hall : allowed m (recordReads (srWriteRecord i val)) [.sr i] = true := hreads ▸ allowed_sr hs hpc hst ha
  have hkeep : m.core.csr.sup = false → i ≠ 23 := by
    rintro hu rfl
    simp [hst rfl] at hu
  have hwrite : m.core.regWrites m.cfg [(.sr i, m.operand (useWrite 0) [] val)] =
      (writeSlot m.cfg.csrLayout m.core (m.operand (useWrite 0) [] val) s).markWritten m.cfg i := by
    simp [Core.regWrites, Core.regWrite, hs]
  refine (exec_pure (.srWrite w i val) hb hans rfl rfl rfl hall ?_ (by simpa [recordOf] using autoExceptions_none m)).trans ?_
  · intro hu
    simp [recordOf, Mach.writeVals, changesStarred, hkeep hu]
  · rw [← hwrite]
    rfl

/-- A slot as a read delivers it is its content with some unused bits. -/
theorem readSr_slot (m : Mach sh) (u : Nat) {i : Fin 32} {s : Slot} (hs : slotAt i = some s) :
    m.readSr u i = slotContent m.cfg.csrLayout m.core (m.draw (.unusedBits u i)) s := by
  simp [Mach.readSr, hs]

/-- FU2 and its open bits after a write of the hardware's own, where none is counted (R57, `FU_IMPLICIT`). -/
theorem implicit_none {cfg : Params} (hset : cfg.fuSet = []) (hfree : cfg.fuFree = []) (k : HwWrite) :
    implicitSet cfg [k] = 0#32 ∧ implicitOpen cfg [k] = 0#32 := by
  simp [implicitSet, implicitOpen, hwSets, hwOpens, bitsIf, hset, hfree]

/-- What a slot other than FU2 holds does not depend on the usage bits of FILE 2. -/
theorem slotContent_usage (l : CsrLayout) (c : Core sh) (u o : BitVec 32) (d : Nat) {s : Slot} (hf : s ≠ .fu2) :
    slotContent l { c with fu2 := u, fuOpen := o } d s = slotContent l c d s := by
  cases s with
  | fu2 => exact absurd rfl hf
  | _ => rfl

/-- What a slot other than PC and FU2 holds is settled before the instruction ends. -/
theorem slotContent_settled (l : CsrLayout) (m : Mach sh) (c : Core sh) (mem : Memory) (next : BitVec sh.W) (d : Nat) {s : Slot}
    (hpc : s ≠ .pc) (hf : s ≠ .fu2) : slotContent l (settled m c mem next).core d s = slotContent l c d s := by
  cases s with
  | pc => exact absurd rfl hpc
  | fu2 => exact absurd rfl hf
  | _ => rfl

/-- The registers after an explicit write of a slot and its usage bit (R57, R187). -/
def slotWritten (cfg : Params) (c : Core sh) (i : Fin 32) (v : Nat) (s : Slot) : Core sh :=
  (writeSlot cfg.csrLayout c v s).markWritten cfg i

/-- Once SR_WRITE is done a slot holds what was written, FU2 where no write of the hardware's own is counted (R38, R58). -/
theorem slotContent_written (m : Mach sh) {i : Fin 32} {s : Slot} (v d : Nat) (mem : Memory) (next : BitVec sh.W)
    (hs : slotAt i = some s) (hpc : s ≠ .pc) (hf : s ≠ .fu2 ∨ (m.cfg.fuSet = [] ∧ m.cfg.fuFree = [])) :
    slotContent m.cfg.csrLayout (settled m (slotWritten m.cfg m.core i v s) mem next).core d s = storedContent sh m.cfg v d s := by
  rw [← slotReadsWhatWasWritten sh m.cfg m.core s v d hpc]
  by_cases h2 : s = .fu2
  · obtain ⟨hset, hfree⟩ := hf.resolve_left (absurd h2)
    subst h2
    obtain rfl : 21 = i := slotNum_of hs
    simp [slotContent, settled, slotWritten, Core.markWritten, implicit_none hset hfree]
  · obtain ⟨u, o, hm⟩ := markWritten_form (writeSlot m.cfg.csrLayout m.core v s) m.cfg i
    rw [slotContent_settled _ _ _ _ _ _ hpc h2, slotWritten, hm, slotContent_usage _ _ _ _ _ h2]

/-- The numbers of FU0, FU1 and FU2 (R37). -/
theorem slotAt_not_usage {i : Fin 32} {s : Slot} (hs : slotAt i = some s) (h0 : s ≠ .fu0) (h1 : s ≠ .fu1) (h2 : s ≠ .fu2) :
    ¬(19 ≤ i.val ∧ i.val ≤ 21) := by
  rintro ⟨hl, hh⟩
  obtain rfl | rfl | rfl : i = 19 ∨ i = 20 ∨ i = 21 := by omega
  · exact h0 (Option.some.inj hs).symm
  · exact h1 (Option.some.inj hs).symm
  · exact h2 (Option.some.inj hs).symm

/-- An explicit write of another slot than FU0, FU1, FU2 sets its usage bit (R57). -/
theorem slotWritten_usage (cfg : Params) (c : Core sh) {i : Fin 32} (v : Nat) (s : Slot) (h : ¬(19 ≤ i.val ∧ i.val ≤ 21)) :
    (slotWritten cfg c i v s).fu2.getLsbD i.val = true := by
  rw [slotWritten, markWritten_bit _ _ _ h]
  simp [usageBit]

/-- An explicit write of FU2 sets every bit that is written as 1 (R58). -/
theorem slotWritten_fu2 (cfg : Params) (c : Core sh) {v j : Nat} (hj : j < 32) (hv : v.testBit j = true) :
    (slotWritten cfg c 21 v .fu2).fu2.getLsbD j = true := by
  have hbit : (BitVec.ofNat 32 v).getLsbD j = true := by simp [BitVec.getLsbD_ofNat, hj, hv]
  exact usage_bit (usage_or _ _) hbit

/-- Settles O13: once written, a slot changes no more before the next step but for bits of FU2 that are set. -/
theorem srWriteCompletes : Obligations.SrWriteCompletes := by
  intro sh m w i s val hb hwf ha hs hpc hst v
  have hexec := exec_srWrite w hb hwf ha hs hpc hst
  refine ⟨hexec, fun t ht => ?_⟩
  rw [hexec] at ht
  cases ht
  refine ⟨fun h0 h1 h2 => ?usage, fun u => ⟨fun hf => ?content, ?fu2⟩⟩
  case usage => exact usage_bit (usage_or _ _) (slotWritten_usage m.cfg m.core v s (slotAt_not_usage hs h0 h1 h2))
  case content =>
    rw [readSr_slot _ u hs]
    exact ⟨_, slotContent_written m v _ m.mem _ hs hpc hf⟩
  case fu2 =>
    rintro rfl j hj hv
    obtain rfl : 21 = i := slotNum_of hs
    rw [readSr_slot _ u hs, testBit_slot_fu2 _ _ _ j hj, Bool.or_eq_true]
    exact .inl (usage_bit (usage_or _ _) (slotWritten_fu2 m.cfg m.core hj hv))

/-- Settles O15: the write is SR_WRITE's, and a halted core with nothing presented waits. -/
theorem haltByWrite : Obligations.HaltByWrite := by
  intro sh m w val hb hsup henv hwf ha hhlt
  have hexec := exec_srWrite w (i := 23) (s := .csr) hb hwf ha rfl (by simp) fun _ => hsup
  exact ⟨_, hexec, rfl, rfl, hhlt, step_halted _ henv hhlt⟩

/-! ### State dump and State restore -/

/-- Settles O16: with paging off the chunks of the image store their bytes where they lie. -/
theorem stateDumpCompletes : Obligations.StateDumpCompletes := by
  intro sh m w addr hb hsup hpag hwf ha chunks image halign
  obtain ⟨cells, hcells, hperm, hplain⟩ := cellsOf_off m true chunks hpag halign
  exact ⟨cells, hperm, hplain,
    exec_special (i := .stateDump w addr) rfl rfl hb (by simp) hwf ha (fun _ => hsup) rfl hcells⟩

/-- A restore that can read its image ends with the registers the image holds restored, and the pc with them (R184). -/
theorem exec_stateRestore {m : Mach sh} (w : IWord) {addr : Operand} {vals : List (Reg × Nat)} {accs : List Access}
    (hb : NoBreakpoints m) (hsup : m.core.csr.sup = true) (hwf : addr.wf 0 = true) (ha : allowed m (operandReads addr) [] = true)
    (hplan : m.planRestore (m.address useSpecial [] addr) = .ok (vals, accs)) :
    exec (.stateRestore w addr) ⟨sh, m⟩ = .next (advanced m (m.restored vals) m.mem
      (m.nextPc w [] (stateRestoreRecord addr) (.restore vals))) := by
  have hp : m.planSpecial [] (.stateRestore addr) = .ok (.restore vals, [], accs) := by simp [Mach.planSpecial, hplan]
  exact exec_special (i := .stateRestore w addr) rfl rfl hb (by simp) hwf ha (fun _ => hsup) hp (cellsOf_nil m true)

/-- The usage words at the head of an image are read as a word of memory each (R184). -/
theorem readChunks_fuWords {m : Mach sh} {a f0 f1 f2 : Nat} (h0 : m.memRead .read (wrapAddr sh a) 4 = .ok f0)
    (h1 : m.memRead .read (wrapAddr sh (a + 4)) 4 = .ok f1) (h2 : m.memRead .read (wrapAddr sh (a + 8)) 4 = .ok f2) :
    m.readChunks ((fuChunks sh a 0 0 0).take 3) = .ok [f0, f1, f2] := by
  have hchunk : ∀ a v, m.readChunk ⟨a, 4, 4, v⟩ = m.memRead .read a 4 := fun _ _ => rfl
  simp [fuChunks, Mach.readChunks, hchunk, h0, h1, h2]

/-- In a layout without usage words the image holds the same registers whatever the usage registers hold (R183). -/
theorem heldRegs_noFu {d : DumpLayout} (h : d.holdsFu = false) (f0 f1 f2 : Nat) : heldRegs d f0 f1 f2 = heldRegs d 0 0 0 := by
  rw [heldRegs, imageRegs_noFu d h f0 0, imageRegs_noFu d h f1 0, imageRegs_noFu d h f2 0, heldRegs]

/-- What the image of a layout holds: the registers its usage words name, or all of the layout's, and then the usage words (R184). -/
theorem layoutVals_ok {m : Mach sh} {d : DumpLayout} {a f0 f1 f2 : Nat} {vs : List Nat}
    (hfu : d.holdsFu = true → m.memRead .read (wrapAddr sh a) 4 = .ok f0 ∧ m.memRead .read (wrapAddr sh (a + 4)) 4 = .ok f1 ∧
      m.memRead .read (wrapAddr sh (a + 8)) 4 = .ok f2)
    (hvs : m.readChunks ((heldRegs d f0 f1 f2).map fun r => imageChunk sh d a r 0) = .ok vs) :
    ∃ accs, m.layoutVals d a = .ok ((heldRegs d f0 f1 f2).zip vs ++
      (if d.holdsFu then [(⟨.f2, 19⟩, f0), (⟨.f2, 20⟩, f1), (⟨.f2, 21⟩, f2)] else []), accs) := by
  cases hd : d.holdsFu with
  | true =>
    obtain ⟨h0, h1, h2⟩ := hfu hd
    simp [Mach.layoutVals, hd, readChunks_fuWords h0 h1 h2, hvs]
  | false =>
    rw [heldRegs_noFu hd] at hvs ⊢
    simp [Mach.layoutVals, hd, Mach.readChunks, hvs]

/-- Settles O17: the values are laid on the registers in their order, and the usage words say which registers the image holds. -/
theorem stateRestoreCompletes : Obligations.StateRestoreCompletes := by
  intro sh m hsup
  refine ⟨fun w addr vals accs hb hwf ha hplan => ?_, fun base d f0 f1 f2 vs hdump hfu hvs => ?_⟩
  · refine ⟨(m.restored vals).fu0, (m.restored vals).fu1, (m.restored vals).fu2, fun h => if_pos h, fun h => if_pos h,
      fun h => if_pos h, ?_⟩
    exact exec_stateRestore w hb hsup hwf ha hplan
  · have hwrap : wrapAddr sh (base % 2 ^ sh.W) = base % 2 ^ sh.W := Nat.mod_mod base _
    have hplan : m.planRestore (base % 2 ^ sh.W) = m.layoutVals d (base % 2 ^ sh.W) := by simp [Mach.planRestore, hdump]
    rw [hplan]
    exact layoutVals_ok (hwrap.symm ▸ hfu) hvs

/-! ### The places of an image -/

/-- The offsets of the bytes of a piece, which is an offset and a size. -/
def pieceOffsets (p : Nat × Nat) : List Nat := List.range' p.1 p.2

/-- The offsets of pieces that do not overlap are different. -/
theorem pieceOffsets_nodup {ps : List (Nat × Nat)} (h : piecesApart ps = true) : (ps.flatMap pieceOffsets).Nodup := by
  induction ps with
  | nil => exact List.nodup_nil
  | cons p ps ih =>
    simp only [piecesApart, Bool.and_eq_true, List.all_eq_true, Bool.or_eq_true, decide_eq_true_eq] at h
    obtain ⟨hp, hps⟩ := h
    rw [List.flatMap_cons]
    refine List.Nodup.append (List.nodup_range' _) (ih hps) fun x hx hx' => ?_
    obtain ⟨q, hq, hxq⟩ := List.mem_flatMap.1 hx'
    have h1 := List.mem_range'_1.1 hx
    have h2 := List.mem_range'_1.1 hxq
    have h3 := hp q hq
    omega

/-- The bytes of a chunk lie at the offsets of its piece from the image's address (R100). -/
theorem chunkPlaces_piece (a off unit size val : Nat) :
    chunkPlaces sh ⟨wrapAddr sh (a + off), unit, size, val⟩ = (pieceOffsets (off, size)).map fun x => wrapAddr sh (a + x) := by
  simp [chunkPlaces, pieceOffsets, List.range'_eq_map_range, wrapAddr, Nat.add_assoc]

/-- The usage words take the first 16 bytes of an image. -/
theorem fuChunks_places (a f0 f1 f2 : Nat) :
    (fuChunks sh a f0 f1 f2).flatMap (chunkPlaces sh) = (pieceOffsets (0, 16)).map fun x => wrapAddr sh (a + x) := by
  have h0 : ∀ v, chunkPlaces sh ⟨wrapAddr sh a, 4, 4, v⟩ = (pieceOffsets (0, 4)).map fun x => wrapAddr sh (a + x) :=
    fun v => chunkPlaces_piece a 0 4 4 v
  have hcut : pieceOffsets (0, 16) = pieceOffsets (0, 4) ++ pieceOffsets (4, 4) ++ pieceOffsets (8, 4) ++ pieceOffsets (12, 4) := rfl
  rw [hcut]
  simp [fuChunks, h0, chunkPlaces_piece]

/-- The pieces an image of a layout has where the usage registers hold these values (R183). -/
def imagePieces (sh : Shape) (d : DumpLayout) (f0 f1 f2 : Nat) : List (Nat × Nat) :=
  (if d.holdsFu then [(0, 16)] else []) ++ (heldRegs d f0 f1 f2).map fun r => (imageOff d r, imageSize sh d r)

/-- They are among those it may have. -/
theorem imagePieces_sublist (sh : Shape) (d : DumpLayout) (f0 f1 f2 : Nat) :
    (imagePieces sh d f0 f1 f2).Sublist (layoutPieces sh d) := by
  have hfile : ∀ fu f, (imageRegs d fu f).Sublist (imageRegs { d with holdsFu := false } 0 f) := by
    intro fu f
    refine (List.monotone_filter_right _ fun i hi => ?_).map _
    cases f <;> simp_all [imageHolds]
  exact (List.Sublist.refl _).append ((((hfile f0 .f0).append (hfile f1 .f1)).append (hfile f2 .f2)).map _)

/-- What a legal layout is (R183). -/
theorem dumpLayoutWf_iff (d : DumpLayout) : dumpLayoutWf sh d = true ↔
    d.slots ||| usageBit 17 = BitVec.allOnes 32 ∧ max sh.bufBits sh.vbits ≤ 8 * d.sBytes ∧
      (∀ p ∈ layoutPieces sh d, p.1 + p.2 ≤ 2 ^ sh.W) ∧ piecesApart (layoutPieces sh d) = true := by
  simp only [dumpLayoutWf, Bool.and_eq_true, beq_iff_eq, decide_eq_true_eq, List.all_eq_true, and_assoc]

/-- Distinct offsets below the size of the address space lie at distinct addresses from any base (R100). -/
theorem wrapAddr_inj {a x y : Nat} (hx : x < 2 ^ sh.W) (hy : y < 2 ^ sh.W) (h : wrapAddr sh (a + x) = wrapAddr sh (a + y)) :
    x = y :=
  (Nat.ModEq.add_left_cancel' a h).eq_of_lt_of_lt hx hy

/-- The image of a legal layout is stored at different addresses, wrapping included. -/
theorem imagePieces_places_nodup {d : DumpLayout} (hd : dumpLayoutWf sh d = true) (a f0 f1 f2 : Nat) :
    (((imagePieces sh d f0 f1 f2).flatMap pieceOffsets).map fun x => wrapAddr sh (a + x)).Nodup := by
  obtain ⟨-, -, hfit, hapart⟩ := (dumpLayoutWf_iff d).1 hd
  have hsub := imagePieces_sublist sh d f0 f1 f2
  have hlt : ∀ x ∈ (imagePieces sh d f0 f1 f2).flatMap pieceOffsets, x < 2 ^ sh.W := by
    intro x hx
    obtain ⟨p, hp, hxp⟩ := List.mem_flatMap.1 hx
    have h1 := hfit p (hsub.subset hp)
    have h2 := List.mem_range'_1.1 hxp
    omega
  exact List.Nodup.map_on (fun x hx y hy h => wrapAddr_inj (hlt x hx) (hlt y hy) h)
    ((pieceOffsets_nodup hapart).sublist (hsub.flatMap _))

/-! ### A dump -/

/-- The registers an image of `m` holds, by the usage registers as a dump reads them (R183). -/
def Mach.dumpRegs (m : Mach sh) (d : DumpLayout) : List Reg :=
  heldRegs d (m.readSr useDump 19) (m.readSr useDump 20) (m.readSr useDump 21)

/-- The chunks of a dump under a layout. -/
theorem dumpChunks_layout {m : Mach sh} {d : DumpLayout} (h : m.cfg.dump = .layout d) (a : Nat) :
    m.dumpChunks a = (if d.holdsFu then fuChunks sh a (m.readSr useDump 19) (m.readSr useDump 20) (m.readSr useDump 21) else []) ++
      (m.dumpRegs d).map fun r => imageChunk sh d a r (m.readReg useDump r) := by
  simp only [Mach.dumpChunks, h]
  rfl

/-- The bytes of a dump under a legal layout lie at different addresses. -/
theorem dumpChunks_places_nodup {m : Mach sh} {d : DumpLayout} (h : m.cfg.dump = .layout d) (hd : dumpLayoutWf sh d = true) (a : Nat) :
    ((m.dumpChunks a).flatMap (chunkPlaces sh)).Nodup := by
  have hreg : ∀ r, chunkPlaces sh (imageChunk sh d a r (m.readReg useDump r)) =
      (pieceOffsets (imageOff d r, imageSize sh d r)).map fun x => wrapAddr sh (a + x) := fun r => chunkPlaces_piece _ _ _ _ _
  have hregs : ((m.dumpRegs d).map fun r => imageChunk sh d a r (m.readReg useDump r)).flatMap (chunkPlaces sh) =
      (((m.dumpRegs d).map fun r => (imageOff d r, imageSize sh d r)).flatMap pieceOffsets).map fun x => wrapAddr sh (a + x) := by
    simp [List.flatMap_map, List.map_flatMap, hreg]
  have hwords : ∀ f0 f1 f2, (if d.holdsFu then fuChunks sh a f0 f1 f2 else []).flatMap (chunkPlaces sh) =
      ((if d.holdsFu then [(0, 16)] else []).flatMap pieceOffsets).map fun x => wrapAddr sh (a + x) := by
    intro f0 f1 f2
    cases d.holdsFu <;> simp [fuChunks_places]
  have hnodup := imagePieces_places_nodup hd a (m.readSr useDump 19) (m.readSr useDump 20) (m.readSr useDump 21)
  rw [imagePieces, List.flatMap_append, List.map_append] at hnodup
  rw [dumpChunks_layout h, List.flatMap_append, hwords, hregs]
  exact hnodup

/-- A dump under a legal layout leaves its image in memory, byte for byte (R183). -/
theorem stateDump_mem {m t : Mach sh} {w : IWord} {base : Nat} {d : DumpLayout} (hb : NoBreakpoints m) (hsup : m.core.csr.sup = true)
    (hpag : m.core.csr.pag = false) (hdump : m.cfg.dump = .layout d) (hd : dumpLayoutWf sh d = true)
    (halign : ∀ c ∈ m.dumpChunks (base % 2 ^ sh.W), c.addr % c.unit = 0)
    (h : exec (.stateDump w (.const base)) ⟨sh, m⟩ = .next ⟨sh, t⟩) :
    t.mem = Memory.setAll m.mem ((m.dumpChunks (base % 2 ^ sh.W)).flatMap (plainCells sh m.cfg.endian)) := by
  obtain ⟨cells, -, hplain, hexec⟩ := stateDumpCompletes sh m w (.const base) hb hsup hpag rfl (allowed_nil m) halign
  rw [hexec] at h
  cases h
  rw [hplain (by rw [storedAt_chunks]; exact dumpChunks_places_nodup hdump hd _)]
  rfl

/-! ### Reading the image back -/

/-- The value an image of `m` holds for a register: as many bytes of its content as it has there. -/
def Mach.savedVal (m : Mach sh) (d : DumpLayout) (r : Reg) : Nat := m.readReg useDump r % 256 ^ imageSize sh d r

/-- The registers a restore of an image of `m` writes, in order: those the image holds, and the usage registers whose words it
begins with (R184). -/
def Mach.restoredRegs (m : Mach sh) (d : DumpLayout) : List Reg :=
  m.dumpRegs d ++ if d.holdsFu then [⟨.f2, 19⟩, ⟨.f2, 20⟩, ⟨.f2, 21⟩] else []

/-- The machine `s` has in memory the image that `m` has dumped at `a`, every place of it aligned, and paging is off. -/
structure HasImage (s m : Mach sh) (a : Nat) : Prop where
  pagingOff : s.core.csr.pag = false
  sameCfg : s.cfg = m.cfg
  aligned : ∀ c ∈ m.dumpChunks a, c.addr % c.unit = 0
  inMemory : s.mem = Memory.setAll m.mem ((m.dumpChunks a).flatMap (plainCells sh m.cfg.endian))

/-- Each chunk of the image reads back, modulo its size. -/
theorem readChunk_image_mem {s m : Mach sh} {a : Nat} {d : DumpLayout} (hs : HasImage s m a) (hdump : m.cfg.dump = .layout d)
    (hd : dumpLayoutWf sh d = true) {c : Chunk} (hc : c ∈ m.dumpChunks a) : s.readChunk c = .ok (c.val % 256 ^ c.size) := by
  have hmem : s.mem = Memory.setAll m.mem ((m.dumpChunks a).flatMap (plainCells sh s.cfg.endian)) := by
    rw [hs.sameCfg]; exact hs.inMemory
  exact readChunk_plain s m.mem _ c hs.pagingOff (dumpChunks_places_nodup hdump hd a) hmem hc (hs.aligned c hc)

/-- A FILE 2 slot of a legal layout has room for a word of the core. -/
theorem slot_room {d : DumpLayout} (hd : dumpLayoutWf sh d = true) : sh.W ≤ 8 * d.sBytes := by
  obtain ⟨-, hroom, -⟩ := (dumpLayoutWf_iff d).1 hd
  exact ((le_max_left _ _).trans (le_max_left _ _)).trans hroom

/-- It has room for 32 bits. -/
theorem slot_room_word {d : DumpLayout} (hd : dumpLayoutWf sh d = true) : 32 ≤ 8 * d.sBytes := by
  have hW : 32 ≤ sh.W := by unfold Shape.W; cases sh.wlen <;> decide
  exact hW.trans (slot_room hd)

/-- The value an image holds for a FILE 2 register of 32 bits is its content. -/
theorem savedVal_word {m : Mach sh} {d : DumpLayout} (hd : dumpLayoutWf sh d = true) {j : Fin 32} (h : m.readSr useDump j < 2 ^ 32) :
    m.savedVal d ⟨.f2, j⟩ = m.readSr useDump j := by
  refine Nat.mod_eq_of_lt (h.trans_le ?_)
  rw [imageSize, pow256]
  exact Nat.pow_le_pow_right (by decide) (slot_room_word hd)

/-- A restore of an image of `m` reads back every value it holds (R183, R184). -/
theorem planRestore_image {s m : Mach sh} {a : Nat} {d : DumpLayout} (hs : HasImage s m a) (hdump : m.cfg.dump = .layout d)
    (hd : dumpLayoutWf sh d = true) :
    ∃ accs, s.planRestore a = .ok ((m.restoredRegs d).map fun r => (r, m.savedVal d r), accs) := by
  have hread : ∀ c ∈ m.dumpChunks a, s.readChunk c = .ok (c.val % 256 ^ c.size) := fun c => readChunk_image_mem hs hdump hd
  rw [dumpChunks_layout hdump] at hread
  have hword : ∀ addr v, v < 2 ^ 32 → s.readChunk ⟨addr, 4, 4, v⟩ = .ok (v % 256 ^ 4) → s.memRead .read addr 4 = .ok v :=
    fun addr v hv h => h.trans (congrArg Except.ok (Nat.mod_eq_of_lt hv))
  have h19 : m.readSr useDump 19 < 2 ^ 32 := m.core.fu0.isLt
  have h20 : m.readSr useDump 20 < 2 ^ 32 := m.core.fu1.isLt
  have h21 : m.readSr useDump 21 < 2 ^ 32 := (m.core.fu2Read _).isLt
  have hfu : d.holdsFu = true → s.memRead .read (wrapAddr sh a) 4 = .ok (m.readSr useDump 19) ∧
      s.memRead .read (wrapAddr sh (a + 4)) 4 = .ok (m.readSr useDump 20) ∧
      s.memRead .read (wrapAddr sh (a + 8)) 4 = .ok (m.readSr useDump 21) := by
    intro h
    rw [if_pos h] at hread
    exact ⟨hword _ _ h19 (hread _ (by simp [fuChunks])), hword _ _ h20 (hread _ (by simp [fuChunks])),
      hword _ _ h21 (hread _ (by simp [fuChunks]))⟩
  have hregs : s.readChunks ((m.dumpRegs d).map fun r => imageChunk sh d a r 0) = .ok ((m.dumpRegs d).map (m.savedVal d)) :=
    readChunks_of s _ _ _ fun r hr => hread _ (List.mem_append_right _ (List.mem_map_of_mem hr))
  obtain ⟨accs, hvals⟩ := layoutVals_ok hfu hregs
  have hplan : s.planRestore a = s.layoutVals d a := by simp [Mach.planRestore, hs.sameCfg, hdump]
  refine ⟨accs, hplan.trans (hvals.trans ?_)⟩
  rw [Mach.restoredRegs, List.map_append, List.map_prod_left_eq_zip]
  cases d.holdsFu
  · rfl
  · simp [savedVal_word hd h19, savedVal_word hd h20, savedVal_word hd h21, Mach.dumpRegs]

/-! ### The registers after a restore -/

/-- A register among those restored holds its saved value in the end, if no other register's restore changes it. Unlike in
`restore_sets` a register may be restored more than once, as the usage registers are. -/
theorem restore_holds {α : Type} (P : Core sh → α) (l : CsrLayout) (f : Reg → Nat) {rs : List Reg} (c : Core sh) {r0 : Reg} {a : α}
    (hr : r0 ∈ rs) (hother : ∀ r, r ≠ r0 → ∀ (v : Nat) (c : Core sh), P (c.restoreReg l r v) = P c)
    (hown : ∀ c : Core sh, P (c.restoreReg l r0 (f r0)) = a) : P (rs.foldl (fun c r => c.restoreReg l r (f r)) c) = a := by
  induction rs generalizing c with
  | nil => cases hr
  | cons r rs ih =>
    rw [List.foldl_cons]
    by_cases hmem : r0 ∈ rs
    · exact ih _ hmem
    · obtain rfl : r0 = r := (List.mem_cons.1 hr).resolve_right hmem
      rw [restore_keep P l f rs _ fun q hq => hother q fun he => hmem (he ▸ hq)]
      exact hown c

/-- A restore of another register keeps each register of FILE 0. -/
theorem restoreReg_x_other (l : CsrLayout) (c : Core sh) {r : Reg} {j : Fin 32} (v : Nat) (h : r ≠ ⟨.f0, j⟩) :
    (c.restoreReg l r v).x[j] = c.x[j] := by
  obtain ⟨f, i⟩ := r
  cases f with
  | f0 => exact Vector.getElem_set_ne i.isLt j.isLt fun he => h (congrArg (Reg.mk .f0) (Fin.ext he))
  | f1 => rfl
  | f2 => cases hs : slotAt i <;> simp [Core.restoreReg, hs]

/-- A restore of another register keeps each register of FILE 1. -/
theorem restoreReg_v_other (l : CsrLayout) (c : Core sh) {r : Reg} {j : Fin 32} (v : Nat) (h : r ≠ ⟨.f1, j⟩) :
    (c.restoreReg l r v).v[j] = c.v[j] := by
  obtain ⟨f, i⟩ := r
  cases f with
  | f0 => rfl
  | f1 => exact Vector.getElem_set_ne i.isLt j.isLt fun he => h (congrArg (Reg.mk .f1) (Fin.ext he))
  | f2 => cases hs : slotAt i <;> simp [Core.restoreReg, hs]

/-- A restored FILE 2 register is written like any slot. -/
theorem restoreReg_slot (l : CsrLayout) (c : Core sh) {j : Fin 32} {s : Slot} (v : Nat) (hs : slotAt j = some s) :
    c.restoreReg l ⟨.f2, j⟩ v = writeSlot l c v s := by
  simp [Core.restoreReg, hs]

/-- A restore of another register keeps what each slot of FILE 2 holds. -/
theorem restoreReg_slot_other (l : CsrLayout) (c : Core sh) {r : Reg} {j : Fin 32} {s : Slot} (v d : Nat) (hs : slotAt j = some s)
    (h : r ≠ ⟨.f2, j⟩) : slotContent l (c.restoreReg l r v) d s = slotContent l c d s := by
  obtain ⟨f, i⟩ := r
  cases f with
  | f0 => cases s <;> rfl
  | f1 => cases s <;> rfl
  | f2 =>
    cases hi : slotAt i with
    | none => simp [Core.restoreReg, hi]
    | some s' =>
      rw [restoreReg_slot l c v hi]
      refine slotContent_other l c v d s' s ?_
      rintro rfl
      exact h (congrArg (Reg.mk .f2) (slotAt_inj hi hs))

/-- The registers of `c` with those restored that an image of `m` holds. -/
def Mach.imageOver (m : Mach sh) (d : DumpLayout) (c : Core sh) : Core sh :=
  (m.restoredRegs d).foldl (fun c r => c.restoreReg m.cfg.csrLayout r (m.savedVal d r)) c

/-- An image holds the register `i` of a file whose usage register holds `fu`: its usage bit is 1, or the layout has no usage words
(R183). -/
def usageHeld (d : DumpLayout) (fu : Nat) (i : Fin 32) : Bool := !d.holdsFu || fu.testBit i.val

/-- The registers of FILE 0 that a restore writes. -/
theorem mem_restoredRegs_f0 (m : Mach sh) (d : DumpLayout) (j : Fin 32) :
    ⟨.f0, j⟩ ∈ m.restoredRegs d ↔ usageHeld d m.core.fu0.toNat j = true := by
  have hfu : m.readSr useDump 19 = m.core.fu0.toNat := rfl
  cases hd : d.holdsFu <;>
    simp [Mach.restoredRegs, Mach.dumpRegs, heldRegs, mem_imageRegs, imageHolds, usageHeld, hd, hfu]

/-- The registers of FILE 1 that a restore writes. -/
theorem mem_restoredRegs_f1 (m : Mach sh) (d : DumpLayout) (j : Fin 32) :
    ⟨.f1, j⟩ ∈ m.restoredRegs d ↔ usageHeld d m.core.fu1.toNat j = true := by
  have hfu : m.readSr useDump 20 = m.core.fu1.toNat := rfl
  cases hd : d.holdsFu <;>
    simp [Mach.restoredRegs, Mach.dumpRegs, heldRegs, mem_imageRegs, imageHolds, usageHeld, hd, hfu]

/-- A legal layout has room for every slot but the empty one. -/
theorem layout_slots {d : DumpLayout} (hd : dumpLayoutWf sh d = true) {j : Fin 32} (h : j ≠ 17) : d.slots.getLsbD j.val = true := by
  obtain ⟨hslots, -⟩ := (dumpLayoutWf_iff d).1 hd
  have hempty : (usageBit 17).getLsbD j.val = false := by revert j; decide
  have hbit := congrArg (·.getLsbD j.val) hslots
  simpa only [BitVec.getLsbD_or, hempty, Bool.or_false, BitVec.getLsbD_allOnes, j.isLt, decide_true] using hbit

/-- The registers of FILE 2 that a restore writes: those the image holds, and the usage registers. -/
theorem mem_restoredRegs_f2 {m : Mach sh} {d : DumpLayout} (hd : dumpLayoutWf sh d = true) {j : Fin 32} (h17 : j ≠ 17) :
    ⟨.f2, j⟩ ∈ m.restoredRegs d ↔ usageHeld d (m.readSr useDump 21) j = true ∨ j = 19 ∨ j = 20 ∨ j = 21 := by
  have hslot := layout_slots hd h17
  cases hfu : d.holdsFu <;>
    simp [Mach.restoredRegs, Mach.dumpRegs, heldRegs, mem_imageRegs, imageHolds, usageHeld, hfu, hslot, h17]

/-- A restore of a legal layout's image writes FU0, FU1 and FU2. -/
theorem usage_restored (m : Mach sh) {d : DumpLayout} (hd : dumpLayoutWf sh d = true) {j : Fin 32} (hj : j = 19 ∨ j = 20 ∨ j = 21) :
    ⟨.f2, j⟩ ∈ m.restoredRegs d :=
  (mem_restoredRegs_f2 hd (by rintro rfl; revert hj; decide)).2 (.inr hj)

/-- A scalar register comes back from as many bytes as an image has for it. -/
theorem ofNat_wlen_back (b : BitVec sh.W) : BitVec.ofNat sh.W (b.toNat % 256 ^ sh.wlen.bytes) = b :=
  BitVec.eq_of_toNat_eq (ofNat_back b (by unfold Shape.W; cases sh.wlen <;> decide))

/-- A register of FILE 0 after a restore (R183, R184). -/
theorem imageOver_x (m : Mach sh) (d : DumpLayout) (c : Core sh) (j : Fin 32) :
    (m.imageOver d c).x[j] = if usageHeld d m.core.fu0.toNat j then m.core.x[j] else c.x[j] := by
  split
  next h =>
    refine restore_holds (·.x[j]) _ _ c ((mem_restoredRegs_f0 m d j).2 h) (fun r hr v c => restoreReg_x_other _ c v hr) fun c => ?_
    exact (Vector.getElem_set_self j.isLt).trans (ofNat_wlen_back _)
  next h =>
    exact restore_keep (·.x[j]) _ _ _ c fun r hr v c => restoreReg_x_other _ c v fun he =>
      h ((mem_restoredRegs_f0 m d j).1 (he ▸ hr))

/-- A register of FILE 1 after a restore (R183, R184). -/
theorem imageOver_v (m : Mach sh) (d : DumpLayout) (c : Core sh) (j : Fin 32) :
    (m.imageOver d c).v[j] = if usageHeld d m.core.fu1.toNat j then m.core.v[j] else c.v[j] := by
  split
  next h =>
    refine restore_holds (·.v[j]) _ _ c ((mem_restoredRegs_f1 m d j).2 h) (fun r hr v c => restoreReg_v_other _ c v hr) fun c => ?_
    exact (Vector.getElem_set_self j.isLt).trans (BitVec.eq_of_toNat_eq (ofNat_back _ le_rfl))
  next h =>
    exact restore_keep (·.v[j]) _ _ _ c fun r hr v c => restoreReg_v_other _ c v fun he =>
      h ((mem_restoredRegs_f1 m d j).1 (he ▸ hr))

/-- A restored slot of FILE 2 holds what its saved value writes there. -/
theorem imageOver_slot (m : Mach sh) (d : DumpLayout) (c : Core sh) {j : Fin 32} {sl : Slot} (hsl : slotAt j = some sl) {a : Nat}
    (hmem : ⟨.f2, j⟩ ∈ m.restoredRegs d)
    (hown : ∀ c : Core sh, slotContent m.cfg.csrLayout (writeSlot m.cfg.csrLayout c (m.savedVal d ⟨.f2, j⟩) sl) 0 sl = a) :
    slotContent m.cfg.csrLayout (m.imageOver d c) 0 sl = a :=
  restore_holds (slotContent m.cfg.csrLayout · 0 sl) _ _ c hmem (fun r hr v c => restoreReg_slot_other _ c v 0 hsl hr) fun c => by
    rw [restoreReg_slot _ _ _ hsl]
    exact hown c

/-- The value an image holds for a slot. -/
theorem savedVal_slot (m : Mach sh) (d : DumpLayout) {j : Fin 32} {sl : Slot} (hsl : slotAt j = some sl) :
    m.savedVal d ⟨.f2, j⟩ = slotContent m.cfg.csrLayout m.core (m.draw (.unusedBits useDump j)) sl % 256 ^ d.sBytes := by
  rw [← readSr_slot m useDump hsl]
  rfl

/-- A restored slot other than PC and FU2 holds what it held when it was saved (R183, R184). -/
theorem imageOver_slot_back (m : Mach sh) {d : DumpLayout} (c : Core sh) (hd : dumpLayoutWf sh d = true)
    (hl : csrLayoutWf m.cfg.csrLayout sh.csrBits = true) {j : Fin 32} {sl : Slot} (hsl : slotAt j = some sl)
    (hmem : ⟨.f2, j⟩ ∈ m.restoredRegs d) (hpc : sl ≠ .pc) (hf : sl ≠ .fu2) :
    slotContent m.cfg.csrLayout (m.imageOver d c) 0 sl = slotContent m.cfg.csrLayout m.core 0 sl := by
  obtain ⟨-, hroom, -⟩ := (dumpLayoutWf_iff d).1 hd
  refine imageOver_slot m d c hsl hmem fun c => ?_
  rw [savedVal_slot m d hsl]
  exact slot_back _ _ _ _ _ _ hpc hf hl hroom

/-- The usage registers after a restore: those that were saved, FU2 as the dump read it (R57, R58, R184). -/
theorem imageOver_usage (m : Mach sh) {d : DumpLayout} (c : Core sh) (hd : dumpLayoutWf sh d = true)
    (hl : csrLayoutWf m.cfg.csrLayout sh.csrBits = true) : (m.imageOver d c).fu0 = m.core.fu0 ∧
      (m.imageOver d c).fu1 = m.core.fu1 ∧ (m.imageOver d c).fu2 = BitVec.ofNat 32 (m.readSr useDump 21) := by
  refine ⟨BitVec.eq_of_toNat_eq ?_, BitVec.eq_of_toNat_eq ?_, ?_⟩
  · exact imageOver_slot_back m c hd hl (sl := .fu0) rfl (usage_restored m hd (j := 19) (by simp)) (by simp) (by simp)
  · exact imageOver_slot_back m c hd hl (sl := .fu1) rfl (usage_restored m hd (j := 20) (by simp)) (by simp) (by simp)
  · have hfu2 : slotContent m.cfg.csrLayout (m.imageOver d c) 0 .fu2 = m.readSr useDump 21 := by
      refine imageOver_slot m d c rfl (usage_restored m hd (j := 21) (by simp)) fun c => ?_
      rw [savedVal_slot m d (sl := .fu2) rfl, fu2_back _ _ _ _ _ _ (slot_room_word hd), readSr_slot m _ (s := .fu2) rfl]
    simp [← hfu2, slotContent, Core.fu2Read]

/-- The value that the list of restored values gives a register. -/
theorem lookup_restored (f : Reg → Nat) (rs : List Reg) (r : Reg) :
    (rs.map fun r => (r, f r)).reverse.lookup r = if r ∈ rs then some (f r) else none := by
  rw [← List.map_reverse]
  split
  next h => exact List.lookup_graph f (List.mem_reverse.2 h)
  next h =>
    rw [List.lookup_eq_none_iff]
    intro p hp
    obtain ⟨q, hq, rfl⟩ := List.mem_map.1 hp
    simpa using fun he : r = q => h (he ▸ List.mem_reverse.1 hq)

/-- The pc after a restore: the saved one, if the image holds PC (R183, R184). -/
theorem nextPc_image {s m : Mach sh} {d : DumpLayout} (hd : dumpLayoutWf sh d = true) (w : IWord) (addr : Operand) :
    s.nextPc w [] (stateRestoreRecord addr) (.restore ((m.restoredRegs d).map fun r => (r, m.savedVal d r))) =
      if usageHeld d (m.readSr useDump 21) 11 then m.core.pc else afterPc s w := by
  have hpc : BitVec.ofNat sh.W (m.savedVal d ⟨.f2, 11⟩) = m.core.pc := by
    rw [savedVal_slot m d (sl := .pc) rfl]
    exact BitVec.eq_of_toNat_eq (ofNat_back _ (slot_room hd))
  have hmem := mem_restoredRegs_f2 (m := m) hd (j := 11) (by decide)
  simp only [Mach.nextPc, lookup_restored, hmem]
  cases usageHeld d (m.readSr useDump 21) 11
  · rfl
  · exact hpc

/-- The registers after a restore of an image of `m` (R184). -/
theorem restored_image {s m : Mach sh} {d : DumpLayout} (hcfg : s.cfg = m.cfg) (hd : dumpLayoutWf sh d = true) :
    s.restored ((m.restoredRegs d).map fun r => (r, m.savedVal d r)) = { m.imageOver d s.core with fuOpen := 0#32 } := by
  have hholds : ∀ j : Fin 32, j = 19 ∨ j = 20 ∨ j = 21 →
      holdsSlot ((m.restoredRegs d).map fun r => (r, m.savedVal d r)) j = true := fun j hj => by
    simpa [holdsSlot] using usage_restored m hd hj
  simp [Mach.restored, hholds, List.foldl_map, hcfg, Mach.imageOver]

/-- Settles O18: the dump's bytes lie apart and read back, and each register they restore keeps its value under the others. -/
theorem dumpThenRestore : Obligations.DumpThenRestore := by
  intro sh m t s w w' base d hb hsup hpag hspag hdump hd hl halign hmb hmsup hexec hcfg hmem held
  have himage : HasImage s m (base % 2 ^ sh.W) :=
    ⟨hspag, hcfg, halign, hmem.trans (stateDump_mem hmb hmsup hpag hdump hd halign hexec)⟩
  obtain ⟨accs, hplan⟩ := planRestore_image himage hdump hd
  obtain ⟨hfu0, hfu1, hfu2⟩ := imageOver_usage m s.core hd hl
  have hrestore := exec_stateRestore w' (addr := .const base) hb hsup rfl (allowed_nil s) hplan
  rw [nextPc_image hd, restored_image hcfg hd] at hrestore
  refine ⟨_, hrestore, imageOver_x m d s.core, imageOver_v m d s.core, fun j sl hsl hpc hf hheld => ?_, rfl, hfu0, hfu1, ?_⟩
  · have hj : j ≠ 17 := by rintro rfl; cases hsl
    refine (slotContent_settled _ s _ s.mem _ 0 hpc hf).trans ((slotContent_usage _ _ _ _ 0 hf).trans ?_)
    exact imageOver_slot_back m s.core hd hl hsl ((mem_restoredRegs_f2 hd hj).2 (.inl hheld)) hpc hf
  · rw [← hfu2, ← hcfg]
    rfl

end Sys2Proof.Machine
end

section
/-! SUPPORT. Proofs of the family 60_exceptions: taking an event and returning from it, the breakpoints, privilege, and what a step does
before its instruction. -/

namespace Sys2Proof.Machine

open Sys2Proof

variable {sh : Shape}

/-! ### Taking an event -/

/-- Settles O43: the constraints are laid on whatever the parameter answers. -/
theorem entryCsrConstraints : Obligations.EntryCsrConstraints := by
  intro ch c e
  refine ⟨rfl, ?_, fun cls => rfl, rfl, ?_⟩
  · simp [entryCsr]
  · simp [entryCsr]

/-- SUP after the entry of an event says that its class is the supervisor's or that SUP was set (R206). -/
theorem entryCsr_sup (ch : Choice) (c : Csr) (cls : EventClass) (e : Event) :
    (entryCsr ch c cls e).sup = (cls == .supervisor || c.sup) := rfl

/-- A user event whose handler is found is entered from user mode (R202, R204). -/
theorem enterAs_user {m : Mach sh} {e : Event} {saved h : BitVec sh.W} (hsup : m.core.csr.sup = false)
    (hh : (m.saving e .user saved).handler m.core.uetp e = .ok h) :
    m.enterAs e .user saved = .ok { m with draws := m.draws + 1, core := m.core.entered m.cfg e .user saved h } := by
  simp [Mach.enterAs, hsup, hh]

/-- A supervisor event whose handler is found is entered (R204). -/
theorem enterAs_supervisor {m : Mach sh} {e : Event} {saved h : BitVec sh.W}
    (hh : (m.saving e .supervisor saved).handler m.core.setp e = .ok h) :
    m.enterAs e .supervisor saved =
      .ok { m with draws := m.draws + 1, core := m.core.entered m.cfg e .supervisor saved h } := by
  simp [Mach.enterAs, hh]

/-- A user event is refused in supervisor mode (R202). -/
theorem enterAs_user_refused {m : Mach sh} {e : Event} {saved : BitVec sh.W} (h : m.core.csr.sup = true) :
    m.enterAs e .user saved = .error (.refuse .userEventInSupervisorMode) := by
  simp [Mach.enterAs, h]

/-- Settles O44: the class of an interrupt is read off its kind, and the refusal stands before the lookup of the handler. -/
theorem eventClassRule : Obligations.EventClassRule := by
  refine fun sh m id => ⟨rfl, rfl, fun e c n b hcls hsup => ?_⟩
  rw [Mach.enter, hcls, enterAs_user_refused hsup]
  rfl

/-- Settles O42: the core that is entered is the one with its buffers, CSR and PC replaced. -/
theorem eventEntrySaves : Obligations.EventEntrySaves := by
  intro sh m e saved h hl
  refine ⟨_, image_toNat hl m.core.csr, fun hsup hh => ?_, fun hh => ?_⟩
  · exact enterAs_user hsup hh
  · rw [enterAs_supervisor hh]
    cases hsup : m.core.csr.sup <;> simp [Core.entered, Core.saving, entryWrites, hsup]

/-- The pair a return uses right after the entry of an event is the one the entry has saved to (R182, R204). -/
theorem entered_returnPair (c : Core sh) (cfg : Params) (e : Event) {cls : EventClass} (saved h : BitVec sh.W)
    (hc : cls = .user → c.csr.sup = false) :
    (c.entered cfg e cls saved h).returnPair = (saved, BitVec.ofNat _ (csrImage cfg.csrLayout c.csr)) := by
  cases cls with
  | user => simp [Core.returnPair, Core.entered, Core.saving, entryCsr_sup, hc rfl]
  | supervisor => simp [Core.returnPair, Core.entered, Core.saving, entryCsr_sup]

/-- The image an event has saved reads back as the CSR it was made of (R85, R181). -/
theorem csrOfImage_saved {l : CsrLayout} (h : csrLayoutWf l sh.csrBits = true) (c : Csr) :
    csrOfImage l ((BitVec.ofNat sh.bufBits (csrImage l c)).toNat % 2 ^ sh.csrBits) = c := by
  rw [image_toNat h, Nat.mod_eq_of_lt (image_lt h c)]
  simpa [unusedPart] using csrOfImage_image h c 0

/-- Settles O45: the return uses the pair the entry has saved to, and the saved image is the whole CSR. -/
theorem entryThenReturnResumes : Obligations.EntryThenReturnResumes := by
  intro sh m s e cause next after w hl hb hs
  obtain ⟨hc, a, -, rfl⟩ := enterAs_ok hs
  have hpair := entered_returnPair m.core m.cfg e (m.savedPc e cause next after) a hc
  rw [returnPair_eq, Prod.mk.injEq] at hpair
  obtain ⟨hpc, hcsr⟩ := hpair
  refine ⟨_, eventReturnRestores sh _ w (show NoBreakpoints _ from (entered_bm ..).trans hb), ?csr, hpc, rfl, ?x, ?v, ?vflg,
    ?vmsk, rfl⟩
  case csr =>
    simp only [markImplicit_csr]
    rw [hcsr]
    exact csrOfImage_saved hl m.core.csr
  all_goals simp

/-! ### The step -/

/-- An empty list of moves leaves the machine as it is, with the same core to step (log entry 7). -/
theorem ready_of_env_nil {m : Mach sh} (h : m.env = []) : m.ready = m := by
  simp [Mach.ready, Mach.nextMove, h, Mach.select]

/-- Settles O3: the fetch answers what the bytes decode to, and the step runs that. -/
theorem stepRunsDecodedInstruction : Obligations.StepRunsDecodedInstruction := by
  intro sh m i hat ha hd
  have hf : m.ready.fetch = .ok i := by simp only [Mach.fetch, ha, hd]
  have hu : m.untilInstr = .ok (.run i m.ready) := by rw [before_run hat, hf]
  exact ⟨by simp only [step, hu], ready_of_env_nil⟩

/-- An interrupt is enabled where the CSR enables its kind; a waking one never is (R234, R236). -/
theorem irqEnabled_iff (c : Csr) (i : Irq) :
    irqEnabled c i = true ↔ (i.kind = .user ∧ c.uint = true) ∨ (i.kind = .supervisor ∧ c.sint = true) := by
  cases h : i.kind <;> simp [irqEnabled, h]

/-- Of the interrupts presented, a running core takes the one it is let take, if that is enabled (R234). -/
theorem takenIrq_of_take {c : Csr} {mv : EnvMove} {k : Nat} {i : Irq} (ht : mv.take = some k) (hp : mv.pending[k]? = some i) :
    takenIrq c mv = if irqEnabled c i then some i else none := by
  simp [takenIrq, ht, hp]

/-- A running core that takes an interrupt enters it, and its step is over (R234). -/
theorem untilInstr_irq {m : Mach sh} {i : Irq} (hh : m.ready.core.csr.hlt = false)
    (ht : takenIrq m.ready.core.csr m.nextMove.1 = some i) :
    m.untilInstr = overWith (m.ready.enter (.interrupt i) m.ready.core.pc (some m.ready.core.pc) true) := by
  simp [Mach.untilInstr, Mach.before, hh, ht]

/-- A running core that takes no interrupt goes on to its instruction (R240). -/
theorem untilInstr_running {m : Mach sh} (hh : m.ready.core.csr.hlt = false)
    (ht : takenIrq m.ready.core.csr m.nextMove.1 = none) : m.untilInstr = m.ready.beforeInstr := by
  simp [Mach.untilInstr, Mach.before, hh, ht]

/-- Settles O8: whether the interrupt is taken turns on its being enabled alone. -/
theorem interruptTakenWhenEnabled : Obligations.InterruptTakenWhenEnabled := by
  intro sh m k i hh htake hpend
  rw [← irqEnabled_iff]
  have htaken := takenIrq_of_take (c := m.ready.core.csr) htake hpend
  refine ⟨fun hen => ?_, fun hdis => ?_⟩
  · exact step_over (untilInstr_irq hh (htaken.trans (if_pos hen)))
  · exact untilInstr_running hh (htaken.trans (if_neg hdis))

/-- The step of a halted core is over before any fetch (R238). -/
theorem step_of_halted {m : Mach sh} (hh : m.ready.core.csr.hlt = true) :
    step ⟨sh, m⟩ = .next ⟨sh, m.ready.haltedStep m.nextMove.1⟩ := by
  have hu : m.untilInstr = overWith (.ok (m.ready.haltedStep m.nextMove.1)) := by
    simp [Mach.untilInstr, Mach.before, hh, overWith]
  exact step_over hu

/-- A move wakes a halted core where it presents a waking interrupt (R236). -/
theorem wakes_iff (mv : EnvMove) : wakes mv = true ↔ ∃ i ∈ mv.pending, i.kind = .waking := by
  simp [wakes]

/-- Settles O9: a halted core's step is the waking alone, or nothing. -/
theorem haltedCoreWaits : Obligations.HaltedCoreWaits := by
  intro sh m hh
  refine ⟨fun hnone => ?_, fun hwake => ?_⟩
  · have hw : ¬ wakes m.nextMove.1 = true := by
      rw [wakes_iff]
      rintro ⟨i, hi, hk⟩
      exact hnone i hi hk
    rw [step_of_halted hh, Mach.haltedStep, if_neg hw]
  · rw [step_of_halted hh, Mach.haltedStep, if_pos ((wakes_iff _).2 hwake)]

/-! ### Privilege -/

/-- In user mode a record that names a starred register, or is a dump or a restore, is a violation (R183, R184, R232). -/
theorem violates_of_privileged {m : Mach sh} {r : Record} (hu : m.core.csr.sup = false)
    (h : touchesStarred (recordReads r) (destsOf r) = true ∨ needsSupervisor r.special = true) : m.violates r = true := by
  rcases h with h | h <;> simp [Mach.violates, hu, h]

/-- A dump and a restore are the operations that need supervisor mode (R183, R184). -/
theorem needsSupervisor_iff (s : Special) : needsSupervisor s = true ↔ isDump s = true ∨ isRestore s = true := by
  cases s <;> simp [needsSupervisor, isDump, isRestore]

/-- Settles O41: each kind of resource makes the record a violation, which comes before any effect. -/
theorem privilegeViolationRaised : Obligations.PrivilegeViolationRaised := by
  intro sh m i hb ha hu hslot hpc hres
  refine exec_violation hb ha (refusalOf_eq_none hslot hpc) (violates_of_privileged hu ?_)
  rw [needsSupervisor_iff]
  rcases hres with hsrc | hdst | hspec
  · exact .inl (touches_of (.inl hsrc))
  · exact .inl (touches_of (.inr hdst))
  · exact .inr hspec

/-- Entering an event changes none of SETP, PTP and KR, and PID and the supervisor's buffers only where SUP is 1 after it (R204,
R208). -/
theorem entered_privileged {m m' : Mach sh} (h : Entered m m') :
    m'.core.setp = m.core.setp ∧ m'.core.ptp = m.core.ptp ∧ m'.core.kr = m.core.kr ∧
      (m'.core.csr.sup = false → m'.core.pid = m.core.pid ∧ m'.core.seb0 = m.core.seb0 ∧ m'.core.seb1 = m.core.seb1) := by
  obtain ⟨e, cls, saved, a, -, rfl⟩ := h
  refine ⟨entered_setp .., entered_ptp .., entered_kr .., fun hsup => ?_⟩
  cases cls with
  | user => exact ⟨rfl, rfl, rfl⟩
  | supervisor => exact nomatch hsup

/-- A slot that user mode may write is none of the starred ones but the CSR (R232). -/
theorem slot_ne_of_user {s t : Slot} (h : starred (slotNum s) = false ∨ slotNum s = 23)
    (ht : starred (slotNum t) = true ∧ slotNum t ≠ 23) : s ≠ t := by
  rintro rfl
  rcases h with h | h
  · exact Bool.false_ne_true (h.symm.trans ht.1)
  · exact ht.2 h

/-- KR_0 to KR_3 are starred, and none is the CSR (R39). -/
theorem starred_kr (k : Fin 4) : starred (slotNum (.kr k)) = true ∧ slotNum (.kr k) ≠ 23 := by
  revert k
  decide

/-- What only writes of a starred slot other than the CSR can change, the effects of an instruction in user mode keep (R232). The
last hypothesis holds by unfolding where `P` is one register of the slot alone. -/
theorem user_keep_slot {α} (P : Core sh → α) (t : Slot) {m : Mach sh} {w : IWord} {r : Record} {eff : Effect sh}
    (he : m.evaluate w r = .ok eff) (ha : allowed m (recordReads r) (destsOf r) = true)
    (hs : needsSupervisor r.special = true → m.core.csr.sup = true) (hu : m.core.csr.sup = false)
    (ht : starred (slotNum t) = true ∧ slotNum t ≠ 23)
    (hslot : ∀ (c : Core sh) v s, s ≠ t → P (writeSlot m.cfg.csrLayout c v s) = P c)
    (hall : ∀ (c : Core sh) x v vmsk vflg csr f0 f1 f2 fo pc, P { c with
      x := x, v := v, vmsk := vmsk, vflg := vflg, csr := csr, fu0 := f0, fu1 := f1, fu2 := f2, fuOpen := fo, pc := pc } = P c :=
      by intros; rfl) :
    P (m.committed eff).core = P m.core :=
  user_keep P he ha hs hu (fun s h v c => hslot c v s (slot_ne_of_user h ht)) hall

/-- The effects of an instruction in user mode change none of SETP, PTP, KR, PID and the supervisor's buffers (R232). -/
theorem committed_privileged {m : Mach sh} {w : IWord} {r : Record} {eff : Effect sh} (he : m.evaluate w r = .ok eff)
    (ha : allowed m (recordReads r) (destsOf r) = true) (hs : needsSupervisor r.special = true → m.core.csr.sup = true)
    (hu : m.core.csr.sup = false) :
    ((m.committed eff).core.setp = m.core.setp ∧ (m.committed eff).core.ptp = m.core.ptp ∧
      (m.committed eff).core.kr = m.core.kr) ∧ (m.committed eff).core.pid = m.core.pid ∧
      (m.committed eff).core.seb0 = m.core.seb0 ∧ (m.committed eff).core.seb1 = m.core.seb1 := by
  refine ⟨⟨?setp, ?ptp, Vector.ext fun k hk => ?kr⟩, ?pid, ?seb0, ?seb1⟩
  case setp => exact user_keep_slot (·.setp) .setp he ha hs hu (by decide) (writeSlot_setp _)
  case ptp => exact user_keep_slot (·.ptp) .ptp he ha hs hu (by decide) (writeSlot_ptp _)
  case kr => exact user_keep_slot (·.kr[k]) (.kr ⟨k, hk⟩) he ha hs hu (starred_kr _) (writeSlot_kr_other _)
  case pid => exact user_keep_slot (·.pid) .pid he ha hs hu (by decide) (writeSlot_pid _)
  case seb0 => exact user_keep_slot (·.seb0) .seb0 he ha hs hu (by decide) (writeSlot_seb0 _)
  case seb1 => exact user_keep_slot (·.seb1) .seb1 he ha hs hu (by decide) (writeSlot_seb1 _)

/-- Settles O55: neither the effects of an instruction in user mode nor the entry of an event touch these registers, but for a
supervisor event, which leaves user mode. -/
theorem userModeKeepsPrivileged : Obligations.UserModeKeepsPrivileged := by
  intro sh m m' i hu h
  rcases perform_ok (exec_next.1 h).2 with hent | ⟨eff, he, ha, hs, -, hc⟩
  · exact entered_privileged hent
  · obtain ⟨⟨hsetp, hptp, hkr⟩, hpid, hseb0, hseb1⟩ := committed_privileged he ha hs hu
    rcases hc with rfl | hent
    · exact ⟨hsetp, hptp, hkr, fun _ => ⟨hpid, hseb0, hseb1⟩⟩
    · have hkeep := entered_privileged hent
      rwa [hsetp, hptp, hkr, hpid, hseb0, hseb1] at hkeep

/-- An event that takes a core from user to supervisor mode is promoting: PID is the kernel's, and SEB_1 holds the CSR there was
(R204, R208). -/
theorem entered_promotes {m m' : Mach sh} (h : Entered m m') (hu : m.core.csr.sup = false) (hsup : m'.core.csr.sup = true) :
    m'.core.pid = m.cfg.kernelPid ∧ ∃ (c : Csr) (e : Event), c.sup = false ∧
      m'.core.csr = entryCsr m.cfg.eventEntryCsr c .supervisor e ∧
      m'.core.seb1 = BitVec.ofNat sh.bufBits (csrImage m.cfg.csrLayout c) := by
  obtain ⟨e, cls, saved, a, -, rfl⟩ := h
  cases cls with
  | user => exact absurd (hu.symm.trans hsup) Bool.false_ne_true
  | supervisor => exact ⟨by simp [Core.entered, Core.saving, hu], _, e, hu, rfl, rfl⟩

/-- Settles O56: what an instruction does before an event, if it enters one, sets SUP only as a return from an event. -/
theorem supervisorOnlyByEvent : Obligations.SupervisorOnlyByEvent := by
  intro sh m m' i hu h hsup
  rcases perform_ok (exec_next.1 h).2 with hent | ⟨eff, he, -, hs, hstar, hc⟩
  · exact .inr (entered_promotes hent hu hsup)
  · have hreturn := committed_sup he hs hu (hstar hu)
    rcases hc with rfl | hent
    · exact .inl (hreturn hsup)
    · cases hmid : (m.committed eff).core.csr.sup with
      | true => exact .inl (hreturn hmid)
      | false => exact .inr (entered_promotes (m := m.committed eff) hent hmid hsup)

/-! ### Breakpoints before an instruction -/

/-- The modes known once the instruction word is are taken before the instruction. -/
theorem selBefore_of_selEarly {t : BrkTiming} {md : BrkMode} (h : selEarly t md = true) : selBefore t md = true := by
  cases md with
  | instrAddr => exact h
  | instrWord l => exact h
  | _ => cases h

/-- Whether one of them matches has nothing to do with accesses or flags (R221, R225). -/
theorem brkMatch_of_selEarly {t : BrkTiming} {md : BrkMode} (h : selEarly t md = true) (c : Core sh) (w : IWord)
    (accs : List Access) (gens : Flags) (br : BitVec sh.W) : brkMatch c w accs gens md br = brkMatch c w [] {} md br := by
  cases md with
  | instrAddr => rfl
  | instrWord l => rfl
  | _ => cases h

/-- The registers with an address or a pattern mode that match are among all that match before the effects (R226). -/
theorem early_subset_beforeHits (m : Mach sh) (w : IWord) (x : Res (Effect sh)) :
    m.core.brkHits (selEarly m.cfg.brkTiming) w [] {} ⊆ m.beforeHits w x := by
  cases x with
  | error e => exact List.Subset.refl _
  | ok eff =>
    rintro ⟨n, md⟩ h
    obtain ⟨hmode, hsel, hmatch⟩ := (brkHits_mem _ _ _ _ _ n md).1 h
    exact (brkHits_mem _ _ _ _ _ n md).2
      ⟨hmode, selBefore_of_selEarly hsel, (brkMatch_of_selEarly hsel m.core w eff.accs eff.gens _).trans hmatch⟩

/-- Where registers match, one breakpoint exception is due for all of them (R226). -/
theorem brkEvents_of_ne_nil {hits : List (Fin 6 × BrkMode)} (h : hits ≠ []) : brkEvents hits = [.breakpoint hits] := by
  simp [brkEvents, h]

/-- Where events are due before the effects, one of them is entered (R214). -/
theorem takeOr_due (m : Mach sh) {es : List Event} (h : es ≠ []) :
    ∃ e ∈ es, ∀ next rest, m.takeOr es next rest = m.enter e m.core.pc next false := by
  obtain ⟨e, es, rfl⟩ := List.exists_cons_of_ne_nil h
  exact ⟨_, pick_mem m e es, fun _ _ => rfl⟩

/-- A record that an address or a pattern mode matches enters, in the state it began in, a breakpoint exception that takes those
registers in, or the violation that it is (R209, R214). -/
theorem perform_early {m : Mach sh} {w : IWord} {r : Record} (hwf : r.wf = true)
    (hne : m.core.brkHits (selEarly m.cfg.brkTiming) w [] {} ≠ []) :
    ∃ e, ((e = .privilegeViolation ∧ m.violates r = true) ∨
        ∃ hits, e = .breakpoint hits ∧ m.core.brkHits (selEarly m.cfg.brkTiming) w [] {} ⊆ hits) ∧
      m.perform w r = m.enter e m.core.pc (m.knownNext w r) false := by
  unfold Mach.perform
  rw [if_pos hwf]
  cases refusalOf r with
  | some x => exact ⟨_, .inr ⟨_, rfl, List.Subset.refl _⟩, by rw [brkEvents_of_ne_nil hne]; rfl⟩
  | none =>
    have hsub := early_subset_beforeHits m w (m.evaluate w r)
    have hhits : m.beforeHits w (m.evaluate w r) ≠ [] := fun h => hne (List.subset_nil.1 (h ▸ hsub))
    have hdue : m.beforeEvents w r ≠ [] := fun h => hhits (beforeEvents_eq_nil.1 h).1
    obtain ⟨e, he, htake⟩ := takeOr_due m hdue
    refine ⟨e, ?_, htake _ _⟩
    rw [Mach.beforeEvents, brkEvents_of_ne_nil hhits, List.mem_append, List.mem_singleton] at he
    rcases he with rfl | hv
    · exact .inr ⟨_, rfl, hsub⟩
    · split at hv
      · exact .inl ⟨List.mem_singleton.1 hv, ‹_›⟩
      · cases hv

/-- The same of an instruction that has a record R9 allows. -/
theorem exec_early {m : Mach sh} {i : Instr} (ha : answered i m = true)
    (hne : m.core.brkHits (selEarly m.cfg.brkTiming) i.word [] {} ≠ []) :
    ∃ e, ((e = .privilegeViolation ∧ m.violates (recordOf i m) = true) ∨
        ∃ hits, e = .breakpoint hits ∧ m.core.brkHits (selEarly m.cfg.brkTiming) i.word [] {} ⊆ hits) ∧
      exec i ⟨sh, m⟩ = outcome (m.enter e m.core.pc (m.knownNext i.word (recordOf i m)) false) := by
  obtain ⟨hleg, hwf⟩ := Bool.and_eq_true_iff.1 ha
  obtain ⟨e, he, hperf⟩ := perform_early hwf hne
  exact ⟨e, he, (exec_eq_runRecord hleg).trans (congrArg outcome hperf)⟩

/-- Settles O47: the register is among those that match early. -/
theorem wordBreakpointTaken : Obligations.WordBreakpointTaken := by
  intro sh m i n l ht ha hmode hlen hbits next
  have hmem : (n, BrkMode.instrWord l) ∈ m.core.brkHits (selEarly m.cfg.brkTiming) i.word [] {} :=
    (brkHits_mem _ _ _ _ _ n _).2 ⟨hmode, by simp [selEarly, selBefore, brkWhen, ht], by simp [brkMatch, hlen, hbits]⟩
  obtain ⟨e, ⟨rfl, hv⟩ | ⟨hits, rfl, hsub⟩, hexec⟩ := exec_early ha (List.ne_nil_of_mem hmem)
  · exact .inr ⟨hv, hexec⟩
  · exact .inl ⟨hits, hsub hmem, hexec⟩

/-- The registers that match before the fetch are those of instruction address mode that hold the pc (R221). -/
theorem mem_fetchHits {c : Core sh} {t : BrkTiming} (ht : t.instrAddr = .before) (w : IWord) (p : Fin 6 × BrkMode) :
    p ∈ c.brkHits (selFetch t) w [] {} ↔ p.2 = .instrAddr ∧ brkCode c.bm p.1 = 1 ∧ c.br[p.1] = c.pc := by
  obtain ⟨n, md⟩ := p
  rw [brkHits_mem]
  constructor
  · rintro ⟨hmode, hsel, hmatch⟩
    obtain rfl : md = .instrAddr := by
      rw [selFetch, Bool.and_eq_true, beq_iff_eq] at hsel
      exact hsel.1
    exact ⟨rfl, (mode_instrAddr _).1 hmode, by simpa [brkMatch] using hmatch⟩
  · rintro ⟨rfl, hcode, hbr⟩
    exact ⟨(mode_instrAddr _).2 hcode, by simp [selFetch, brkWhen, ht], by simpa [brkMatch] using hbr⟩

/-- They are among those that match once the instruction word is known (R240 steps 2 and 4). -/
theorem fetchHits_subset_early (c : Core sh) (t : BrkTiming) (w w' : IWord) :
    c.brkHits (selFetch t) w [] {} ⊆ c.brkHits (selEarly t) w' [] {} := by
  rintro ⟨n, md⟩ h
  obtain ⟨hmode, hsel, hmatch⟩ := (brkHits_mem _ _ _ _ _ n md).1 h
  rw [selFetch, Bool.and_eq_true, beq_iff_eq] at hsel
  obtain ⟨rfl, hbefore⟩ := hsel
  exact (brkHits_mem _ _ _ _ _ n _).2 ⟨hmode, hbefore, hmatch⟩

/-- An instruction address breakpoint is entered at once, or left to the instruction that stands there (R214, R221). -/
theorem addressBreak_cases (m : Mach sh) (hits : List (Fin 6 × BrkMode)) :
    m.addressBreak hits = overWith (m.enter (.breakpoint hits) m.core.pc none false) ∨
      ∃ i, m.fetch = .ok i ∧ answered i m = true ∧ m.addressBreak hits = .ok (.run i m) := by
  cases hf : m.fetch with
  | error e => exact .inl (addressBreak_alone hf)
  | ok i =>
    by_cases hleft : m.drawBool .laterEvent = true ∧ answered i m = true
    · exact .inr ⟨i, rfl, hleft.2, by simp [Mach.addressBreak, hf, hleft]⟩
    · refine .inl ?_
      rw [not_and] at hleft
      unfold Mach.addressBreak
      by_cases hd : m.drawBool .laterEvent = true
      · simp [hd, hf, hleft hd]
      · simp [hd]

/-- A running core at an instruction address breakpoint comes to it (R240 step 2). -/
theorem untilInstr_addressBreak {m : Mach sh} (hh : m.ready.core.csr.hlt = false)
    (ht : takenIrq m.ready.core.csr m.nextMove.1 = none) (hc : m.ready.core.checkModes = .ok ())
    (hne : m.ready.core.brkHits (selFetch m.ready.cfg.brkTiming) ⟨.l16, 0#64⟩ [] {} ≠ []) :
    m.untilInstr = m.ready.addressBreak (m.ready.core.brkHits (selFetch m.ready.cfg.brkTiming) ⟨.l16, 0#64⟩ [] {}) := by
  simp [untilInstr_running hh ht, Mach.beforeInstr, hc, hne]

/-- Settles O7: the exception is entered at once, or the instruction that stands there enters one of the events due before it. -/
theorem addressBreakpointTaken : Obligations.AddressBreakpointTaken := by
  intro sh m n hh ht hc htime hcode hbr
  have hmem := mem_fetchHits (c := m.ready.core) htime ⟨.l16, 0#64⟩
  have hne := List.ne_nil_of_mem ((hmem (n, .instrAddr)).2 ⟨rfl, hcode, hbr⟩)
  have hu := untilInstr_addressBreak hh ht hc hne
  refine ⟨_, hmem, ?due, fun hnone => ?alone⟩
  case due =>
    rcases addressBreak_cases m.ready (m.ready.core.brkHits (selFetch m.ready.cfg.brkTiming) ⟨.l16, 0#64⟩ [] {}) with
      hnow | ⟨i, hf, ha, hrun⟩
    · exact .inl (step_over (hu.trans hnow))
    · have hsub := fetchHits_subset_early m.ready.core m.ready.cfg.brkTiming ⟨.l16, 0#64⟩ i.word
      have hstep : step ⟨sh, m⟩ = exec i ⟨sh, m.ready⟩ := by simp only [step, hu.trans hrun]
      obtain ⟨e, he, hexec⟩ := exec_early ha fun h => hne (List.subset_nil.1 (h ▸ hsub))
      refine .inr ⟨i, e, hf, ha, he.imp_right ?_, hstep.trans hexec⟩
      rintro ⟨hits', rfl, hearly⟩
      exact ⟨hits', rfl, fun p hp => hearly (hsub hp)⟩
  case alone =>
    cases hf : m.ready.fetch with
    | error e => exact step_over (hu.trans (addressBreak_alone hf))
    | ok i => exact absurd hf (hnone i)

/-! ### Breakpoints after an instruction -/

/-- One breakpoint register is active, of a mode that under the reference `BRK_TIMING` is taken after the instruction, and auto
exceptions are off. -/
structure Watches (m : Mach sh) (n : Fin 6) (md : BrkMode) : Prop where
  timing : m.cfg.brkTiming = {}
  exc : m.core.csr.exc = false
  only : ∀ j, brkModeOf (brkCode m.core.bm j) = if j = n then some md else some .disabled
  after : brkWhen {} md = .after

/-- What the instruction comes to whose effects are known: they are made, and where the register matches its exception is entered. -/
def Mach.watched (m : Mach sh) (w : IWord) (eff : Effect sh) (n : Fin 6) (md : BrkMode) : Res (Mach sh) :=
  if brkMatch m.core w eff.accs eff.gens md m.core.br[n] then
    (m.committed eff).enter (.breakpoint [(n, md)]) m.core.pc (some eff.next) true
  else .ok { m.committed eff with draws := m.draws + 1 }

/-- The register that is active is not checked before the effects (R240 step 4). -/
theorem Watches.beforeHits {m : Mach sh} {n : Fin 6} {md : BrkMode} (h : Watches m n md) (w : IWord) (eff : Effect sh) :
    m.beforeHits w (.ok eff) = [] := by
  have hsel : selBefore m.cfg.brkTiming md = false := by simp [selBefore, h.timing, h.after]
  simp [Mach.beforeHits, brkHits_single _ _ _ _ _ n md h.only, hsel]

/-- After the effects its exception alone can be due (R240 step 8). -/
theorem Watches.complete {m : Mach sh} {n : Fin 6} {md : BrkMode} (h : Watches m n md) (w : IWord) (eff : Effect sh) :
    m.complete w eff = m.watched w eff n md := by
  have hsel : selAfter m.cfg.brkTiming md = true := by simp [selAfter, h.timing, h.after]
  have hev : m.afterEvents w eff =
      if brkMatch m.core w eff.accs eff.gens md m.core.br[n] then [.breakpoint [(n, md)]] else [] := by
    rw [Mach.afterEvents, autoExceptions_off m _ h.exc, brkHits_single _ _ _ _ _ n md h.only, hsel, List.append_nil]
    cases brkMatch m.core w eff.accs eff.gens md m.core.br[n] <;> rfl
  unfold Mach.complete Mach.watched
  rw [hev]
  cases brkMatch m.core w eff.accs eff.gens md m.core.br[n] <;> rfl

/-- The same as an outcome, where it is known what the effects leave. -/
theorem outcome_watched {m t : Mach sh} {eff : Effect sh} {next : BitVec sh.W} (hcom : m.committed eff = t)
    (hnext : eff.next = next) (w : IWord) (n : Fin 6) (md : BrkMode) :
    outcome (m.watched w eff n md) =
      if brkMatch m.core w eff.accs eff.gens md m.core.br[n] = true then
        outcome (t.enter (.breakpoint [(n, md)]) m.core.pc (some next) true)
      else .next ⟨sh, { t with draws := m.draws + 1 }⟩ := by
  subst hcom hnext
  exact apply_ite outcome _ _ _

/-- An instruction that is neither refused nor a violation and whose record is worked out makes its effects first (R240 steps 4 to 8). -/
theorem exec_watched {m : Mach sh} {n : Fin 6} {md : BrkMode} (h : Watches m n md) {i : Instr} {eff : Effect sh}
    (ha : answered i m = true) (hall : allowed m (recordReads (recordOf i m)) (destsOf (recordOf i m)) = true)
    (hv : m.violates (recordOf i m) = false) (he : m.evaluate i.word (recordOf i m) = .ok eff) :
    exec i ⟨sh, m⟩ = outcome (m.watched i.word eff n md) := by
  obtain ⟨hleg, hwf⟩ := Bool.and_eq_true_iff.1 ha
  have hbefore : m.beforeEvents i.word (recordOf i m) = [] := beforeEvents_eq_nil.2 ⟨he ▸ h.beforeHits _ _, hv⟩
  rw [exec_eq_runRecord hleg, ← h.complete, runRecord]
  simp only [Mach.perform, hwf, if_true, refusalOf_allowed hall, hbefore, he, Mach.takeOr]

/-- The same of an instruction, compressed or not, whose record is written out. -/
theorem exec_fixed_watched {m : Mach sh} {n : Fin 6} {md : BrkMode} (h : Watches m n md) {w : IWord} {r : Record} {i : Instr}
    {eff : Effect sh} (hi : i = .compressed w (.fixed r) ∨ i = .general w (.fixed r)) (hwf : r.wf = true)
    (ha : allowed m (recordReads r) (destsOf r) = true) (hs : r.special = .none)
    (hc : changesStarred m.cfg.csrLayout sh.csrBits m.core.csr (m.listedWrites r) = false) (he : m.evaluate w r = .ok eff) :
    exec i ⟨sh, m⟩ = outcome (m.watched w eff n md) := by
  obtain ⟨hw, hr, hleg⟩ := recordOf_body (m := m) hi rfl
  subst hw hr
  exact exec_watched h (by rw [answered, hleg, hwf]; rfl) ha
    (violates_allowed ha (by rw [hs]; exact fun h => nomatch h) fun _ => hc) he

/-! ### Data breakpoints -/

/-- The widths of data accesses are told apart by their bits (R102). -/
theorem size_bits_eq_iff {s t : Size} : s.bits = t.bits ↔ t = s := by
  cases s <;> cases t <;> decide

/-- A register with a data mode matches one access where that has its direction, its width and its address (R222). -/
theorem brkMatch_access (c : Core sh) (w : IWord) (gens : Flags) {md : BrkMode} (hmd : ∃ s, md = .dataRead s ∨ md = .dataWrite s)
    (addr : Nat) (sz : Size) (write : Bool) (br : BitVec sh.W) :
    brkMatch c w [⟨addr, sz.bits, write⟩] gens md br = true ↔
      md = (if write then .dataWrite sz else .dataRead sz) ∧ addr = br.toNat := by
  obtain ⟨s, rfl | rfl⟩ := hmd <;> cases write <;> simp [brkMatch, size_bits_eq_iff]

/-- A load makes one access, and PC goes on (R222). -/
theorem load_accs {m : Mach sh} {w : IWord} {a : Operand} {sz : Size} {d : Fin 32} {v : Nat} {eff : Effect sh}
    (h : m.memRead .read (m.address (useRead 0) [] a) sz.bytes = .ok v) (he : m.evaluate w (loadRecord a sz d) = .ok eff) :
    eff.accs = [⟨m.address (useRead 0) [] a, sz.bits, false⟩] ∧ eff.next = afterPc m w := by
  obtain rfl := Except.ok.inj ((evaluate_data w rfl (loadAll_one h) (cellsOf_nil m _)).symm.trans he)
  exact ⟨rfl, rfl⟩

/-- One access of a chunk that is made of it alone. -/
theorem chunkAccesses_one (sz : Size) (a v : Nat) :
    chunkAccesses sh ⟨wrapAddr sh a, sz.bytes, sz.bytes, v⟩ = [⟨wrapAddr sh a, sz.bits, true⟩] := by
  have hbits : 8 * sz.bytes = sz.bits := by cases sz <;> rfl
  have hone : sz.bytes / sz.bytes = 1 := by cases sz <;> rfl
  simp [chunkAccesses, hone, hbits, wrapAddr]

/-- A store makes one access, and PC goes on (R222). -/
theorem store_accs {m : Mach sh} {w : IWord} {a : Operand} {sz : Size} {v : Operand} {eff : Effect sh}
    (hp : m.core.csr.pag = false) (ha : m.address (useStoreAddr 0) [] a % sz.bytes = 0)
    (he : m.evaluate w (storeRecord a sz v) = .ok eff) :
    eff.accs = [⟨m.address (useStoreAddr 0) [] a, sz.bits, true⟩] ∧ eff.next = afterPc m w := by
  obtain rfl := Except.ok.inj ((evaluate_data w rfl rfl (cellsOf_one m _ _ hp ha (size_bytes_le sz))).symm.trans he)
  refine ⟨?_, rfl⟩
  simp only [storeRecord, Mach.storeChunks, List.flatMap_cons, List.flatMap_nil, List.append_nil, List.nil_append]
  exact chunkAccesses_one sz _ _

/-- Settles O46: the rule of each mode is its match, and a load or a store is one access, which the one active register matches or
not. -/
theorem breakpointMatches : Obligations.BreakpointMatches := by
  refine ⟨?rule, ?data⟩
  case rule =>
    intro sh c sel w accs gens n md
    rw [brkHits_mem]
    cases md with
    | instrAddr => rw [brkMatch, beq_iff_eq, eq_comm (a := c.br[n])]
    | _ => simp [brkMatch, and_assoc]
  case data =>
    intro sh m w a sz i n md ht hx hmd hone ha after
    have hwatch : Watches m n md := ⟨ht, hx, hone, by obtain ⟨s, rfl | rfl⟩ := hmd <;> rfl⟩
    refine ⟨?load, ?store⟩
    case load =>
      intro d v hallowed hi addr hv
      have hall : allowed m (recordReads (loadRecord a sz d)) [.x d] = true := by
        rw [recordReads_load]; exact allowed_x d hallowed
      obtain ⟨eff, he, -, hcom⟩ := evaluate_load w d hv
      obtain ⟨haccs, hnext⟩ := load_accs hv he
      rw [exec_fixed_watched hwatch hi (loadRecord_wf sz d ha) hall rfl rfl he, outcome_watched hcom hnext, haccs]
      exact if_congr (brkMatch_access m.core w _ hmd _ sz false _) rfl rfl
    case store =>
      intro val hval hallowed hi addr hpag halign
      have hall : allowed m (recordReads (storeRecord a sz val)) [] = true := by rw [recordReads_store]; exact hallowed
      obtain ⟨eff, he, -, hcom⟩ := evaluate_store w val hpag halign
      obtain ⟨haccs, hnext⟩ := store_accs hpag halign he
      rw [exec_fixed_watched hwatch hi (storeRecord_wf sz ha hval) hall rfl rfl he, outcome_watched hcom hnext, haccs]
      exact if_congr (brkMatch_access m.core w _ hmd _ sz true _) rfl rfl

/-! ### Flag breakpoints -/

/-- The registers after a vector instruction that generates flags, PC apart (R170, R174, R179). -/
theorem vectorDone_flags (m : Mach sh) (d : Fin 32) (lb : Nat) (res : VSrc) (src : LaneFlagSrc) :
    m.vectorDone d lb res (some src) = { m.core with
      v := m.core.v.set d (m.vectorResult d lb res)
      vflg := m.newVflg lb (m.laneGens useLaneFlags [] src) m.core.vflg
      fu1 := m.core.fu1 ||| usageBit d.val }.markImplicit m.cfg [.fu1, .vflg] := rfl

/-- A vector instruction whose registers are allowed does its work, and then enters the exception of a watched flag if that counts
(R224). -/
theorem exec_vectorOp_watched {m : Mach sh} {n : Fin 6} {f : Flag} (h : Watches m n (.flag f)) (w : IWord) (d : Fin 32) {lb : Nat}
    (srcs : List (Fin 32)) {res : VSrc} {src : LaneFlagSrc} (hlb : 1 ≤ lb) (hres : allowed m (vsrcReads res) [] = true)
    (hsrc : allowed m (laneFlagSrcReads src) [] = true) :
    exec (.vectorOp w d lb srcs res (some src)) ⟨sh, m⟩ =
      if flagOf (m.lanesCounted lb (m.laneGens useLaneFlags [] src)) f = true then
        outcome ((settled m (m.vectorDone d lb res (some src)) m.mem (afterPc m w)).enter (.breakpoint [(n, .flag f)]) m.core.pc
          (some (afterPc m w)) true)
      else .next (advanced m (m.vectorDone d lb res (some src)) m.mem (afterPc m w)) := by
  obtain ⟨eff, he, hgens, hnext, hcom⟩ := evaluate_vectorOp m w d lb srcs res (some src)
  have hallowed := allowed_vectorOp d lb srcs hres (flags := some src) fun f hf => Option.some.inj hf ▸ hsrc
  have hanswered : answered (.vectorOp w d lb srcs res (some src)) m = true := by
    simp [answered, legal, recordOf, Record.wf, dreadsWf, Special.wf, hlb]
  have hv : m.violates (vectorOpRecord d lb srcs res (some src)) = false :=
    violates_allowed hallowed (fun h => nomatch h) fun _ => by rw [listedWrites_nil rfl]; rfl
  have hmatch : brkMatch m.core w eff.accs eff.gens (.flag f) m.core.br[n] =
      flagOf (m.lanesCounted lb (m.laneGens useLaneFlags [] src)) f := by
    rw [brkMatch, hgens]
    exact flagOf_generated_lanes m lb _ f
  rw [← hmatch]
  exact (exec_watched h (i := .vectorOp w d lb srcs res (some src)) hanswered hallowed hv he).trans
    (outcome_watched hcom hnext w n (.flag f))

/-- Settles O48: the register matches where the flag is generated as 1, and that is what the scalar flags, or those of an allowed lane,
say. -/
theorem flagBreakpointTaken : Obligations.FlagBreakpointTaken := by
  intro sh m w f n ht hx hone raised quiet
  have hwatch : Watches m n (.flag f) := ⟨ht, hx, hone, rfl⟩
  refine ⟨?scalar, ?lanes⟩
  case scalar =>
    intro g i hi t
    obtain ⟨eff, he, hgens, hnext, hcom⟩ := evaluate_scalarFlags m w g
    have hallowed : allowed m (recordReads { sflags := some (.fixed g) }) [] = true := allowed_nil m
    rw [exec_fixed_watched hwatch hi rfl hallowed rfl (by rw [listedWrites_nil rfl]; rfl) he, outcome_watched hcom hnext]
    refine if_congr ?_ rfl rfl
    rw [brkMatch, hgens, flagOf_gen, Bool.and_eq_true]
  case lanes =>
    intro d lb srcs res src hlb hres hsrc gens t
    have hrun := exec_vectorOp_watched hwatch w d srcs hlb hres hsrc
    rw [vectorDone_flags] at hrun
    refine ⟨fun ⟨j, hj, hmask, hf⟩ => ?_, fun hnone => ?_⟩
    · have hcount : flagOf (m.lanesCounted lb gens) f = true :=
        lanesCounted_of_allowed hlb hj hmask (by rwa [flagOf_gen, Bool.and_eq_true])
      exact hrun.trans (if_pos hcount)
    · have hcount : ¬ flagOf (m.lanesCounted lb gens) f = true := by
        intro hc
        obtain ⟨j, hj⟩ := generated_of_lanesCounted hc
        rw [flagOf_gen, Bool.and_eq_true] at hj
        exact hnone j hj
      exact hrun.trans (if_neg hcount)

end Sys2Proof.Machine
end

section
/-! The machine at reset (R95, R261). -/

namespace Sys2Proof.Machine

open Sys2Proof

/-- At reset every core but the boot core is parked, each in its own reset state (R95). -/
theorem mem_resetWith_parked {sh : Shape} {cfg : Params} {isa : Isa} {j : Nat} {c : Core sh} :
    (j, c) ∈ (Mach.resetWith sh cfg isa).parked ↔
      j < cfg.ncores ∧ j ≠ cfg.bootCore ∧ c = Core.resetOther sh cfg j := by
  simp only [Mach.resetWith, List.mem_map, List.mem_filter, List.mem_range, bne_iff_ne, Prod.mk.injEq]
  constructor
  · rintro ⟨i, ⟨hi, hne⟩, rfl, rfl⟩
    exact ⟨hi, hne, rfl⟩
  · rintro ⟨hj, hne, rfl⟩
    exact ⟨j, ⟨hj, hne⟩, rfl, rfl⟩

/-- Settles O57: the boot core's registers are those of its reset state, and which cores are parked decides the rest. -/
theorem resetState : Obligations.ResetState := by
  intro sh cfg isa _
  refine ⟨rfl, rfl, rfl, rfl, rfl, rfl, rfl, ?parked, ?halted⟩
  case parked =>
    intro j hj hne
    exact ⟨Core.resetOther sh cfg j, mem_resetWith_parked.2 ⟨hj, hne, rfl⟩⟩
  case halted =>
    rintro ⟨j, c⟩ hp
    obtain ⟨hj, hne, rfl⟩ := mem_resetWith_parked.1 hp
    exact ⟨hj, hne, rfl, rfl, rfl⟩

end Sys2Proof.Machine
end
